-- ==== Sys2Proof/Word.lean ====
section
/-! DEFINITION. The word types of PCMCONV: bytes of the buffers, 64-bit registers and 32-bit command words
(00_scope.md rules R6 and R9). -/

namespace Sys2Proof

/-- One byte of IB or OB. -/
abbrev Byte := BitVec 8

/-- A 64-bit register value. -/
abbrev Word := BitVec 64

/-- A 32-bit command word (rule R80). -/
abbrev Command := BitVec 32

end Sys2Proof
end

