-- ==== Sys2Proof/Config.lean ====
section
/-! DEFINITION. What an implementation fixes and what the spec leaves open: the parameters of 00_scope.md rules R5 to R8
and the reset draws of 70_reset_and_hazards.md rule R281. An open parameter is an opaque constant: nothing can be proved
about it but what its type says, so a claim holds whatever it is. -/

namespace Sys2Proof

/-- A resolved byte order. -/
inductive ByteOrder where
  | big
  | little
  deriving DecidableEq, Repr, Inhabited

/-- `HOST_ENDIAN` of rule R5: the byte order that the endian code Native stands for, fixed for the whole run.
DESIGN CHOICE of the form, the value is the spec's OPEN parameter (log 4). -/
opaque Config.hostEndian : ByteOrder

/-- `OFF_BITS` of rule R6. -/
def Config.offBits : Nat := 64

/-- `NAN_TO_INT(D)` of rule R7, as a D-bit two's-complement pattern: its signed value runs over exactly the range
that the rule allows (log 5). -/
opaque Config.nanToInt (D : Nat) : BitVec D

/-- `NAN_F64_TO_F32(b64)` of rule R8, as the sign bit and the fraction field less one: every binary32 NaN and nothing
else can be written this way (log 6). -/
opaque Config.nanF64ToF32 (b : BitVec 64) : Bool × Fin 8388607

/-- `NAN_F32_TO_F64(b32)` of rule R8, as the sign bit and the fraction field less one: every binary64 NaN and nothing
else can be written this way (log 6). -/
opaque Config.nanF32ToF64 (b : BitVec 32) : Bool × Fin 4503599627370495

/-- The unspecified value of sample register `i` after the `k`-th reset event (rules R44 and R281), `k = 0` being the
reset that `State.reset` stands for. DESIGN CHOICE of the form (log 3). -/
opaque Config.resetDraw (k i : Nat) : Word

end Sys2Proof
end

