-- ==== Sys2Proof/Syntax.lean ====
section
/-! DEFINITION. The instructions of PCMCONV as syntax: one constructor of `Instr` per row of spec/opcode_table.json
(30_encoding.md rules R85 to R91), with the operand types the rules name. -/

namespace Sys2Proof

/-- A sample register name (10_state.md rule R21). -/
inductive VReg where
  | v0
  | v1
  | v2
  | v3
  deriving DecidableEq, Repr

/-- The 26 encodings of 30_encoding.md rule R81, named as rule R97 names them. -/
inductive Encoding where
  | s8 | u8 | s16 | u16 | s18 | u18 | s18_3 | u18_3 | s18_4 | u18_4 | s20 | u20 | s20_3 | u20_3 | s20_4 | u20_4
  | s24 | u24 | s24_4 | u24_4 | s32 | u32 | s64 | u64 | f32 | f64
  deriving DecidableEq, Repr

/-- The three legal endian codes of rule R82. -/
inductive EndianCode where
  | native
  | big
  | little
  deriving DecidableEq, Repr

/-- A valid wire format: an encoding and an endian (rule R83). -/
structure WireFormat where
  enc    : Encoding
  endian : EndianCode
  deriving DecidableEq, Repr

/-- The eleven commands. `len` and `depth` are the zero-extended counts of rule R100; which of their values are legal
is `Instr.wellFormed`'s to say. -/
inductive Instr where
  /-- aligned read of one octet (rule R124) -/
  | ard (rd : VReg)
  /-- aligned write of one octet (rule R125) -/
  | awr (rs : VReg)
  /-- unaligned read of `len` bits (rule R126) -/
  | urd (len : Nat) (rd : VReg)
  /-- unaligned write of `len` bits (rule R127) -/
  | uwr (len : Nat) (rs : VReg)
  /-- signed to offset binary (rule R143) -/
  | s2u (depth : Nat) (rd rs : VReg)
  /-- offset binary to signed (rule R144) -/
  | u2s (depth : Nat) (rd rs : VReg)
  /-- unpack one sample (rule R158) -/
  | unpk (fmt : WireFormat) (rd : VReg)
  /-- pack one sample (rule R159) -/
  | pack (fmt : WireFormat) (rs : VReg)
  /-- convert between encodings (rule R180) -/
  | cvt (src dst : Encoding) (rd rs : VReg)
  /-- resolve the configured format pair (rule R221) -/
  | rslv
  /-- convert N samples (rule R222) -/
  | batch
  deriving DecidableEq, Repr

end Sys2Proof
end

