-- ==== Sys2Proof/WellFormed.lean ====
section
/-! DEFINITION. Which instruction terms stand for a legal command (30_encoding.md rule R94): the length of a cursor
command and the depth of a sign-converter command. Formats, encodings and registers are legal by their types. -/

namespace Sys2Proof

/-- The depths of 41_sign_converter.md rule R140. -/
def signDepths : List Nat := [8, 16, 18, 20, 24, 32, 64]

/-- A legal `len` field (rule R86). -/
def legalLength (len : Nat) : Bool := decide (len ≤ 8)

/-- A legal `depth` field (rules R87 and R140). -/
def legalDepth (depth : Nat) : Bool := signDepths.contains depth

/-- The instruction is a legal command (rule R94). -/
def Instr.wellFormed : Instr → Bool
  | .ard _ => true
  | .awr _ => true
  | .urd len _ => legalLength len
  | .uwr len _ => legalLength len
  | .s2u depth _ _ => legalDepth depth
  | .u2s depth _ _ => legalDepth depth
  | .unpk _ _ => true
  | .pack _ _ => true
  | .cvt _ _ _ _ => true
  | .rslv => true
  | .batch => true

end Sys2Proof
end

