-- ==== Sys2Proof/Decode.lean ====
section
/-! DEFINITION. Command words: the numeric codes of 30_encoding.md rules R81 to R83, the opcode table of rule R91, the
decoder with its rejections by name (rules R92 to R94), and the encoder (rules R85 to R90). -/

namespace Sys2Proof

/-! ## Codes -/

/-- Register fields name V0 to V3 directly (rule R100). -/
def VReg.code : VReg → BitVec 2
  | .v0 => 0
  | .v1 => 1
  | .v2 => 2
  | .v3 => 3

/-- The register a 2-bit field names (rule R100). -/
def VReg.ofCode (c : BitVec 2) : VReg :=
  if c = 0 then .v0 else if c = 1 then .v1 else if c = 2 then .v2 else .v3

/-- The encoding codes of rule R81. -/
def Encoding.code : Encoding → BitVec 5
  | .s8 => 1
  | .u8 => 2
  | .s16 => 3
  | .u16 => 4
  | .s18 => 5
  | .u18 => 6
  | .s18_3 => 7
  | .u18_3 => 8
  | .s18_4 => 9
  | .u18_4 => 10
  | .s20 => 11
  | .u20 => 12
  | .s20_3 => 13
  | .u20_3 => 14
  | .s20_4 => 15
  | .u20_4 => 16
  | .s24 => 17
  | .u24 => 18
  | .s24_4 => 19
  | .u24_4 => 20
  | .s32 => 21
  | .u32 => 22
  | .s64 => 23
  | .u64 => 24
  | .f32 => 25
  | .f64 => 26

/-- Every encoding, in the order of rule R81's table. -/
def Encoding.all : List Encoding :=
  [.s8, .u8, .s16, .u16, .s18, .u18, .s18_3, .u18_3, .s18_4, .u18_4, .s20, .u20, .s20_3, .u20_3, .s20_4, .u20_4,
   .s24, .u24, .s24_4, .u24_4, .s32, .u32, .s64, .u64, .f32, .f64]

/-- The encoding a 5-bit code names; code 0 and codes 27 to 31 name none (rule R81). -/
def Encoding.ofCode? (c : BitVec 5) : Option Encoding :=
  Encoding.all.find? (fun e => e.code = c)

/-- The endian codes of rule R82. -/
def EndianCode.code : EndianCode → BitVec 2
  | .native => 0
  | .big => 1
  | .little => 2

/-- The endian a 2-bit code names; code 3 is reserved (rule R82). -/
def EndianCode.ofCode? (c : BitVec 2) : Option EndianCode :=
  if c = 0 then some .native else if c = 1 then some .big else if c = 2 then some .little else none

/-- The 7-bit format code, the encoding code above the endian code (rule R83). -/
def WireFormat.code (f : WireFormat) : BitVec 7 := f.enc.code ++ f.endian.code

/-- The format a 7-bit code names; every invalid code is Invalid, here `none` (rule R83). -/
def WireFormat.ofCode? (c : BitVec 7) : Option WireFormat :=
  match Encoding.ofCode? (c.extractLsb' 2 5), EndianCode.ofCode? (c.extractLsb' 0 2) with
  | some e, some d => some ⟨e, d⟩
  | _, _ => none

/-! ## The opcode table -/

/-- The mnemonics of rule R91. -/
inductive Op where
  | ard | awr | urd | uwr | s2u | u2s | unpk | pack | cvt | rslv | batch
  deriving DecidableEq, Repr

/-- The opcodes of rule R91, bits 31:27. -/
def Op.opcode : Op → BitVec 5
  | .ard => 0x01
  | .awr => 0x02
  | .urd => 0x03
  | .uwr => 0x04
  | .s2u => 0x05
  | .u2s => 0x06
  | .unpk => 0x07
  | .pack => 0x08
  | .cvt => 0x09
  | .rslv => 0x0A
  | .batch => 0x0B

/-- One row of rule R91's table. -/
structure OpcodeRow where
  op      : Op
  pattern : Command
  mask    : Command
  deriving DecidableEq, Repr

/-- The opcode map of rule R91, its match column named `pattern`. -/
def opcodeTable : List OpcodeRow :=
  [⟨.ard, 0x08000000, 0xFF9FFFFF⟩, ⟨.awr, 0x10000000, 0xFF9FFFFF⟩,
   ⟨.urd, 0x18000000, 0xF81FFFFF⟩, ⟨.uwr, 0x20000000, 0xF81FFFFF⟩,
   ⟨.s2u, 0x28000000, 0xF800FFFF⟩, ⟨.u2s, 0x30000000, 0xF800FFFF⟩,
   ⟨.unpk, 0x38000000, 0xF803FFFF⟩, ⟨.pack, 0x40000000, 0xF803FFFF⟩,
   ⟨.cvt, 0x48000000, 0xF8001FFF⟩, ⟨.rslv, 0x50000000, 0xFFFFFFFF⟩, ⟨.batch, 0x58000000, 0xFFFFFFFF⟩]

/-- A word selects a row iff its masked bits are the row's pattern (rule R91). -/
def OpcodeRow.selects (r : OpcodeRow) (w : Command) : Bool := w &&& r.mask = r.pattern

/-- The opcode field of a word (rule R80). -/
def opcodeOf (w : Command) : BitVec 5 := w.extractLsb' 27 5

/-! ## Decoding -/

/-- Why a word is no legal command; each of them raises IllegalCommand (rules R92 to R94). -/
inductive DecodeError where
  /-- opcode 0x00 or 0x0C to 0x1F (rule R92) -/
  | reservedOpcode (opcode : BitVec 5)
  /-- a non-zero bit in a reserved-zero field (rule R93) -/
  | reservedBits
  /-- `len` above 8 in format U (rule R94) -/
  | badLength (len : Nat)
  /-- a `depth` outside the set in format S (rule R94) -/
  | badDepth (depth : Nat)
  /-- an invalid format code in format P (rule R94) -/
  | badFormat (code : BitVec 7)
  /-- a `src` or `dst` outside 1 to 26 in format V (rule R94) -/
  | badEncoding (src dst : BitVec 5)
  deriving DecidableEq, Repr

/-- The operands of format U (rule R86). -/
def decodeFormU (mk : Nat → VReg → Instr) (w : Command) : Except DecodeError Instr :=
  let len := (w.extractLsb' 23 4).toNat
  if legalLength len then .ok (mk len (VReg.ofCode (w.extractLsb' 21 2))) else .error (.badLength len)

/-- The operands of format S (rule R87). -/
def decodeFormS (mk : Nat → VReg → VReg → Instr) (w : Command) : Except DecodeError Instr :=
  let depth := (w.extractLsb' 20 7).toNat
  if legalDepth depth then
    .ok (mk depth (VReg.ofCode (w.extractLsb' 18 2)) (VReg.ofCode (w.extractLsb' 16 2)))
  else .error (.badDepth depth)

/-- The operands of format P (rule R88). -/
def decodeFormP (mk : WireFormat → VReg → Instr) (w : Command) : Except DecodeError Instr :=
  match WireFormat.ofCode? (w.extractLsb' 20 7) with
  | some f => .ok (mk f (VReg.ofCode (w.extractLsb' 18 2)))
  | none => .error (.badFormat (w.extractLsb' 20 7))

/-- The operands of format V (rule R89). -/
def decodeFormV (mk : Encoding → Encoding → VReg → VReg → Instr) (w : Command) : Except DecodeError Instr :=
  match Encoding.ofCode? (w.extractLsb' 22 5), Encoding.ofCode? (w.extractLsb' 17 5) with
  | some src, some dst => .ok (mk src dst (VReg.ofCode (w.extractLsb' 15 2)) (VReg.ofCode (w.extractLsb' 13 2)))
  | _, _ => .error (.badEncoding (w.extractLsb' 22 5) (w.extractLsb' 17 5))

/-- The operands of a word that has selected the row of `op` (rules R85 to R90). -/
def decodeOperands (op : Op) (w : Command) : Except DecodeError Instr :=
  match op with
  | .ard => .ok (.ard (VReg.ofCode (w.extractLsb' 21 2)))
  | .awr => .ok (.awr (VReg.ofCode (w.extractLsb' 21 2)))
  | .urd => decodeFormU .urd w
  | .uwr => decodeFormU .uwr w
  | .s2u => decodeFormS .s2u w
  | .u2s => decodeFormS .u2s w
  | .unpk => decodeFormP .unpk w
  | .pack => decodeFormP .pack w
  | .cvt => decodeFormV .cvt w
  | .rslv => .ok .rslv
  | .batch => .ok .batch

/-- Decoding of a command word: select a row, then check the field values (rules R91 to R94). -/
def decode (w : Command) : Except DecodeError Instr :=
  match opcodeTable.find? (fun r => r.selects w) with
  | some r => decodeOperands r.op w
  | none =>
    if opcodeTable.any (fun r => r.op.opcode = opcodeOf w) then .error .reservedBits
    else .error (.reservedOpcode (opcodeOf w))

/-- The instruction the decoder reads from the table's numbering of a word's bits: a command is one 32-bit word
(rule R80), and bits the table does not give are zero. -/
def decodeTableWord (nbits w : Nat) : Option Instr :=
  match decode (BitVec.ofNat 32 (w % 2 ^ nbits)) with
  | .ok i => some i
  | .error _ => none

/-! ## Encoding -/

/-- Format A (rule R85). -/
def encodeFormA (op : Op) (r : VReg) : Command := op.opcode ++ 0#4 ++ r.code ++ 0#21

/-- Format U (rule R86). -/
def encodeFormU (op : Op) (len : Nat) (r : VReg) : Command := op.opcode ++ BitVec.ofNat 4 len ++ r.code ++ 0#21

/-- Format S (rule R87). -/
def encodeFormS (op : Op) (depth : Nat) (rd rs : VReg) : Command :=
  op.opcode ++ BitVec.ofNat 7 depth ++ rd.code ++ rs.code ++ 0#16

/-- Format P (rule R88). -/
def encodeFormP (op : Op) (f : WireFormat) (r : VReg) : Command := op.opcode ++ f.code ++ r.code ++ 0#18

/-- Format V (rule R89). -/
def encodeFormV (op : Op) (src dst : Encoding) (rd rs : VReg) : Command :=
  op.opcode ++ src.code ++ dst.code ++ rd.code ++ rs.code ++ 0#13

/-- Format N (rule R90). -/
def encodeFormN (op : Op) : Command := op.opcode ++ 0#27

/-- The word of a well-formed instruction (rules R85 to R91). -/
def encode : Instr → Command
  | .ard rd => encodeFormA .ard rd
  | .awr rs => encodeFormA .awr rs
  | .urd len rd => encodeFormU .urd len rd
  | .uwr len rs => encodeFormU .uwr len rs
  | .s2u depth rd rs => encodeFormS .s2u depth rd rs
  | .u2s depth rd rs => encodeFormS .u2s depth rd rs
  | .unpk f rd => encodeFormP .unpk f rd
  | .pack f rs => encodeFormP .pack f rs
  | .cvt src dst rd rs => encodeFormV .cvt src dst rd rs
  | .rslv => encodeFormN .rslv
  | .batch => encodeFormN .batch

/-- The row of rule R91 that an instruction belongs to. -/
def Instr.op : Instr → Op
  | .ard _ => .ard
  | .awr _ => .awr
  | .urd _ _ => .urd
  | .uwr _ _ => .uwr
  | .s2u _ _ _ => .s2u
  | .u2s _ _ _ => .u2s
  | .unpk _ _ => .unpk
  | .pack _ _ => .pack
  | .cvt _ _ _ _ => .cvt
  | .rslv => .rslv
  | .batch => .batch

end Sys2Proof
end

