-- ==== Sys2Proof/Machine/State.lean ====
section
/-! DEFINITION. The state of one PCMCONV instance as plain data (10_state.md rules R20 to R29 and R41, 20_memory.md rule
R60), the reasons a step can stop, and the state right after reset (70_reset_and_hazards.md rule R280). -/

namespace Sys2Proof.Machine

/-- A buffer's contents: index and byte, indices strictly rising, no entry that holds the byte an unlisted index reads as
(`Memory.wf`). -/
abbrev Memory := List Host.Cell

/-- Reasons for which the machine stops: there is none, and the type has no constructor. The block's own faults
(60_exceptions.md rule R251) are not here: they are recorded in STATUS and FINFO, and the machine goes on, halted (log 9). -/
inductive Fault where
  deriving DecidableEq, Repr

/-- Reasons to refuse an instruction. -/
inductive Refusal where
  /-- Raised by an arm of `exec` whose instruction has no meaning yet. No arm does. Safe. -/
  | notModelled (mnemonic : String)
  deriving DecidableEq, Repr

/-- The block's faults with the information each records (60_exceptions.md rule R251). -/
inductive BlockFault where
  /-- a word that is no legal command -/
  | illegalCommand (w : Command)
  /-- a read of a sample register whose written flag is 0 -/
  | unwrittenRegister (r : VReg)
  /-- an aligned-class access at the given cursor, which is no multiple of 8 -/
  | alignFault (cursor : Word)
  /-- an access outside IB, IBO being the given cursor -/
  | boundsFaultIB (cursor : Word)
  /-- an access outside OB, OBO being the given cursor -/
  | boundsFaultOB (cursor : Word)
  deriving DecidableEq, Repr

/-- The fields of STATUS (10_state.md rule R27). The reserved bits are no state: they read 0. -/
structure Status where
  fault    : Bool
  resolved : Bool
  cfgErr   : Bool
  fcode    : BitVec 4
  deriving DecidableEq, Repr

/-- A sample register and its hidden written flag (rule R21). -/
structure SampleReg where
  value   : Word
  written : Bool
  deriving DecidableEq, Repr

/-- V0 to V3 with VW0 to VW3 (rule R21). -/
structure SampleRegs where
  v0 : SampleReg
  v1 : SampleReg
  v2 : SampleReg
  v3 : SampleReg
  deriving DecidableEq, Repr

/-- What the host or the platform does between commands (00_scope.md rule R4; log 1). -/
inductive HostAction where
  /-- a 64-bit register write; at offset 0 it issues a command (rules R29, R39 and R40) -/
  | writeReg (offset : BitVec 8) (value : Word)
  /-- a 64-bit register read (rules R39 and R40) -/
  | readReg (offset : BitVec 8)
  /-- the host fills a byte of IB (20_memory.md rule R61) -/
  | writeIB (index : BitVec 61) (value : Byte)
  /-- the host sets a byte of OB (rule R61) -/
  | writeOB (index : BitVec 61) (value : Byte)
  /-- the platform asserts reset (70_reset_and_hazards.md rule R280) -/
  | reset
  deriving DecidableEq, Repr

/-- The architectural state of rule R20, and below it the model's own three fields. -/
structure State where
  /-- V0 to V3 and VW0 to VW3 (rule R21) -/
  regs     : SampleRegs
  /-- input bit offset (rule R23) -/
  ibo      : Word
  /-- output bit offset (rule R23) -/
  obo      : Word
  /-- N, the sample count of BATCH (rule R24) -/
  n        : BitVec 32
  /-- CNT, the samples BATCH has completed (rule R24) -/
  cnt      : BitVec 32
  /-- length of IB in bytes (rule R25) -/
  ibLen    : BitVec 61
  /-- length of OB in bytes (rule R25) -/
  obLen    : BitVec 61
  /-- IN_FMT, a format code (rule R26) -/
  inFmt    : BitVec 7
  /-- OUT_FMT, a format code (rule R26) -/
  outFmt   : BitVec 7
  /-- STATUS (rule R27) -/
  status   : Status
  /-- FINFO (rule R28) -/
  finfo    : Word
  /-- the input buffer (20_memory.md rule R60) -/
  ib       : Memory
  /-- the output buffer (20_memory.md rule R60) -/
  ob       : Memory
  /-- the model's own: what the host will do next, first action first (log 1) -/
  pending  : List HostAction
  /-- the model's own: what the host's last register read returned (log 10) -/
  hostData : Word
  /-- the model's own: how many reset events have happened (log 3) -/
  resets   : Nat
  deriving DecidableEq, Repr

/-- V0 to V3 after reset event `k`: unspecified values, not written (rules R44 and R281; log 3). -/
def SampleRegs.afterReset (k : Nat) : SampleRegs :=
  ⟨⟨Config.resetDraw k 0, false⟩, ⟨Config.resetDraw k 1, false⟩, ⟨Config.resetDraw k 2, false⟩,
   ⟨Config.resetDraw k 3, false⟩⟩

/-- The block right after reset (70_reset_and_hazards.md rule R280), with buffers in which the host has placed nothing
(log 7) and a host that has nothing to do (log 1). -/
def State.reset : State where
  regs := SampleRegs.afterReset 0
  ibo := 0
  obo := 0
  n := 0
  cnt := 0
  ibLen := 0
  obLen := 0
  inFmt := 0
  outFmt := 0
  status := ⟨false, false, false, 0⟩
  finfo := 0
  ib := []
  ob := []
  pending := []
  hostData := 0
  resets := 0

end Sys2Proof.Machine
end

