-- ==== Sys2Proof/Machine/Ops.lean ====
section
/-! DEFINITION. The named operations over the buffers and registers, and the taking of a fault (60_exceptions.md rules R251
to R255) as one shared operation. -/

namespace Sys2Proof.Machine

/-! ## Buffers -/

/-- What an index that is not listed reads as (log 7). -/
def unlistedByte : Byte := 0

/-- `MemRead(buffer, a, 1)` of 00_scope.md rule R13. -/
def Memory.read : Memory → Nat → Byte
  | [], _ => unlistedByte
  | (k, b) :: rest, a => if k = a then b else Memory.read rest a

/-- The buffer without an entry for index `a`. -/
def Memory.erase : Memory → Nat → Memory
  | [], _ => []
  | (k, b) :: rest, a => if k = a then Memory.erase rest a else (k, b) :: Memory.erase rest a

/-- The entry `(a, v)` at its place in the rising order. -/
def Memory.insert : Memory → Nat → Byte → Memory
  | [], a, v => [(a, v)]
  | (k, b) :: rest, a, v => if a < k then (a, v) :: (k, b) :: rest else (k, b) :: Memory.insert rest a v

/-- `MemWrite(buffer, a, 1, v)` of rule R13, which keeps the canonical form. -/
def Memory.write (m : Memory) (a : Nat) (v : Byte) : Memory :=
  if v = unlistedByte then m.erase a else (m.erase a).insert a v

/-- Every listed index is above `lo`, they rise strictly, and none holds the unlisted byte. -/
def Memory.wfAbove : Nat → Memory → Bool
  | _, [] => true
  | lo, (k, b) :: rest => decide (lo ≤ k) && decide (b ≠ unlistedByte) && Memory.wfAbove (k + 1) rest

/-- The canonical form of a buffer. -/
def Memory.wf (m : Memory) : Bool := Memory.wfAbove 0 m

/-- Bit offset `b` of a buffer: bit `7 - (b mod 8)` of byte `b / 8` (20_memory.md rule R62). -/
def Memory.bit (m : Memory) (b : Nat) : Bool := (m.read (b / 8)).getLsbD (7 - b % 8)

/-! ## Registers -/

/-- The sample register that `r` names. -/
def SampleRegs.get (g : SampleRegs) : VReg → SampleReg
  | .v0 => g.v0
  | .v1 => g.v1
  | .v2 => g.v2
  | .v3 => g.v3

/-- The sample registers with `r` replaced. -/
def SampleRegs.set (g : SampleRegs) (r : VReg) (x : SampleReg) : SampleRegs :=
  match r with
  | .v0 => { g with v0 := x }
  | .v1 => { g with v1 := x }
  | .v2 => { g with v2 := x }
  | .v3 => { g with v3 := x }

/-- `V[r]` (00_scope.md rule R13). -/
def State.v (s : State) (r : VReg) : Word := (s.regs.get r).value

/-- `VW[r]` (10_state.md rule R21). -/
def State.vw (s : State) (r : VReg) : Bool := (s.regs.get r).written

/-- `V[r] <- x ; VW[r] <- 1`, as a command and a host write do it (rule R21). -/
def State.writeV (s : State) (r : VReg) (x : Word) : State := { s with regs := s.regs.set r ⟨x, true⟩ }

def State.setIbo (s : State) (x : Word) : State := { s with ibo := x }
def State.setObo (s : State) (x : Word) : State := { s with obo := x }
def State.setN (s : State) (x : BitVec 32) : State := { s with n := x }
def State.setCnt (s : State) (x : BitVec 32) : State := { s with cnt := x }
def State.setIbLen (s : State) (x : BitVec 61) : State := { s with ibLen := x }
def State.setObLen (s : State) (x : BitVec 61) : State := { s with obLen := x }
def State.setInFmt (s : State) (x : BitVec 7) : State := { s with inFmt := x }
def State.setOutFmt (s : State) (x : BitVec 7) : State := { s with outFmt := x }
def State.setStatus (s : State) (x : Status) : State := { s with status := x }
def State.setFinfo (s : State) (x : Word) : State := { s with finfo := x }
def State.setIb (s : State) (x : Memory) : State := { s with ib := x }
def State.setOb (s : State) (x : Memory) : State := { s with ob := x }
def State.setPending (s : State) (x : List HostAction) : State := { s with pending := x }
def State.setHostData (s : State) (x : Word) : State := { s with hostData := x }

/-! ## Taking a fault -/

/-- FCODE of a fault (60_exceptions.md rule R251). -/
def BlockFault.code : BlockFault → BitVec 4
  | .illegalCommand _ => 1
  | .unwrittenRegister _ => 2
  | .alignFault _ => 3
  | .boundsFaultIB _ => 4
  | .boundsFaultOB _ => 5

/-- FINFO of a fault (rule R251). -/
def BlockFault.info : BlockFault → Word
  | .illegalCommand w => w.setWidth 64
  | .unwrittenRegister r => r.code.setWidth 64
  | .alignFault cursor => cursor
  | .boundsFaultIB cursor => cursor
  | .boundsFaultOB cursor => cursor

/-- `raise F(info)`: FAULT, FCODE and FINFO are recorded and nothing else changes (rule R252). From then on the block is
halted (rule R253). No return from a fault exists but reset (rule R259). -/
def State.raise (s : State) (f : BlockFault) : State :=
  (s.setStatus { s.status with fault := true, fcode := f.code }).setFinfo f.info

/-- The halted condition, exactly STATUS.FAULT = 1 (rules R41 and R253). -/
def State.halted (s : State) : Bool := s.status.fault

/-- A command that started in `s` ends: with its effects, or with the fault it raised and nothing else changed
(rules R252 and R255). -/
def finish (s : State) (r : Except BlockFault State) : Host.Outcome State Fault Refusal :=
  match r with
  | .ok t => .next t
  | .error f => .next (s.raise f)

/-! ## The reset event -/

/-- Reset of a block in operation: every piece of block state to its reset value, the buffers and what belongs to the host
left alone (70_reset_and_hazards.md rules R280 to R282; log 11). -/
def State.platformReset (s : State) : State :=
  { State.reset with
    regs := SampleRegs.afterReset (s.resets + 1)
    ib := s.ib
    ob := s.ob
    pending := s.pending
    hostData := s.hostData
    resets := s.resets + 1 }

end Sys2Proof.Machine
end

