-- ==== Sys2Proof/Machine/Operands.lean ====
section
/-! DEFINITION. Operand forms: bit fields and extensions (00_scope.md rules R10 to R12), the source register with its
written check, the properties of an encoding (30_encoding.md rules R81 and R84), the resolution of an endian code, the
span check of a buffer access (20_memory.md rule R65) and the chunk order of a sample (42_pack_unpack.md rule R150). -/

namespace Sys2Proof.Machine

/-! ## Fields and extensions -/

/-- The low `d` bits of a register, as an unsigned number: `uval_d(x[d-1:0])` (rule R12). -/
def uval (d : Nat) (x : Word) : Nat := x.toNat % 2 ^ d

/-- The two's-complement value of a `d`-bit field: `v - 2^d * v[d-1]` (rule R12). -/
def svalNat (d v : Nat) : Int := if v.testBit (d - 1) then (v : Int) - 2 ^ d else (v : Int)

/-- The signed value of the low `d` bits of a register: `sval_d(x[d-1:0])` (rule R12). -/
def sval (d : Nat) (x : Word) : Int := svalNat d (uval d x)

/-- `x[hi:lo]` as an unsigned number (rule R10). -/
def bitField (x hi lo : Nat) : Nat := x / 2 ^ lo % 2 ^ (hi - lo + 1)

/-- `zext_64` (rule R12). -/
def zext64 (v : Nat) : Word := BitVec.ofNat 64 v

/-- `r mod 2^64`: a signed result in its canonical sign-extended form (10_state.md rule R22). -/
def ofSigned (r : Int) : Word := BitVec.ofInt 64 r

/-! ## The source register -/

/-- A command reads `V[r]`: an unwritten register raises `UnwrittenRegister(r)` and gives no value (10_state.md
rule R21). -/
def readSource (s : State) (r : VReg) : Except BlockFault Word :=
  if s.vw r then .ok (s.v r) else .error (.unwrittenRegister r)

/-! ## Encodings -/

/-- `kind(e)` of 43_convert.md. -/
inductive NumKind where
  | sint
  | uint
  | f32
  | f64
  deriving DecidableEq, Repr

/-- Which cursor primitives move a sample (30_encoding.md rule R84). -/
inductive FormatClass where
  | aligned
  | packed
  deriving DecidableEq, Repr

/-- The depth column D of rule R81. -/
def depthOf : Encoding → Nat
  | .s8 | .u8 => 8
  | .s16 | .u16 => 16
  | .s18 | .u18 | .s18_3 | .u18_3 | .s18_4 | .u18_4 => 18
  | .s20 | .u20 | .s20_3 | .u20_3 | .s20_4 | .u20_4 => 20
  | .s24 | .u24 | .s24_4 | .u24_4 => 24
  | .s32 | .u32 | .f32 => 32
  | .s64 | .u64 | .f64 => 64

/-- The width column W of rule R81. -/
def widthOf : Encoding → Nat
  | .s8 | .u8 => 8
  | .s16 | .u16 => 16
  | .s18 | .u18 => 18
  | .s20 | .u20 => 20
  | .s18_3 | .u18_3 | .s20_3 | .u20_3 | .s24 | .u24 => 24
  | .s18_4 | .u18_4 | .s20_4 | .u20_4 | .s24_4 | .u24_4 | .s32 | .u32 | .f32 => 32
  | .s64 | .u64 | .f64 => 64

/-- The signed and kind columns of rule R81. -/
def kindOf : Encoding → NumKind
  | .s8 | .s16 | .s18 | .s18_3 | .s18_4 | .s20 | .s20_3 | .s20_4 | .s24 | .s24_4 | .s32 | .s64 => .sint
  | .u8 | .u16 | .u18 | .u18_3 | .u18_4 | .u20 | .u20_3 | .u20_4 | .u24 | .u24_4 | .u32 | .u64 => .uint
  | .f32 => .f32
  | .f64 => .f64

/-- The class column of rule R81 (rule R84). -/
def classOf : Encoding → FormatClass
  | .s18 | .u18 | .s20 | .u20 | .s24 | .u24 => .packed
  | .s8 | .u8 | .s16 | .u16 | .s18_3 | .u18_3 | .s18_4 | .u18_4 | .s20_3 | .u20_3 | .s20_4 | .u20_4 | .s24_4 | .u24_4
  | .s32 | .u32 | .s64 | .u64 | .f32 | .f64 => .aligned

/-- `Extend(enc, x)`: mask to depth and extend, which is the canonical form of 10_state.md rule R22 (42_pack_unpack.md
rule R156). -/
def extend (e : Encoding) (x : Nat) : Word :=
  let y := x % 2 ^ depthOf e
  match kindOf e with
  | .sint => ofSigned (svalNat (depthOf e) y)
  | .uint => zext64 y
  | .f32 => zext64 y
  | .f64 => zext64 y

/-- A register value in the canonical form of encoding `e` (10_state.md rule R22). -/
def canonical (e : Encoding) (x : Word) : Prop := extend e x.toNat = x

/-! ## Endians -/

/-- `resolve_endian` for a host of the given byte order (10_state.md rule R33). -/
def resolveEndianAt (host : ByteOrder) : EndianCode → ByteOrder
  | .native => host
  | .big => .big
  | .little => .little

/-- `resolve_endian`, Native going to HOST_ENDIAN (10_state.md rule R33, 42_pack_unpack.md rule R151). -/
def resolveEndian (e : EndianCode) : ByteOrder := resolveEndianAt Config.hostEndian e

/-! ## Spans -/

/-- Some byte of the span of `len ≥ 1` bits at bit offset `b` lies at or past `bytes` (20_memory.md rule R65). -/
def spanLeaves (b len bytes : Nat) : Bool := decide (bytes ≤ (b + len - 1) / 8)

/-! ## Chunks -/

/-- A chunk of a container value: bits `hi` down to `lo` (42_pack_unpack.md rule R150). -/
structure Chunk where
  hi : Nat
  lo : Nat
  deriving DecidableEq, Repr

/-- How many bits a chunk moves. -/
def Chunk.len (c : Chunk) : Nat := c.hi - c.lo + 1

/-- The full octets of a `w`-bit container, octet 0 first (rule R150). -/
def octets (w : Nat) : List Chunk := (List.range (w / 8)).map (fun j => ⟨8 * j + 7, 8 * j⟩)

/-- The partial chunk: the top `w mod 8` bits, if any (rule R150). -/
def partialChunk (w : Nat) : List Chunk := if w % 8 = 0 then [] else [⟨w - 1, w - w % 8⟩]

/-- `ChunkList(w, e)` (rule R150). -/
def chunkList (w : Nat) : ByteOrder → List Chunk
  | .big => partialChunk w ++ (octets w).reverse
  | .little => octets w ++ partialChunk w

/-- Where on the wire bit `k` of a `w`-bit container lies, counted from the sample's first bit: `chunkList` in closed form,
for claims. Big is plain most-significant-first; Little reverses the full octets and keeps the partial chunk at the end
(42_pack_unpack.md rules R150 and R163). It is its own inverse. -/
def wireOffset (w : Nat) : ByteOrder → Nat → Nat
  | .big, k => w - 1 - k
  | .little, k => if k < 8 * (w / 8) then 8 * (k / 8) + (7 - k % 8) else 8 * (w / 8) + (w - 1 - k)

/-- The number whose bit `k`, for `k < w`, is `bit k`. -/
def numberOfBits (bit : Nat → Bool) : Nat → Nat
  | 0 => 0
  | w + 1 => numberOfBits bit w + (if bit w then 2 ^ w else 0)

/-- The value of the sample in format `f` that lies at bit offset `b` of a buffer, read bit by bit from the wire: for claims.
`unpackSample` reads it octet by octet (42_pack_unpack.md rules R150, R155 and R156, 20_memory.md rule R62). -/
def sampleIn (f : WireFormat) (m : Memory) (b : Nat) : Word :=
  extend f.enc
    (numberOfBits (fun k => m.bit (b + wireOffset (widthOf f.enc) (resolveEndian f.endian) k)) (widthOf f.enc))

end Sys2Proof.Machine
end

