-- ==== Sys2Proof/Machine/FloatFormat.lean ====
section
/-! DEFINITION. IEEE 754 binary32 and binary64 as exact numbers: `f32`, `f64`, `bits32`, `bits64`, `rnd32` and `rnd64` of
00_scope.md rule R15. The bit layout of the two formats is IEEE 754's (log 14). -/

namespace Sys2Proof.Machine

/-- An interchange format: the widths of its exponent and fraction fields. -/
structure FloatFormat where
  expBits  : Nat
  fracBits : Nat
  deriving DecidableEq, Repr

/-- IEEE 754 binary32. -/
def binary32 : FloatFormat := ⟨8, 23⟩

/-- IEEE 754 binary64. -/
def binary64 : FloatFormat := ⟨11, 52⟩

/-- The largest exponent field, that of the infinities and NaNs. -/
def FloatFormat.expMax (f : FloatFormat) : Nat := 2 ^ f.expBits - 1

/-- The power of two that the last fraction bit of a subnormal weighs. -/
def FloatFormat.minExp (f : FloatFormat) : Int := 2 - 2 ^ (f.expBits - 1) - f.fracBits

/-- A float as a number: `finite neg m e` is `m * 2^e`, negated if `neg`. -/
inductive FloatVal where
  | nan
  | inf (neg : Bool)
  | finite (neg : Bool) (mant : Nat) (exp : Int)
  deriving DecidableEq, Repr

/-- The rational number of a finite float; an infinity or a NaN has none, and 0 stands for it. For claims. -/
def FloatVal.toRat : FloatVal → ℚ
  | .nan => 0
  | .inf _ => 0
  | .finite neg m e => (if neg then -1 else 1) * ((m : ℚ) * (2 : ℚ) ^ e)

/-- The float is a finite number. -/
def FloatVal.isFinite : FloatVal → Bool
  | .nan => false
  | .inf _ => false
  | .finite _ _ _ => true

/-- The value whose encoding is the low bits of `b`: `f32(b)` and `f64(b)` of rule R15. -/
def FloatFormat.value (f : FloatFormat) (b : Nat) : FloatVal :=
  let frac := b % 2 ^ f.fracBits
  let expo := b / 2 ^ f.fracBits % 2 ^ f.expBits
  let neg := b.testBit (f.expBits + f.fracBits)
  if expo = f.expMax then (if frac = 0 then .inf neg else .nan)
  else if expo = 0 then .finite neg frac f.minExp
  else .finite neg (2 ^ f.fracBits + frac) (f.minExp + (expo - 1 : Nat))

/-- A sign bit above a magnitude pattern. -/
def FloatFormat.withSign (f : FloatFormat) (neg : Bool) (mag : Nat) : Nat :=
  (if neg then 2 ^ (f.expBits + f.fracBits) else 0) + mag

/-- The pattern of an infinity without its sign. -/
def FloatFormat.infMag (f : FloatFormat) : Nat := f.expMax * 2 ^ f.fracBits

/-- `m / 2^k` rounded to the nearest integer, ties to even. -/
def roundHalfEven (m k : Nat) : Nat :=
  let q := m / 2 ^ k
  let r := m % 2 ^ k
  if 2 ^ k < 2 * r ∨ (2 * r = 2 ^ k ∧ q % 2 = 1) then q + 1 else q

/-- `m * 2^e` in units of `2^u`, rounded to the nearest integer, ties to even. -/
def roundToUnit (m : Nat) (e u : Int) : Nat :=
  if u ≤ e then m * 2 ^ (e - u).toNat else roundHalfEven m (u - e).toNat

/-- The power of two of the last place that `m * 2^e` is rounded to: its own precision, or the subnormals' fixed one. -/
def FloatFormat.lastPlace (f : FloatFormat) (m : Nat) (e : Int) : Int :=
  max f.minExp (e + (Nat.log2 m : Int) - f.fracBits)

/-- The magnitude pattern of `m * 2^e` rounded to nearest, ties to even, with gradual underflow and with overflow to
infinity (rule R15). A significand that rounds up to the next power of two carries into the exponent field. -/
def FloatFormat.roundMag (f : FloatFormat) (m : Nat) (e : Int) : Nat :=
  if m = 0 then 0
  else
    let u := f.lastPlace m e
    min ((u - f.minExp).toNat * 2 ^ f.fracBits + roundToUnit m e u) f.infMag

/-- `bits(rnd(x))` for a finite number `x`, its sign kept (rule R15). -/
def FloatFormat.round (f : FloatFormat) (neg : Bool) (m : Nat) (e : Int) : Nat :=
  f.withSign neg (f.roundMag m e)

/-- The magnitude from which on a number rounds to infinity: half a last place past the largest finite float. For claims. -/
def FloatFormat.overflow (f : FloatFormat) : ℚ :=
  ((2 : ℚ) ^ (f.fracBits + 1) - 1 / 2) * (2 : ℚ) ^ (f.minExp + (2 ^ f.expBits - 3))

/-- The pattern `b` is `bits(rnd(x))` of format `f` (00_scope.md rule R15): round to nearest, ties to even, gradual underflow,
overflow to infinity, said over all patterns of the format and not by the way `FloatFormat.round` computes it. The sign of a
zero is not said here, since a real number has none. For claims. -/
structure FloatFormat.Rounds (f : FloatFormat) (x : ℚ) (b : Nat) : Prop where
  /-- positive overflow -/
  overflowPos : f.overflow ≤ x → f.value b = .inf false
  /-- negative overflow -/
  overflowNeg : x ≤ -f.overflow → f.value b = .inf true
  /-- every other number rounds to a finite one -/
  finite : |x| < f.overflow → (f.value b).isFinite = true
  /-- no finite float is nearer -/
  nearest : |x| < f.overflow → ∀ c, (f.value c).isFinite = true → |(f.value b).toRat - x| ≤ |(f.value c).toRat - x|
  /-- where another one is as near, the last bit is 0 -/
  tiesToEven : |x| < f.overflow → ∀ c, (f.value c).isFinite = true → (f.value c).toRat ≠ (f.value b).toRat →
    |(f.value c).toRat - x| = |(f.value b).toRat - x| → b % 2 = 0

/-- `trunc(x)`: toward zero (00_scope.md rule R11). For claims. -/
def truncRat (x : ℚ) : Int := if 0 ≤ x then ⌊x⌋ else ⌈x⌉

/-- The integer part of `m * 2^e`. -/
def floorScale (m : Nat) (e : Int) : Nat :=
  if 0 ≤ e then m * 2 ^ e.toNat else m / 2 ^ (-e).toNat

end Sys2Proof.Machine
end

