-- ==== Sys2Proof/Machine/SignConverter.lean ====
section
/-! DEFINITION. The sign converter: its two functions (41_sign_converter.md rules R141 and R142) and the commands S2U and U2S
(rules R143 and R144). -/

namespace Sys2Proof.Machine

/-- `M_D = 2^(D-1) - 1`, the maximum signed value (rule R140). -/
def maxSigned (d : Nat) : Int := 2 ^ (d - 1) - 1

/-- `min_D = -2^(D-1)` (43_convert.md). -/
def minSigned (d : Nat) : Int := -2 ^ (d - 1)

/-- `ToUnsigned_D(s) = (s + M_D + 1) mod 2^D` (rule R141). -/
def toUnsigned (d : Nat) (s : Int) : Nat := ((s + maxSigned d + 1) % 2 ^ d).toNat

/-- `ToSigned_D(u) = u - M_D - 1` (rule R142). -/
def toSigned (d : Nat) (u : Nat) : Int := (u : Int) - maxSigned d - 1

/-- S2U D, rd, rs (rule R143). -/
def execS2u (depth : Nat) (rd rs : VReg) (s : State) : Host.Outcome State Fault Refusal :=
  finish s
    (match readSource s rs with
     | .error f => .error f
     | .ok v => .ok (s.writeV rd (zext64 (toUnsigned depth (sval depth v)))))

/-- U2S D, rd, rs (rule R144). -/
def execU2s (depth : Nat) (rd rs : VReg) (s : State) : Host.Outcome State Fault Refusal :=
  finish s
    (match readSource s rs with
     | .error f => .error f
     | .ok v => .ok (s.writeV rd (ofSigned (toSigned depth (uval depth v)))))

end Sys2Proof.Machine
end

