-- ==== Sys2Proof/Machine/Converter.lean ====
section
/-! DEFINITION. The encoding converter: `Convert` (43_convert.md rules R181 to R191) and the command CVT (rule R180). -/

namespace Sys2Proof.Machine

/-! ## Integer rescaler -/

/-- `Sgn(src, v)`: the value in the signed domain of the source depth (rule R182). A float has none; the function is only
asked of integers. -/
def signedDomain (src : Encoding) (v : Word) : Int :=
  match kindOf src with
  | .uint => toSigned (depthOf src) (uval (depthOf src) v)
  | .sint => sval (depthOf src) v
  | .f32 => sval (depthOf src) v
  | .f64 => sval (depthOf src) v

/-- Widening (rule R183). -/
def widen (ds dd : Nat) (x : Int) : Int := x * 2 ^ (dd - ds)

/-- Narrowing: bias, exact arithmetic shift, clip at the positive end only (rule R184, 90_conflicts.md C5). -/
def narrow (ds dd : Nat) (x : Int) : Int :=
  min ((x + 2 ^ (ds - dd - 1)) / 2 ^ (ds - dd)) (maxSigned dd)

/-- `Rescale(Ds, Dd, s)` (rules R183 and R184). -/
def rescale (ds dd : Nat) (x : Int) : Int := if ds ≤ dd then widen ds dd x else narrow ds dd x

/-- A signed value of depth D as a register value of an integer encoding (rules R185 and R188). -/
def fromSigned (dst : Encoding) (r : Int) : Word :=
  match kindOf dst with
  | .uint => zext64 (toUnsigned (depthOf dst) r)
  | .sint => ofSigned r
  | .f32 => ofSigned r
  | .f64 => ofSigned r

/-- `IntToInt(src, dst, v)` (rule R185). -/
def intToInt (src dst : Encoding) (v : Word) : Word :=
  fromSigned dst (rescale (depthOf src) (depthOf dst) (signedDomain src v))

/-! ## Floats -/

/-- The float a register holds for a float encoding: binary64 for f64, else binary32 (rule R180). -/
def floatOf (e : Encoding) (v : Word) : FloatVal :=
  match kindOf e with
  | .f64 => binary64.value (uval 64 v)
  | .f32 => binary32.value (uval 32 v)
  | .sint => binary32.value (uval 32 v)
  | .uint => binary32.value (uval 32 v)

/-- The signed result of float to integer at depth D: `d = x * 2^(D-1)`, clipped to the range and truncated toward zero
(rule R187). `t` is the integer part of the magnitude of `d`, so that `d ≥ 2^(D-1)` is `2^(D-1) ≤ t` for a positive `d`,
and `d ≤ -2^(D-1)` is the same for a negative one. -/
def floatToSigned (d : Nat) : FloatVal → Int
  | .nan => (Config.nanToInt d).toInt
  | .inf neg => if neg then minSigned d else maxSigned d
  | .finite neg m e =>
    let t := floorScale m (e + (d - 1 : Nat))
    if neg then (if 2 ^ (d - 1) ≤ t then minSigned d else -(t : Int))
    else (if 2 ^ (d - 1) ≤ t then maxSigned d else (t : Int))

/-- `FloatToInt(src, dst, v)` (rules R187 and R188). -/
def floatToInt (src dst : Encoding) (v : Word) : Word :=
  fromSigned dst (floatToSigned (depthOf dst) (floatOf src v))

/-- The pattern of a NaN of format `f`: exponent all ones, fraction `frac + 1` (00_scope.md rule R8). -/
def nanBits (f : FloatFormat) (neg : Bool) (frac : Nat) : Nat := f.withSign neg (f.infMag + (frac + 1))

/-- `NAN_F64_TO_F32(b64)` (rule R8; log 6). -/
def nanNarrow (b : Word) : Nat := nanBits binary32 (Config.nanF64ToF32 b).1 (Config.nanF64ToF32 b).2.val

/-- `NAN_F32_TO_F64(b32)` (rule R8; log 6). -/
def nanWiden (b : BitVec 32) : Nat := nanBits binary64 (Config.nanF32ToF64 b).1 (Config.nanF32ToF64 b).2.val

/-- `bits32(rnd32(x))` of a float that is no NaN; a NaN is the caller's (rules R189 and R190). -/
def toBinary32 : FloatVal → Nat
  | .nan => 0
  | .inf neg => binary32.withSign neg binary32.infMag
  | .finite neg m e => binary32.round neg m e

/-- `bits64(x)` of a float that is no NaN; a NaN is the caller's (rules R189 and R190). -/
def toBinary64 : FloatVal → Nat
  | .nan => 0
  | .inf neg => binary64.withSign neg binary64.infMag
  | .finite neg m e => binary64.round neg m e

/-- A finite float times `2^k`, exactly. -/
def FloatVal.scale (k : Int) : FloatVal → FloatVal
  | .nan => .nan
  | .inf neg => .inf neg
  | .finite neg m e => .finite neg m (e + k)

/-- `rnd64(s)` of an integer, as the float it gives (rule R189; log 15). -/
def intRound64 (x : Int) : FloatVal := binary64.value (binary64.round (decide (x < 0)) x.natAbs 0)

/-- `IntToFloat(src, dst, v)`: the two roundings of rule R189. -/
def intToFloat (src dst : Encoding) (v : Word) : Word :=
  let y := (intRound64 (signedDomain src v)).scale (-(depthOf src - 1 : Nat))
  match kindOf dst with
  | .f64 => zext64 (toBinary64 y)
  | .f32 => zext64 (toBinary32 y)
  | .sint => zext64 (toBinary32 y)
  | .uint => zext64 (toBinary32 y)

/-- `FloatToFloat(src, dst, v)` for two different float encodings (rule R190). -/
def floatToFloat (src : Encoding) (v : Word) : Word :=
  match kindOf src with
  | .f64 =>
    match binary64.value (uval 64 v) with
    | .nan => zext64 (nanNarrow v)
    | x => zext64 (toBinary32 x)
  | _ =>
    match binary32.value (uval 32 v) with
    | .nan => zext64 (nanWiden (v.setWidth 32))
    | x => zext64 (toBinary64 x)

/-! ## Dispatch over the kinds -/

/-- An encoding code of rule R81 that names an integer. -/
def isInteger (e : Encoding) : Bool :=
  match kindOf e with
  | .sint => true
  | .uint => true
  | .f32 => false
  | .f64 => false

/-- `Convert(src, dst, v)` (rule R181). -/
def convert (src dst : Encoding) (v : Word) : Word :=
  if isInteger src && isInteger dst then intToInt src dst v
  else if !isInteger src && isInteger dst then floatToInt src dst v
  else if isInteger src && !isInteger dst then intToFloat src dst v
  else if src = dst then zext64 (uval (depthOf src) v)
  else floatToFloat src v

/-! ## Command -/

/-- CVT src, dst, rd, rs (rule R180). -/
def execCvt (src dst : Encoding) (rd rs : VReg) (s : State) : Host.Outcome State Fault Refusal :=
  finish s
    (match readSource s rs with
     | .error f => .error f
     | .ok v => .ok (s.writeV rd (convert src dst v)))

end Sys2Proof.Machine
end

