-- ==== Sys2Proof/Machine/Flags.lean ====
section
/-! DEFINITION. STATUS as the host reads it, and every computation of its bits (10_state.md rules R27 and R42): RSLV and
BATCH set RESOLVED and CFG_ERR (44_dispatch.md rules R220 and R223), a write of a format register clears RESOLVED (10_state.md
rule R26), and a fault sets FAULT and FCODE (`State.raise`). No conversion sets a flag (43_convert.md rule R192). -/

namespace Sys2Proof.Machine

/-- One bit, for placing flags. -/
def bit1 (b : Bool) : BitVec 1 := BitVec.ofBool b

/-- The 64-bit value of STATUS; bits 3 and 63:8 read 0 (rule R27). -/
def Status.word (t : Status) : Word :=
  0#56 ++ t.fcode ++ 0#1 ++ bit1 t.cfgErr ++ bit1 t.resolved ++ bit1 t.fault

/-- `STATUS.RESOLVED <- ok ; STATUS.CFG_ERR <- not ok` (44_dispatch.md rule R220). -/
def recordResolve (s : State) (ok : Bool) : State := s.setStatus { s.status with resolved := ok, cfgErr := !ok }

/-- The check of `Resolve()`: both format registers hold a valid format (rule R220; log 13). -/
def resolveOk (s : State) : Bool :=
  (WireFormat.ofCode? s.inFmt).isSome && (WireFormat.ofCode? s.outFmt).isSome

/-- `Resolve()`, which changes nothing besides the two STATUS bits (rule R220). -/
def resolve (s : State) : State := recordResolve s (resolveOk s)

/-- A write to IN_FMT or OUT_FMT clears RESOLVED and leaves CFG_ERR (10_state.md rule R26, 44_dispatch.md rule R221). -/
def clearResolved (s : State) : State := s.setStatus { s.status with resolved := false }

end Sys2Proof.Machine
end

