-- ==== Sys2Proof/Machine/BitCursor.lean ====
section
/-! DEFINITION. The bit cursor: its four primitives (40_bit_cursor.md rules R120 to R123) and the commands ARD, AWR, URD and
UWR (rules R124 to R127). -/

namespace Sys2Proof.Machine

/-! ## Primitives -/

/-- `AlignedRead()`: one octet of IB at IBO, which advances by 8 (rule R120). -/
def alignedRead (s : State) : Except BlockFault (Nat × State) :=
  let b := s.ibo.toNat
  if b % 8 ≠ 0 then .error (.alignFault s.ibo)
  else if s.ibLen.toNat ≤ b / 8 then .error (.boundsFaultIB s.ibo)
  else .ok ((s.ib.read (b / 8)).toNat, s.setIbo (s.ibo + 8#64))

/-- `AlignedWrite(o)`: the low octet of `o` replaces the byte of OB at OBO, which advances by 8 (rule R121). -/
def alignedWrite (o : Nat) (s : State) : Except BlockFault State :=
  let b := s.obo.toNat
  if b % 8 ≠ 0 then .error (.alignFault s.obo)
  else if s.obLen.toNat ≤ b / 8 then .error (.boundsFaultOB s.obo)
  else .ok ((s.setOb (s.ob.write (b / 8) (BitVec.ofNat 8 o))).setObo (s.obo + 8#64))

/-- `UnalignedRead(len)`: the field of `len` bits of IB at IBO, which advances by `len` (rule R122). -/
def unalignedRead (len : Nat) (s : State) : Except BlockFault (Nat × State) :=
  if len = 0 then .ok (0, s)
  else
    let b := s.ibo.toNat
    let a := b / 8
    let i := b % 8
    let cross := decide (8 < i + len)
    if s.ibLen.toNat ≤ a ∨ (cross = true ∧ s.ibLen.toNat ≤ a + 1) then .error (.boundsFaultIB s.ibo)
    else
      let hi := (s.ib.read a).toNat
      let lo := if cross then (s.ib.read (a + 1)).toNat else 0
      let w := hi * 256 + lo
      .ok (bitField w (15 - i) (16 - i - len), s.setIbo (s.ibo + BitVec.ofNat 64 len))

/-- `UnalignedWrite(len, v)`: the low `len` bits of `v` go to OB at OBO, which advances by `len`. The byte entered at its bit
0 is cleared first, a byte entered elsewhere is ORed into, and a spill byte is assigned whole (rule R123, 90_conflicts.md
C1). -/
def unalignedWrite (len v : Nat) (s : State) : Except BlockFault State :=
  if len = 0 then .ok s
  else
    let x := v % 2 ^ len
    let b := s.obo.toNat
    let a := b / 8
    let i := b % 8
    let cross := decide (8 < i + len)
    if s.obLen.toNat ≤ a ∨ (cross = true ∧ s.obLen.toNat ≤ a + 1) then .error (.boundsFaultOB s.obo)
    else
      let w := x * 2 ^ (16 - i - len)
      let old := if i = 0 then 0#8 else s.ob.read a
      let ob1 := s.ob.write a (old ||| BitVec.ofNat 8 (w / 256))
      let ob2 := if cross then ob1.write (a + 1) (BitVec.ofNat 8 (w % 256)) else ob1
      .ok ((s.setOb ob2).setObo (s.obo + BitVec.ofNat 64 len))

/-! ## Commands -/

/-- ARD rd (rule R124). -/
def execArd (rd : VReg) (s : State) : Host.Outcome State Fault Refusal :=
  finish s
    (match alignedRead s with
     | .error f => .error f
     | .ok (o, t) => .ok (t.writeV rd (zext64 o)))

/-- AWR rs (rule R125). -/
def execAwr (rs : VReg) (s : State) : Host.Outcome State Fault Refusal :=
  finish s
    (match readSource s rs with
     | .error f => .error f
     | .ok v => alignedWrite v.toNat s)

/-- URD len, rd (rule R126). -/
def execUrd (len : Nat) (rd : VReg) (s : State) : Host.Outcome State Fault Refusal :=
  finish s
    (match unalignedRead len s with
     | .error f => .error f
     | .ok (v, t) => .ok (t.writeV rd (zext64 v)))

/-- UWR len, rs (rule R127). -/
def execUwr (len : Nat) (rs : VReg) (s : State) : Host.Outcome State Fault Refusal :=
  finish s
    (match readSource s rs with
     | .error f => .error f
     | .ok v => unalignedWrite len v.toNat s)

end Sys2Proof.Machine
end

