-- ==== Sys2Proof/Machine/Packer.lean ====
section
/-! DEFINITION. The endian swapper and the sample packer/unpacker: `Pack` and `Unpack` (42_pack_unpack.md rules R150 to R157)
and the commands UNPK and PACK (rules R158 and R159). -/

namespace Sys2Proof.Machine

/-! ## One sample -/

/-- One chunk to OB, by the primitive of the class (rule R153). -/
def moveOut (cls : FormatClass) (len v : Nat) (s : State) : Except BlockFault State :=
  match cls with
  | .aligned => alignedWrite v s
  | .packed => unalignedWrite len v s

/-- One chunk from IB, by the primitive of the class (rule R155). -/
def moveIn (cls : FormatClass) (len : Nat) (s : State) : Except BlockFault (Nat × State) :=
  match cls with
  | .aligned => alignedRead s
  | .packed => unalignedRead len s

/-- The loop of `Pack` over a chunk list (rule R153). -/
def packChunks (cls : FormatClass) (x : Nat) : List Chunk → State → Except BlockFault State
  | [], s => .ok s
  | c :: rest, s =>
    match moveOut cls c.len (bitField x c.hi c.lo) s with
    | .error f => .error f
    | .ok t => packChunks cls x rest t

/-- The loop of `Unpack` over a chunk list, `x` being the container so far (rule R155). -/
def unpackChunks (cls : FormatClass) : List Chunk → Nat → State → Except BlockFault (Nat × State)
  | [], x, s => .ok (x, s)
  | c :: rest, x, s =>
    match moveIn cls c.len s with
    | .error f => .error f
    | .ok (v, t) => unpackChunks cls rest (x ||| v * 2 ^ c.lo) t

/-- An aligned-class format at a cursor that is no multiple of 8 (rules R153 and R155). -/
def misaligned (e : Encoding) (cursor : Word) : Bool :=
  decide (classOf e = .aligned) && decide (cursor.toNat % 8 ≠ 0)

/-- `Pack(fmt, v)` (rules R152 to R154). -/
def packSample (f : WireFormat) (v : Word) (s : State) : Except BlockFault State :=
  if misaligned f.enc s.obo then .error (.alignFault s.obo)
  else if spanLeaves s.obo.toNat (widthOf f.enc) s.obLen.toNat then .error (.boundsFaultOB s.obo)
  else
    packChunks (classOf f.enc) (uval (depthOf f.enc) v) (chunkList (widthOf f.enc) (resolveEndian f.endian)) s

/-- `Unpack(fmt)` (rules R155 to R157). -/
def unpackSample (f : WireFormat) (s : State) : Except BlockFault (Word × State) :=
  if misaligned f.enc s.ibo then .error (.alignFault s.ibo)
  else if spanLeaves s.ibo.toNat (widthOf f.enc) s.ibLen.toNat then .error (.boundsFaultIB s.ibo)
  else
    match unpackChunks (classOf f.enc) (chunkList (widthOf f.enc) (resolveEndian f.endian)) 0 s with
    | .error g => .error g
    | .ok (x, t) => .ok (extend f.enc x, t)

/-! ## Commands -/

/-- UNPK fmt, rd (rule R158). -/
def execUnpk (f : WireFormat) (rd : VReg) (s : State) : Host.Outcome State Fault Refusal :=
  finish s
    (match unpackSample f s with
     | .error g => .error g
     | .ok (v, t) => .ok (t.writeV rd v))

/-- PACK fmt, rs (rule R159). -/
def execPack (f : WireFormat) (rs : VReg) (s : State) : Host.Outcome State Fault Refusal :=
  finish s
    (match readSource s rs with
     | .error g => .error g
     | .ok v => packSample f v s)

end Sys2Proof.Machine
end

