-- ==== Sys2Proof/Machine/Dispatcher.lean ====
section
/-! DEFINITION. The mapper dispatcher: the commands RSLV and BATCH (44_dispatch.md rules R220 to R234). -/

namespace Sys2Proof.Machine

/-- `BatchStep()` for the formats in IN_FMT and OUT_FMT: both spans are checked before any access (rule R225). -/
def batchStep (fi fo : WireFormat) (s : State) : Except BlockFault State :=
  if spanLeaves s.ibo.toNat (widthOf fi.enc) s.ibLen.toNat then .error (.boundsFaultIB s.ibo)
  else if spanLeaves s.obo.toNat (widthOf fo.enc) s.obLen.toNat then .error (.boundsFaultOB s.obo)
  else
    match unpackSample fi s with
    | .error f => .error f
    | .ok (v, t) => packSample fo (convert fi.enc fo.enc v) t

/-- The loop of BATCH: the given number of sample steps, CNT counting the completed ones. A step that raises leaves the state
after the last completed sample, with the fault recorded (rules R224, R227 and R232). -/
def batchLoop (fi fo : WireFormat) : Nat → State → State
  | 0, s => s
  | k + 1, s =>
    match batchStep fi fo s with
    | .error f => s.raise f
    | .ok t => batchLoop fi fo k (t.setCnt (t.cnt + 1#32))

/-- `IBO <- 0 ; OBO <- 0 ; CNT <- 0` (rules R222 and R228). -/
def batchStart (s : State) : State := ((s.setIbo 0).setObo 0).setCnt 0

/-- RSLV (rule R221). -/
def execRslv (s : State) : Host.Outcome State Fault Refusal := .next (resolve s)

/-- BATCH (rule R222). With an Invalid format it only records CFG_ERR (rule R223). -/
def execBatch (s : State) : Host.Outcome State Fault Refusal :=
  match WireFormat.ofCode? s.inFmt, WireFormat.ofCode? s.outFmt with
  | some fi, some fo => .next (batchLoop fi fo s.n.toNat (batchStart (resolve s)))
  | _, _ => .next (resolve s)

end Sys2Proof.Machine
end

