-- ==== Sys2Proof/Machine/Dispatch.lean ====
section
/-! DEFINITION. The dispatch of a decoded command to its meaning: one arm per constructor of `Instr`. -/

namespace Sys2Proof.Machine

/-- Runs one command to completion (00_scope.md rules R4 and R16). -/
def exec (i : Instr) (s : State) : Host.Outcome State Fault Refusal :=
  match i with
  | .ard rd => Sys2Proof.Machine.execArd rd s
  | .awr rs => Sys2Proof.Machine.execAwr rs s
  | .urd len rd => Sys2Proof.Machine.execUrd len rd s
  | .uwr len rs => Sys2Proof.Machine.execUwr len rs s
  | .s2u depth rd rs => Sys2Proof.Machine.execS2u depth rd rs s
  | .u2s depth rd rs => Sys2Proof.Machine.execU2s depth rd rs s
  | .unpk fmt rd => Sys2Proof.Machine.execUnpk fmt rd s
  | .pack fmt rs => Sys2Proof.Machine.execPack fmt rs s
  | .cvt src dst rd rs => Sys2Proof.Machine.execCvt src dst rd rs s
  | .rslv => Sys2Proof.Machine.execRslv s
  | .batch => Sys2Proof.Machine.execBatch s

end Sys2Proof.Machine
end

