-- ==== Sys2Proof/Machine/HostPort.lean ====
section
/-! DEFINITION. The host's side of the block: the traits of a format (10_state.md rules R30 to R38) and the register map with
its reads and writes (rules R39 and R40). -/

namespace Sys2Proof.Machine

/-! ## Traits -/

/-- The Traits record of rule R30; an alias that does not exist is Invalid, here `none` (rule R36). -/
structure Traits where
  isValid       : Bool
  isInteger     : Bool
  isSigned      : Bool
  isLittle      : Bool
  isNative      : Bool
  bitDepth      : Nat
  bitWidth      : Nat
  nativeAlias   : Option WireFormat
  portableAlias : Option WireFormat
  deriving DecidableEq, Repr

/-- The endian code that names a resolved byte order explicitly (rule R37). -/
def explicitEndian : ByteOrder → EndianCode
  | .big => .big
  | .little => .little

/-- `is_integer` by kind (rule R32). -/
def kindIsInteger : NumKind → Bool
  | .sint => true
  | .uint => true
  | .f32 => false
  | .f64 => false

/-- `is_signed` by kind; floats count as signed (rule R32). -/
def kindIsSigned : NumKind → Bool
  | .sint => true
  | .uint => false
  | .f32 => true
  | .f64 => true

/-- The traits of a format, or of Invalid, on a host of the given byte order (rules R31 to R38). -/
def traitsAt (host : ByteOrder) : Option WireFormat → Traits
  | none => ⟨false, false, false, false, false, 0, 0, none, none⟩
  | some f =>
    let e := resolveEndianAt host f.endian
    { isValid := true
      isInteger := kindIsInteger (kindOf f.enc)
      isSigned := kindIsSigned (kindOf f.enc)
      isLittle := decide (e = .little)
      isNative := decide (e = host)
      bitDepth := depthOf f.enc
      bitWidth := widthOf f.enc
      nativeAlias := if e = host then some ⟨f.enc, .native⟩ else none
      portableAlias := some ⟨f.enc, explicitEndian e⟩ }

/-- The 7-bit code of a format or of Invalid (30_encoding.md rule R83). -/
def formatCode : Option WireFormat → BitVec 7
  | none => 0
  | some f => f.code

/-- The layout of the TRAITS registers (rule R30). -/
def Traits.word (t : Traits) : Word :=
  0#25 ++ formatCode t.portableAlias ++ 0#1 ++ formatCode t.nativeAlias ++ BitVec.ofNat 8 t.bitWidth ++
    BitVec.ofNat 8 t.bitDepth ++ 0#3 ++ bit1 t.isNative ++ bit1 t.isLittle ++ bit1 t.isSigned ++ bit1 t.isInteger ++
    bit1 t.isValid

/-- `traits(f)` of a format code on a host of the given byte order (rules R30 and R38). -/
def traitsWordAt (host : ByteOrder) (c : BitVec 7) : Word := (traitsAt host (WireFormat.ofCode? c)).word

/-- TRAITS_IN and TRAITS_OUT: `traits` of a format code (rule R30). -/
def traitsWord (c : BitVec 7) : Word := traitsWordAt Config.hostEndian c

/-! ## The register map -/

/-- The registers of rule R39, by name. -/
inductive HostReg where
  | cmd | status | finfo | inFmt | outFmt | n | cnt | ibo | obo | ibLen | obLen | traitsIn | traitsOut
  | v (r : VReg)
  /-- every other offset from 0x00 to 0xFF, a multiple of 8 or not -/
  | reserved
  deriving DecidableEq, Repr

/-- The register at a byte offset (rule R39). -/
def hostRegAt (offset : BitVec 8) : HostReg :=
  match offset.toNat with
  | 0x00 => .cmd
  | 0x08 => .status
  | 0x10 => .finfo
  | 0x18 => .inFmt
  | 0x20 => .outFmt
  | 0x28 => .n
  | 0x30 => .cnt
  | 0x38 => .ibo
  | 0x40 => .obo
  | 0x48 => .ibLen
  | 0x50 => .obLen
  | 0x58 => .traitsIn
  | 0x60 => .traitsOut
  | 0x80 => .v .v0
  | 0x88 => .v .v1
  | 0x90 => .v .v2
  | 0x98 => .v .v3
  | _ => .reserved

/-- What a host read of a register returns; bits above its used width read 0 (rules R29, R39 and R40). -/
def hostRead (s : State) : HostReg → Word
  | .cmd => 0
  | .status => s.status.word
  | .finfo => s.finfo
  | .inFmt => s.inFmt.setWidth 64
  | .outFmt => s.outFmt.setWidth 64
  | .n => s.n.setWidth 64
  | .cnt => s.cnt.setWidth 64
  | .ibo => s.ibo
  | .obo => s.obo
  | .ibLen => s.ibLen.setWidth 64
  | .obLen => s.obLen.setWidth 64
  | .traitsIn => traitsWord s.inFmt
  | .traitsOut => traitsWord s.outFmt
  | .v r => s.v r
  | .reserved => 0

/-- What a format register stores of a written value: its low seven bits if they are a valid format code, else 0
(rule R26). -/
def legalFormat (value : Word) : BitVec 7 := formatCode (WireFormat.ofCode? (value.setWidth 7))

/-- A host write of a register other than CMD; read-only and reserved registers ignore it, and bits above the used width
are ignored (rules R21, R26, R39 and R40). It is accepted whether or not the block is halted (rule R253). -/
def hostWrite (s : State) (value : Word) : HostReg → State
  | .cmd => s
  | .status => s
  | .finfo => s
  | .inFmt => clearResolved (s.setInFmt (legalFormat value))
  | .outFmt => clearResolved (s.setOutFmt (legalFormat value))
  | .n => s.setN (value.setWidth 32)
  | .cnt => s
  | .ibo => s.setIbo value
  | .obo => s.setObo value
  | .ibLen => s.setIbLen (value.setWidth 61)
  | .obLen => s.setObLen (value.setWidth 61)
  | .traitsIn => s
  | .traitsOut => s
  | .v r => s.writeV r value
  | .reserved => s

end Sys2Proof.Machine
end

