-- ==== Sys2Proof/Machine/CommandPort.lean ====
section
/-! DEFINITION. The CMD port and the effect of each host action (10_state.md rules R29 and R40, 60_exceptions.md rule R253,
70_reset_and_hazards.md rule R280). -/

namespace Sys2Proof.Machine

/-- A command word reaches the engine: an illegal one raises IllegalCommand, a legal one runs (30_encoding.md rules R92 to
R94). -/
def runCommand (w : Command) (s : State) : Host.Outcome State Fault Refusal :=
  match decode w with
  | .ok i => exec i s
  | .error _ => .next (s.raise (.illegalCommand w))

/-- A host write to CMD: ignored while the block is halted, else it issues the command in bits 31:0 (rules R29 and R253). -/
def writeCmd (value : Word) (s : State) : Host.Outcome State Fault Refusal :=
  if s.halted then .next s else runCommand (value.setWidth 32) s

/-- A host register write (rules R39 and R40). Every offset outside the map is reserved, one that is no multiple of 8 among
them, and ignores it (log 8). -/
def hostWriteAt (offset : BitVec 8) (value : Word) (s : State) : Host.Outcome State Fault Refusal :=
  match hostRegAt offset with
  | .cmd => writeCmd value s
  | r => .next (hostWrite s value r)

/-- A host register read, whose result goes to the host (rules R39 and R40; log 10). Every offset outside the map is reserved,
one that is no multiple of 8 among them, and reads 0 (log 8). -/
def hostReadAt (offset : BitVec 8) (s : State) : Host.Outcome State Fault Refusal :=
  .next (s.setHostData (hostRead s (hostRegAt offset)))

/-- One host action, performed to its end. -/
def perform (a : HostAction) (s : State) : Host.Outcome State Fault Refusal :=
  match a with
  | .writeReg offset value => hostWriteAt offset value s
  | .readReg offset => hostReadAt offset s
  | .writeIB index value => .next (s.setIb (s.ib.write index.toNat value))
  | .writeOB index value => .next (s.setOb (s.ob.write index.toNat value))
  | .reset => .next s.platformReset

/-- The host's next action, taken off its list; with none left the block stays idle (10_state.md rule R42,
60_exceptions.md rule R263; log 1 and log 2). -/
def nextAction (s : State) : Host.Outcome State Fault Refusal :=
  match s.pending with
  | [] => .next s
  | a :: rest => perform a (s.setPending rest)

/-- The host's next action becomes a CMD write of the low 32 bits of `w`. -/
def placeCommand (s : State) (w : Nat) : State :=
  s.setPending (.writeReg 0x00 ((BitVec.ofNat 32 w).setWidth 64) :: s.pending)

end Sys2Proof.Machine
end

