-- ==== Sys2Proof/Machine/Step.lean ====
section
/-! DEFINITION. One step of the machine, and the placing of a command where the next step takes it from. -/

namespace Sys2Proof.Machine

/-- One step: the host's next action, a command being run to completion (00_scope.md rule R16; log 1). -/
def step (s : State) : Host.Outcome State Fault Refusal := nextAction s

/-- `s` with the command of the low `nbits` bits of `w` as the host's next action, so that the next step issues it
(log 1). -/
def State.withFetchWord (s : State) (nbits w : Nat) : State := placeCommand s (w % 2 ^ nbits)

end Sys2Proof.Machine
end

