-- ==== Sys2Proof/Machine/Assembler.lean ====
section
/-! DEFINITION. The assembler syntax: the format names of 30_encoding.md rules R96 and R97 and the command syntax of rule R98.
A command's operands are given as the list of its comma-separated fields (log 16). -/

namespace Sys2Proof.Machine

/-- An encoding name (rule R97's Native column). -/
def encodingName : Encoding → String
  | .s8 => "s8"
  | .u8 => "u8"
  | .s16 => "s16"
  | .u16 => "u16"
  | .s18 => "s18"
  | .u18 => "u18"
  | .s18_3 => "s18_3"
  | .u18_3 => "u18_3"
  | .s18_4 => "s18_4"
  | .u18_4 => "u18_4"
  | .s20 => "s20"
  | .u20 => "u20"
  | .s20_3 => "s20_3"
  | .u20_3 => "u20_3"
  | .s20_4 => "s20_4"
  | .u20_4 => "u20_4"
  | .s24 => "s24"
  | .u24 => "u24"
  | .s24_4 => "s24_4"
  | .u24_4 => "u24_4"
  | .s32 => "s32"
  | .u32 => "u32"
  | .s64 => "s64"
  | .u64 => "u64"
  | .f32 => "f32"
  | .f64 => "f64"

/-- The encoding has a container part in its name (rule R96). -/
def hasContainer (e : Encoding) : Bool := decide (depthOf e < widthOf e)

/-- The endian suffix: none for Native, appended to a container, after an underscore otherwise (rule R96). -/
def endianSuffix (e : Encoding) : EndianCode → String
  | .native => ""
  | .big => if hasContainer e then "be" else "_be"
  | .little => if hasContainer e then "le" else "_le"

/-- The name of a format (rules R96 and R97). -/
def formatName (f : WireFormat) : String := encodingName f.enc ++ endianSuffix f.enc f.endian

/-- Every valid format (rule R97). -/
def allFormats : List WireFormat :=
  Encoding.all.flatMap (fun e => [⟨e, .native⟩, ⟨e, .big⟩, ⟨e, .little⟩])

/-- The format of a name; any string outside rule R97 is Invalid, here `none` (rule R96). -/
def parseFormat (name : String) : Option WireFormat := allFormats.find? (fun f => formatName f = name)

/-- The encoding of a name (rule R96). -/
def parseEncoding (name : String) : Option Encoding := Encoding.all.find? (fun e => encodingName e = name)

/-- A register name (rule R98). -/
def regName : VReg → String
  | .v0 => "v0"
  | .v1 => "v1"
  | .v2 => "v2"
  | .v3 => "v3"

/-- The register of a name (rule R98). -/
def parseReg (name : String) : Option VReg := [VReg.v0, .v1, .v2, .v3].find? (fun r => regName r = name)

/-- A count in decimal digits, one of the legal ones (rule R98). -/
def parseCount (legal : List Nat) (digits : String) : Option Nat := legal.find? (fun k => toString k = digits)

/-- A `len` operand, 0 to 8 (rule R98). -/
def parseLength (digits : String) : Option Nat := parseCount [0, 1, 2, 3, 4, 5, 6, 7, 8] digits

/-- A depth operand (rules R87 and R98). -/
def parseDepth (digits : String) : Option Nat := parseCount signDepths digits

/-- The mnemonics, in upper case (rule R98). -/
def mnemonic : Op → String
  | .ard => "ARD"
  | .awr => "AWR"
  | .urd => "URD"
  | .uwr => "UWR"
  | .s2u => "S2U"
  | .u2s => "U2S"
  | .unpk => "UNPK"
  | .pack => "PACK"
  | .cvt => "CVT"
  | .rslv => "RSLV"
  | .batch => "BATCH"

/-- The operands of an instruction as rule R98 writes them. -/
def operandNames : Instr → List String
  | .ard rd => [regName rd]
  | .awr rs => [regName rs]
  | .urd len rd => [toString len, regName rd]
  | .uwr len rs => [toString len, regName rs]
  | .s2u depth rd rs => [toString depth, regName rd, regName rs]
  | .u2s depth rd rs => [toString depth, regName rd, regName rs]
  | .unpk f rd => [formatName f, regName rd]
  | .pack f rs => [formatName f, regName rs]
  | .cvt src dst rd rs => [encodingName src, encodingName dst, regName rd, regName rs]
  | .rslv => []
  | .batch => []

/-- The instruction in the syntax of rule R98. -/
def printInstr (i : Instr) : String :=
  match operandNames i with
  | [] => mnemonic i.op
  | ops => mnemonic i.op ++ " " ++ ", ".intercalate ops

/-- Format A operands. -/
def parseA (mk : VReg → Instr) : List String → Option Instr
  | [r] => (parseReg r).map mk
  | _ => none

/-- Format U operands. -/
def parseU (mk : Nat → VReg → Instr) : List String → Option Instr
  | [k, r] => match parseLength k, parseReg r with
    | some len, some reg => some (mk len reg)
    | _, _ => none
  | _ => none

/-- Format S operands. -/
def parseS (mk : Nat → VReg → VReg → Instr) : List String → Option Instr
  | [d, a, b] => match parseDepth d, parseReg a, parseReg b with
    | some depth, some rd, some rs => some (mk depth rd rs)
    | _, _, _ => none
  | _ => none

/-- Format P operands. -/
def parseP (mk : WireFormat → VReg → Instr) : List String → Option Instr
  | [f, r] => match parseFormat f, parseReg r with
    | some fmt, some reg => some (mk fmt reg)
    | _, _ => none
  | _ => none

/-- Format V operands. -/
def parseV (mk : Encoding → Encoding → VReg → VReg → Instr) : List String → Option Instr
  | [s, d, a, b] => match parseEncoding s, parseEncoding d, parseReg a, parseReg b with
    | some src, some dst, some rd, some rs => some (mk src dst rd rs)
    | _, _, _, _ => none
  | _ => none

/-- Format N operands. -/
def parseN (i : Instr) : List String → Option Instr
  | [] => some i
  | _ => none

/-- The instruction of a mnemonic and its operands; anything outside rule R98 is refused. -/
def parseInstr (name : String) (ops : List String) : Option Instr :=
  if name = "ARD" then parseA .ard ops
  else if name = "AWR" then parseA .awr ops
  else if name = "URD" then parseU .urd ops
  else if name = "UWR" then parseU .uwr ops
  else if name = "S2U" then parseS .s2u ops
  else if name = "U2S" then parseS .u2s ops
  else if name = "UNPK" then parseP .unpk ops
  else if name = "PACK" then parseP .pack ops
  else if name = "CVT" then parseV .cvt ops
  else if name = "RSLV" then parseN .rslv ops
  else if name = "BATCH" then parseN .batch ops
  else none

/-- The word of an assembled command (rule R98). -/
def assemble (name : String) (ops : List String) : Option Command := (parseInstr name ops).map encode

end Sys2Proof.Machine
end

