-- ==== Sys2Proof/Safety.lean ====
section
/-! DEFINITION. What a safe state is: the invariant that every step keeps; and the conditions of the rules in the terms that
claims use. -/

namespace Sys2Proof.Machine

/-- A format register holds 0 or a valid code (10_state.md rule R26). -/
def legalFormatCode (c : BitVec 7) : Bool := decide (c = 0) || (WireFormat.ofCode? c).isSome

/-- The invariant of the machine: what every state that a run can reach has in common. -/
structure State.Inv (s : State) : Prop where
  /-- IB is in canonical form -/
  ibWf : s.ib.wf = true
  /-- OB is in canonical form -/
  obWf : s.ob.wf = true
  /-- IN_FMT is write-any-read-legal (10_state.md rule R26) -/
  inFmtLegal : legalFormatCode s.inFmt = true
  /-- OUT_FMT is write-any-read-legal (10_state.md rule R26) -/
  outFmtLegal : legalFormatCode s.outFmt = true
  /-- without a fault, FCODE is 0 (10_state.md rule R27) -/
  fcodeClear : s.status.fault = false → s.status.fcode = 0
  /-- without a fault, FINFO is 0 (10_state.md rule R28) -/
  finfoClear : s.status.fault = false → s.finfo = 0
  /-- a recorded fault has one of the codes 1 to 5 (60_exceptions.md rule R251) -/
  fcodeNamed : s.status.fault = true → s.status.fcode ∈ [1, 2, 3, 4, 5]
  /-- RESOLVED tells that both formats are valid (10_state.md rules R26 and R27) -/
  resolvedValid : s.status.resolved = true → resolveOk s = true
  /-- RESOLVED and CFG_ERR exclude each other (44_dispatch.md rule R220) -/
  resolvedOrErr : s.status.resolved = true → s.status.cfgErr = false

/-- While OBO stands inside a byte, the bits of OB from offset OBO to the end of that byte are 0: what a pass that began at a
byte boundary keeps (40_bit_cursor.md rule R128). At a byte boundary no byte has been entered yet (log 17). -/
def State.passClean (s : State) : Prop :=
  s.obo.toNat % 8 ≠ 0 → ∀ p, s.obo.toNat ≤ p → p / 8 = s.obo.toNat / 8 → s.ob.bit p = false

/-- The field `w[hi:lo]` of a command word, as a number (00_scope.md rule R10). -/
def wordField (w : Command) (hi lo : Nat) : Nat := bitField w.toNat hi lo

/-- The opcode is reserved (30_encoding.md rule R92). -/
def reservedOpcode (w : Command) : Prop := wordField w 31 27 = 0 ∨ 12 ≤ wordField w 31 27

/-- A defined opcode with a non-zero bit in a reserved-zero field of its format A, U, S, P, V or N (30_encoding.md rules R85 to
R90 and R93). -/
def reservedBitSet (w : Command) : Prop :=
  (wordField w 31 27 ∈ [1, 2] ∧ (wordField w 26 23 ≠ 0 ∨ wordField w 20 0 ≠ 0)) ∨
    (wordField w 31 27 ∈ [3, 4] ∧ wordField w 20 0 ≠ 0) ∨
    (wordField w 31 27 ∈ [5, 6] ∧ wordField w 15 0 ≠ 0) ∨
    (wordField w 31 27 ∈ [7, 8] ∧ wordField w 17 0 ≠ 0) ∨
    (wordField w 31 27 = 9 ∧ wordField w 12 0 ≠ 0) ∨
    (wordField w 31 27 ∈ [10, 11] ∧ wordField w 26 0 ≠ 0)

/-- An encoding code that names no encoding (30_encoding.md rule R81). -/
def badEncodingCode (c : Nat) : Prop := c = 0 ∨ 27 ≤ c

/-- A defined opcode with an illegal field value (30_encoding.md rule R94). -/
def illegalField (w : Command) : Prop :=
  (wordField w 31 27 ∈ [3, 4] ∧ 8 < wordField w 26 23) ∨
    (wordField w 31 27 ∈ [5, 6] ∧ wordField w 26 20 ∉ [8, 16, 18, 20, 24, 32, 64]) ∨
    (wordField w 31 27 ∈ [7, 8] ∧ (badEncodingCode (wordField w 26 22) ∨ wordField w 21 20 = 3)) ∨
    (wordField w 31 27 = 9 ∧ (badEncodingCode (wordField w 26 22) ∨ badEncodingCode (wordField w 21 17)))

/-- The words that raise IllegalCommand, by the rules' own conditions on their bits and not by the decoder
(30_encoding.md rules R92 to R94). -/
def illegalWord (w : Command) : Prop := reservedOpcode w ∨ reservedBitSet w ∨ illegalField w

/-- The span of `len` bits at bit offset `b` has a byte at or past `bytes` (20_memory.md rule R65). -/
def spanOutside (b len bytes : Nat) : Prop := ∃ a, b / 8 ≤ a ∧ a ≤ (b + len - 1) / 8 ∧ bytes ≤ a

/-- Sample `i` of a BATCH has both its spans inside the buffers (44_dispatch.md rules R224 and R225). -/
def State.sampleFits (s : State) (fi fo : WireFormat) (i : Nat) : Prop :=
  ¬ spanOutside (i * widthOf fi.enc) (widthOf fi.enc) s.ibLen.toNat ∧
    ¬ spanOutside (i * widthOf fo.enc) (widthOf fo.enc) s.obLen.toNat

/-- `ceil(n * w / 8)`: the bytes that `n` samples of width `w` occupy from offset 0 (42_pack_unpack.md rule R164). -/
def batchBytes (n w : Nat) : Nat := (n * w + 7) / 8

end Sys2Proof.Machine
end

