-- ==== Sys2Proof/Certificates/Slice0/Obligations.lean ====
section
/-! DEFINITION. The statements about PCMCONV, for the provers. Each docstring names the rules it formalises; OBLIGATIONS.json
lists them with their quotes. -/

open Sys2Proof Sys2Proof.Machine

/-! ## Encoding and decoding -/

/-- Decoding the word of a well-formed instruction gives it back, with every operand at every value it admits
(30_encoding.md rules R85 to R91 and R100). -/
def Obligations.DecodeInvertsEncode : Prop :=
  ∀ i : Instr, i.wellFormed = true → decode (encode i) = .ok i

/-- A word that decodes is the encoding of a well-formed instruction: no bit is ignored (rules R85 to R94). -/
def Obligations.EncodeInvertsDecode : Prop :=
  ∀ (w : Command) (i : Instr), decode w = .ok i → i.wellFormed = true ∧ encode i = w

/-- The decoder rejects exactly the words that rules R92 to R94 call illegal, by their own conditions on the word's bits. -/
def Obligations.DecodeRejectsExactlyIllegalWords : Prop :=
  ∀ w : Command, (∀ i, decode w ≠ .ok i) ↔ illegalWord w

/-- Issuing an illegal word raises IllegalCommand(w) and has no other effect; the all-zero word is illegal
(rules R92 to R94, 60_exceptions.md rules R251 and R252). -/
def Obligations.IllegalWordRaisesIllegalCommand : Prop :=
  illegalWord 0 ∧
    ∀ (s : State) (v : Word), s.halted = false → illegalWord (v.setWidth 32) →
      perform (.writeReg 0x00 v) s = .next { s with
        status := { s.status with fault := true, fcode := 1 }
        finfo := (v.setWidth 32 : Command).setWidth 64 }

/-- Words written out from the tables of rules R85 to R91, the examples of rule R98 among them, decode to the instructions
they stand for. -/
def Obligations.WrittenOutWordsDecode : Prop :=
  decode 0x08200000 = .ok (.ard .v1) ∧
    decode 0x10600000 = .ok (.awr .v3) ∧
    decode 0x1A400000 = .ok (.urd 4 .v2) ∧
    decode 0x21C00000 = .ok (.uwr 3 .v2) ∧
    decode 0x29040000 = .ok (.s2u 16 .v1 .v0) ∧
    decode 0x30840000 = .ok (.u2s 8 .v1 .v0) ∧
    decode 0x39500000 = .ok (.unpk ⟨.s18, .big⟩ .v0) ∧
    decode 0x41500000 = .ok (.pack ⟨.s18, .big⟩ .v0) ∧
    decode 0x4E468000 = .ok (.cvt .f32 .s16 .v1 .v0) ∧
    decode 0x50000000 = .ok .rslv ∧
    decode 0x58000000 = .ok .batch

/-- The opcode field alone selects the command: a word that decodes has its instruction's opcode in bits 31:27 and selects
no other row of the table (rules R80 and R91). -/
def Obligations.OpcodeAloneSelectsCommand : Prop :=
  ∀ (w : Command) (i : Instr), decode w = .ok i →
    wordField w 31 27 = i.op.opcode.toNat ∧ ∀ r ∈ opcodeTable, r.selects w = true → r.op = i.op

/-- A format code is `enc * 4 + endian`, valid iff `enc ∈ 1..26` and `endian ∈ 0..2`; every other code is Invalid
(rule R83). -/
def Obligations.FormatCodeValidity : Prop :=
  (∀ c : BitVec 7, (∃ f, WireFormat.ofCode? c = some f) ↔
      (1 ≤ c.toNat / 4 ∧ c.toNat / 4 ≤ 26) ∧ c.toNat % 4 ≤ 2) ∧
    (∀ f : WireFormat, f.code.toNat = f.enc.code.toNat * 4 + f.endian.code.toNat ∧
      WireFormat.ofCode? f.code = some f) ∧
    WireFormat.ofCode? 0 = none

/-- Printing a valid format gives its name, parsing that name gives the format back, and no other string parses
(rules R96 and R97). -/
def Obligations.FormatNamesRoundTrip : Prop :=
  ∀ (name : String) (f : WireFormat), parseFormat name = some f ↔ formatName f = name

/-- The assembler reads exactly the syntax of well-formed instructions: a mnemonic with its operands gives the instruction
it prints, and everything else is refused (rule R98; operands as a list of fields, log 16). -/
def Obligations.AssemblerReadsExactlyWhatItPrints : Prop :=
  ∀ (name : String) (ops : List String) (i : Instr),
    parseInstr name ops = some i ↔ i.wellFormed = true ∧ name = mnemonic i.op ∧ ops = operandNames i

/-! ## Steps and the host -/

/-- A step performs the host's next action, taken off the list; where that is a CMD write and the block is not halted, it is
the run of the instruction that the written word decodes to (10_state.md rule R29, 00_scope.md rule R16; the list of host
actions is the model's own, log 1). -/
def Obligations.StepRunsDecodedCommand : Prop :=
  ∀ (s : State) (a : HostAction) (rest : List HostAction), s.pending = a :: rest →
    step s = perform a { s with pending := rest } ∧
    ∀ (v : Word) (i : Instr), a = .writeReg 0x00 v → s.halted = false → decode (v.setWidth 32) = .ok i →
      step s = exec i { s with pending := rest }

/-- A well-formed instruction placed as the next command is what the next step runs, in the state it was placed in (log 1). -/
def Obligations.PlacedCommandRunsNext : Prop :=
  ∀ (s : State) (i : Instr), i.wellFormed = true → s.halted = false →
    step (s.withFetchWord 32 (encode i).toNat) = exec i s

/-- A halted block ignores a CMD write, accepts every other register write and read as an unhalted one does, and leaves the halted state by reset only (60_exceptions.md rule R253). -/
def Obligations.HaltedBlockIgnoresCommands : Prop :=
  ∀ s : State, s.halted = true →
    (∀ v, perform (.writeReg 0x00 v) s = .next s) ∧
    (∀ (o : BitVec 8) (v : Word), o ≠ 0 → perform (.writeReg o v) s = .next (hostWrite s v (hostRegAt o))) ∧
    (∀ o : BitVec 8, perform (.readReg o) s = .next { s with hostData := hostRead s (hostRegAt o) }) ∧
    ∀ a t, perform a s = .next t → (t.halted = false ↔ a = .reset)

/-- A host write of a register other than CMD, IN_FMT and OUT_FMT stores the written value cut to the register's width; a
write of V also sets its written flag; read-only registers and every offset outside the map, a multiple of 8 or not, ignore it
(10_state.md rules R21, R39 and R40). -/
def Obligations.HostWriteStoresTruncatedValue : Prop :=
  ∀ (s : State) (v : Word),
    perform (.writeReg 0x28 v) s = .next { s with n := v.setWidth 32 } ∧
    perform (.writeReg 0x38 v) s = .next { s with ibo := v } ∧
    perform (.writeReg 0x40 v) s = .next { s with obo := v } ∧
    perform (.writeReg 0x48 v) s = .next { s with ibLen := v.setWidth 61 } ∧
    perform (.writeReg 0x50 v) s = .next { s with obLen := v.setWidth 61 } ∧
    perform (.writeReg 0x80 v) s = .next { s with regs := { s.regs with v0 := ⟨v, true⟩ } } ∧
    perform (.writeReg 0x88 v) s = .next { s with regs := { s.regs with v1 := ⟨v, true⟩ } } ∧
    perform (.writeReg 0x90 v) s = .next { s with regs := { s.regs with v2 := ⟨v, true⟩ } } ∧
    perform (.writeReg 0x98 v) s = .next { s with regs := { s.regs with v3 := ⟨v, true⟩ } } ∧
    ∀ o : BitVec 8,
      o.toNat ∉ [0x00, 0x18, 0x20, 0x28, 0x38, 0x40, 0x48, 0x50, 0x80, 0x88, 0x90, 0x98] →
      perform (.writeReg o v) s = .next s

/-- A write of a format register stores the low seven bits if they are a valid format code, else 0, and clears RESOLVED
(10_state.md rule R26). -/
def Obligations.FormatWriteStoresOnlyLegalCodes : Prop :=
  ∀ (s : State) (w : Word),
    let legal := (1 ≤ bitField w.toNat 6 2 ∧ bitField w.toNat 6 2 ≤ 26) ∧ bitField w.toNat 1 0 ≤ 2
    ∃ c : BitVec 7, (legal → c.toNat = bitField w.toNat 6 0) ∧ (¬ legal → c = 0) ∧
      perform (.writeReg 0x18 w) s =
        .next { s with inFmt := c, status := { s.status with resolved := false } } ∧
      perform (.writeReg 0x20 w) s =
        .next { s with outFmt := c, status := { s.status with resolved := false } }

/-- What a host read of each register returns, STATUS bit by bit, and 0 from every offset outside the map, a multiple of 8 or
not; nothing but the host's read data changes (10_state.md rules R27 to R30, R39 and R40; `hostData` is the model's own,
log 10). -/
def Obligations.HostReadReturnsRegister : Prop :=
  ∀ s : State,
    let reads (o : BitVec 8) (x : Word) : Prop := perform (.readReg o) s = .next { s with hostData := x }
    reads 0x00 0 ∧ reads 0x08 s.status.word ∧ reads 0x10 s.finfo ∧
    reads 0x18 (s.inFmt.setWidth 64) ∧ reads 0x20 (s.outFmt.setWidth 64) ∧
    reads 0x28 (s.n.setWidth 64) ∧ reads 0x30 (s.cnt.setWidth 64) ∧ reads 0x38 s.ibo ∧ reads 0x40 s.obo ∧
    reads 0x48 (s.ibLen.setWidth 64) ∧ reads 0x50 (s.obLen.setWidth 64) ∧
    reads 0x58 (traitsWord s.inFmt) ∧ reads 0x60 (traitsWord s.outFmt) ∧
    reads 0x80 s.regs.v0.value ∧ reads 0x88 s.regs.v1.value ∧ reads 0x90 s.regs.v2.value ∧
    reads 0x98 s.regs.v3.value ∧
    (∀ o : BitVec 8, o.toNat ∉ [0x00, 0x08, 0x10, 0x18, 0x20, 0x28, 0x30, 0x38, 0x40, 0x48, 0x50, 0x58, 0x60, 0x80, 0x88, 0x90,
      0x98] → reads o 0) ∧
    s.status.word.getLsbD 0 = s.status.fault ∧ s.status.word.getLsbD 1 = s.status.resolved ∧
    s.status.word.getLsbD 2 = s.status.cfgErr ∧ s.status.word.extractLsb' 4 4 = s.status.fcode ∧
    s.status.word.getLsbD 3 = false ∧ s.status.word.extractLsb' 8 56 = 0

/-- Every step answers a next state: no host action and no instruction stops the machine, a command that the block cannot
perform being recorded as a fault and the block halted (60_exceptions.md rules R250, R252 and R253). A host with nothing left to
do leaves the block as it is (rule R263; the idle step is the model's choice, log 2). -/
def Obligations.EveryStepAnswersNext : Prop :=
  (∀ s : State, ∃ t, step s = .next t) ∧ ∀ s : State, s.pending = [] → step s = .next s

/-- The host sets one byte of a buffer and nothing else; the two buffers are separate (20_memory.md rules R60 and R61). -/
def Obligations.HostSetsOneBufferByte : Prop :=
  ∀ (s : State) (k : BitVec 61) (b : Byte),
    (∃ m, perform (.writeIB k b) s = .next { s with ib := m } ∧ m.read k.toNat = b ∧
      ∀ a, a ≠ k.toNat → m.read a = s.ib.read a) ∧
    ∃ m, perform (.writeOB k b) s = .next { s with ob := m } ∧ m.read k.toNat = b ∧
      ∀ a, a ≠ k.toNat → m.read a = s.ob.read a

/-- The traits word of a valid format, field by field, on a host of either byte order, and of an Invalid one (10_state.md rules
R31 to R38, in the layout of R30). -/
def Obligations.TraitsWordFields : Prop :=
  (∀ (host : ByteOrder) (f : WireFormat),
    let w := traitsWordAt host f.code
    let c := f.enc.code.toNat
    let e := resolveEndianAt host f.endian
    w.getLsbD 0 = true ∧
    w.getLsbD 1 = decide (c ≤ 24) ∧
    w.getLsbD 2 = (decide (c % 2 = 1) || decide (25 ≤ c)) ∧
    w.getLsbD 3 = decide (e = .little) ∧
    w.getLsbD 4 = decide (e = host) ∧
    w.extractLsb' 5 3 = 0 ∧
    (w.extractLsb' 8 8).toNat = depthOf f.enc ∧
    (w.extractLsb' 16 8).toNat = widthOf f.enc ∧
    (w.extractLsb' 24 7).toNat = (if e = host then c * 4 else 0) ∧
    w.getLsbD 31 = false ∧
    (w.extractLsb' 32 7).toNat = c * 4 + (if e = .big then 1 else 2) ∧
    w.extractLsb' 39 25 = 0) ∧
  (∀ (host : ByteOrder) (c : BitVec 7), WireFormat.ofCode? c = none → traitsWordAt host c = 0) ∧
  ∀ host : ByteOrder, resolveEndianAt host .native = host ∧ resolveEndianAt host .big = .big ∧
    resolveEndianAt host .little = .little

/-! ## Reset and invariants -/

/-- The reset state has the values of the reset column; of V0 to V3 only the written flags are fixed. A reset event gives a
block in operation the same values and does not touch IB or OB (70_reset_and_hazards.md rules R280, R282 and R283, 10_state.md
rules R39 and R44). -/
def Obligations.ResetValues : Prop :=
  let cleared (s : State) : Prop :=
    s.status = ⟨false, false, false, 0⟩ ∧ s.finfo = 0 ∧ s.inFmt = 0 ∧ s.outFmt = 0 ∧ s.n = 0 ∧ s.cnt = 0 ∧ s.ibo = 0 ∧
      s.obo = 0 ∧ s.ibLen = 0 ∧ s.obLen = 0 ∧ (∀ r : VReg, s.vw r = false) ∧ s.halted = false ∧
      traitsWord s.inFmt = 0 ∧ traitsWord s.outFmt = 0
  cleared State.reset ∧ ∀ s : State, ∃ t, perform .reset s = .next t ∧ cleared t ∧ t.ib = s.ib ∧ t.ob = s.ob

/-- The invariant holds right after reset. -/
def Obligations.ResetMeetsInvariant : Prop := State.reset.Inv

/-- Every step keeps the invariant: canonical buffers, legal format registers, the fault fields 0 without a fault and a named
code with one, RESOLVED only over two valid formats (10_state.md rules R26 to R28, 44_dispatch.md rule R220,
60_exceptions.md rule R251). -/
def Obligations.StepKeepsInvariant : Prop :=
  ∀ s t : State, s.Inv → step s = .next t → t.Inv

/-- Nothing but reset clears FAULT, FCODE or FINFO, replaces the first fault by a second, or clears a written flag
(60_exceptions.md rules R253 and R259, 10_state.md rules R21 and R27). -/
def Obligations.OnlyResetClearsFaultAndWrittenFlags : Prop :=
  ∀ (s t : State) (a : HostAction), perform a s = .next t → a ≠ .reset →
    (s.status.fault = true → t.status.fault = true ∧ t.status.fcode = s.status.fcode ∧ t.finfo = s.finfo) ∧
      ∀ r : VReg, s.vw r = true → t.vw r = true

/-- No command writes IB, N, the length registers or the format registers, and none but BATCH writes CNT (10_state.md rules
R24 to R26, 20_memory.md rule R60). -/
def Obligations.CommandsLeaveHostStateAlone : Prop :=
  ∀ (i : Instr) (s t : State), exec i s = .next t →
    t.ib = s.ib ∧ t.n = s.n ∧ t.ibLen = s.ibLen ∧ t.obLen = s.obLen ∧ t.inFmt = s.inFmt ∧ t.outFmt = s.outFmt ∧
    t.pending = s.pending ∧ t.hostData = s.hostData ∧ t.resets = s.resets ∧ (i ≠ .batch → t.cnt = s.cnt)

/-! ## Faults -/

/-- A command other than BATCH that raises a fault changes the fault fields and nothing else (60_exceptions.md rules R252
and R255). -/
def Obligations.FaultingCommandChangesOnlyFaultFields : Prop :=
  ∀ (i : Instr) (s t : State), i ≠ .batch → s.halted = false → exec i s = .next t → t.halted = true →
    t = { s with status := { s.status with fault := true, fcode := t.status.fcode }, finfo := t.finfo } ∧
      t.status.fcode ∈ [2, 3, 4, 5]

/-- A command that reads an unwritten sample register raises UnwrittenRegister, whatever else is wrong (10_state.md rule R21,
60_exceptions.md rules R251 and R254). -/
def Obligations.UnwrittenSourceRaises : Prop :=
  ∀ (s : State) (r rd : VReg) (k : Nat) (f : WireFormat) (a b : Encoding), s.vw r = false →
    ∀ i ∈ [Instr.awr r, .uwr k r, .s2u k rd r, .u2s k rd r, .pack f r, .cvt a b rd r],
      exec i s = .next { s with
        status := { s.status with fault := true, fcode := 2 }
        finfo := BitVec.ofNat 64 r.code.toNat }

/-- An aligned-class access at a cursor that is no multiple of 8 raises AlignFault with the cursor, before any bounds check
(20_memory.md rule R64, 60_exceptions.md rules R251 and R254). -/
def Obligations.UnalignedCursorRaisesAlignFault : Prop :=
  ∀ (s : State) (r : VReg) (f : WireFormat), classOf f.enc = .aligned →
    (s.ibo.toNat % 8 ≠ 0 → ∀ i ∈ [Instr.ard r, .unpk f r],
      exec i s = .next { s with status := { s.status with fault := true, fcode := 3 }, finfo := s.ibo }) ∧
    (s.obo.toNat % 8 ≠ 0 → s.vw r = true → ∀ i ∈ [Instr.awr r, .pack f r],
      exec i s = .next { s with status := { s.status with fault := true, fcode := 3 }, finfo := s.obo })

/-- A read whose span has a byte at or past IB_LEN raises BoundsFaultIB with IBO, once the alignment check has passed
(20_memory.md rule R65, 60_exceptions.md rules R251 and R254). -/
def Obligations.ReadOutsideBufferRaises : Prop :=
  ∀ (s : State) (r : VReg) (k : Nat) (f : WireFormat),
    let raised : Host.Outcome State Fault Refusal :=
      .next { s with status := { s.status with fault := true, fcode := 4 }, finfo := s.ibo }
    (s.ibo.toNat % 8 = 0 → spanOutside s.ibo.toNat 8 s.ibLen.toNat → exec (.ard r) s = raised) ∧
    (1 ≤ k → k ≤ 8 → spanOutside s.ibo.toNat k s.ibLen.toNat → exec (.urd k r) s = raised) ∧
    ((classOf f.enc = .aligned → s.ibo.toNat % 8 = 0) →
      spanOutside s.ibo.toNat (widthOf f.enc) s.ibLen.toNat → exec (.unpk f r) s = raised)

/-- A write whose span has a byte at or past OB_LEN raises BoundsFaultOB with OBO, once the written check and the alignment
check have passed (20_memory.md rule R65, 60_exceptions.md rules R251 and R254). -/
def Obligations.WriteOutsideBufferRaises : Prop :=
  ∀ (s : State) (r : VReg) (k : Nat) (f : WireFormat), s.vw r = true →
    let raised : Host.Outcome State Fault Refusal :=
      .next { s with status := { s.status with fault := true, fcode := 5 }, finfo := s.obo }
    (s.obo.toNat % 8 = 0 → spanOutside s.obo.toNat 8 s.obLen.toNat → exec (.awr r) s = raised) ∧
    (1 ≤ k → k ≤ 8 → spanOutside s.obo.toNat k s.obLen.toNat → exec (.uwr k r) s = raised) ∧
    ((classOf f.enc = .aligned → s.obo.toNat % 8 = 0) →
      spanOutside s.obo.toNat (widthOf f.enc) s.obLen.toNat → exec (.pack f r) s = raised)

/-! ## Bit cursor -/

/-- ARD completes at a byte-aligned IBO inside IB: the octet goes to rd, zero-extended, and IBO advances by 8; all other state
is unchanged (40_bit_cursor.md rules R120 and R124). -/
def Obligations.ArdReadsOctet : Prop :=
  ∀ (s : State) (rd : VReg), s.ibo.toNat % 8 = 0 → s.ibo.toNat / 8 < s.ibLen.toNat →
    exec (.ard rd) s = .next { s with
      ibo := s.ibo + 8
      regs := s.regs.set rd ⟨(s.ib.read (s.ibo.toNat / 8)).setWidth 64, true⟩ }

/-- AWR completes with a written source at a byte-aligned OBO inside OB: the byte at OBO is replaced by the low octet, OBO
advances by 8, and every other byte and all other state is unchanged (40_bit_cursor.md rules R121 and R125). -/
def Obligations.AwrWritesOctet : Prop :=
  ∀ (s : State) (rs : VReg), s.vw rs = true → s.obo.toNat % 8 = 0 → s.obo.toNat / 8 < s.obLen.toNat →
    ∃ m, exec (.awr rs) s = .next { s with obo := s.obo + 8, ob := m } ∧
      m.read (s.obo.toNat / 8) = (s.v rs).setWidth 8 ∧ ∀ a, a ≠ s.obo.toNat / 8 → m.read a = s.ob.read a

/-- URD completes for every legal length whose span is inside IB: rd is the zero-extended field, most significant bit at IBO,
and IBO advances by the length; all other state is unchanged (40_bit_cursor.md rules R122 and R126, 20_memory.md
rule R62). -/
def Obligations.UrdReadsField : Prop :=
  ∀ (s : State) (len : Nat) (rd : VReg), len ≤ 8 →
    (len ≠ 0 → ¬ spanOutside s.ibo.toNat len s.ibLen.toNat) →
    ∃ v : Word, exec (.urd len rd) s = .next { s with
        ibo := s.ibo + BitVec.ofNat 64 len
        regs := s.regs.set rd ⟨v, true⟩ } ∧
      ∀ j, v.getLsbD j = (decide (j < len) && s.ib.bit (s.ibo.toNat + len - 1 - j))

/-- UWR completes with a written source for every legal length whose span is inside OB. Bit by bit of OB: the span takes the
low bits of the source, most significant first, ORed into a byte entered inside; a byte entered at its bit 0 and a spill byte
are zero elsewhere; all other bits, and all other state, are unchanged (40_bit_cursor.md rules R123 and R127, 20_memory.md
rules R62 and R67). -/
def Obligations.UwrWritesField : Prop :=
  ∀ (s : State) (len : Nat) (rs : VReg), s.vw rs = true → len ≤ 8 →
    (len ≠ 0 → ¬ spanOutside s.obo.toNat len s.obLen.toNat) →
    let b := s.obo.toNat
    ∃ m, exec (.uwr len rs) s = .next { s with obo := s.obo + BitVec.ofNat 64 len, ob := m } ∧
      ∀ p, m.bit p =
        if len = 0 ∨ p / 8 < b / 8 ∨ (b + len - 1) / 8 < p / 8 then s.ob.bit p
        else ((decide (b ≤ p ∧ p < b + len) && (s.v rs).getLsbD (b + len - 1 - p)) ||
          (decide (b % 8 ≠ 0 ∧ p / 8 = b / 8) && s.ob.bit p))

/-- At a byte-aligned cursor the unaligned primitives of 8 bits agree with the aligned ones, buffer, cursor and value; at any
other cursor the aligned ones raise AlignFault and the unaligned ones, inside the buffer, proceed (40_bit_cursor.md
rule R130). -/
def Obligations.AlignedAndUnalignedPrimitivesAgree : Prop :=
  ∀ (s : State) (v : Nat),
    (s.obo.toNat % 8 = 0 → unalignedWrite 8 v s = alignedWrite v s) ∧
    (s.ibo.toNat % 8 = 0 → unalignedRead 8 s = alignedRead s) ∧
    (s.obo.toNat % 8 ≠ 0 → alignedWrite v s = .error (.alignFault s.obo) ∧
      (¬ spanOutside s.obo.toNat 8 s.obLen.toNat → ∃ t, unalignedWrite 8 v s = .ok t)) ∧
    (s.ibo.toNat % 8 ≠ 0 → alignedRead s = .error (.alignFault s.ibo) ∧
      (¬ spanOutside s.ibo.toNat 8 s.ibLen.toNat → ∃ x t, unalignedRead 8 s = .ok (x, t)))

/-- Zero-initialisation within a pass: AWR, UWR and PACK keep the bits of the byte that OBO stands inside, from OBO on, at 0
(40_bit_cursor.md rule R128, read as about a byte that OBO stands inside: at a byte boundary the next byte has not been
entered, DEDUCED, log 17). A pass begins at a byte boundary, where the condition holds of every OB. -/
def Obligations.PassKeepsUnwrittenBitsZero : Prop :=
  (∀ s : State, s.obo.toNat % 8 = 0 → s.passClean) ∧
    ∀ (s t : State) (r : VReg) (len : Nat) (f : WireFormat), len ≤ 8 → s.passClean →
      ∀ i ∈ [Instr.awr r, .uwr len r, .pack f r], exec i s = .next t → t.passClean

/-! ## Sign converter -/

/-- ToUnsigned and ToSigned are the offset-binary code and its inverse, and on bit patterns they invert bit D-1
(41_sign_converter.md rules R141, R142 and R145). -/
def Obligations.OffsetBinaryCode : Prop :=
  ∀ d ∈ [8, 16, 18, 20, 24, 32, 64],
    (∀ s : Int, -2 ^ (d - 1) ≤ s → s ≤ 2 ^ (d - 1) - 1 →
      (toUnsigned d s : Int) = s + 2 ^ (d - 1) ∧ toUnsigned d s ≤ 2 ^ d - 1 ∧ toSigned d (toUnsigned d s) = s) ∧
    (∀ u : Nat, u ≤ 2 ^ d - 1 →
      toSigned d u = u - 2 ^ (d - 1) ∧ -2 ^ (d - 1) ≤ toSigned d u ∧ toSigned d u ≤ 2 ^ (d - 1) - 1 ∧
      toUnsigned d (toSigned d u) = u ∧ toUnsigned d (svalNat d u) = u ^^^ 2 ^ (d - 1))

/-- S2U and U2S complete with a written source and a legal depth: rd is the low D bits of rs with bit D-1 inverted,
zero-extended by S2U and sign-extended by U2S; all other state is unchanged (41_sign_converter.md rules R143, R144
and R145). -/
def Obligations.SignConverterInvertsTopBit : Prop :=
  ∀ (s : State) (d : Nat) (rd rs : VReg), d ∈ [8, 16, 18, 20, 24, 32, 64] → s.vw rs = true →
    (∃ u : Word, exec (.s2u d rd rs) s = .next { s with regs := s.regs.set rd ⟨u, true⟩ } ∧
      ∀ k, u.getLsbD k = (decide (k < d) && ((s.v rs).getLsbD k != decide (k = d - 1)))) ∧
    ∃ u : Word, exec (.u2s d rd rs) s = .next { s with regs := s.regs.set rd ⟨u, true⟩ } ∧
      ∀ k, k < 64 → u.getLsbD k = if k < d - 1 then (s.v rs).getLsbD k else !(s.v rs).getLsbD (d - 1)

/-! ## Packer -/

/-- Extend masks to the depth and extends: sign bits above a signed integer, zeros above anything else (42_pack_unpack.md
rule R156, 10_state.md rule R22). -/
def Obligations.ExtendMasksAndExtends : Prop :=
  ∀ (e : Encoding) (x k : Nat), k < 64 →
    (extend e x).getLsbD k =
      if k < depthOf e then x.testBit k else (decide (kindOf e = .sint) && x.testBit (depthOf e - 1))

/-- UNPK completes when the cursor is aligned for the format's class and the span is inside IB: rd is the sample that lies on
the wire, in canonical form, and IBO advances by W; all other state is unchanged (42_pack_unpack.md rules R150, R155
and R158). -/
def Obligations.UnpkReadsSample : Prop :=
  ∀ (s : State) (f : WireFormat) (rd : VReg), (classOf f.enc = .aligned → s.ibo.toNat % 8 = 0) →
    ¬ spanOutside s.ibo.toNat (widthOf f.enc) s.ibLen.toNat →
    exec (.unpk f rd) s = .next { s with
      ibo := s.ibo + BitVec.ofNat 64 (widthOf f.enc)
      regs := s.regs.set rd ⟨sampleIn f s.ib s.ibo.toNat, true⟩ }

/-- PACK completes with a written source when the cursor is aligned for the format's class and the span is inside OB. Bit by
bit of OB: container bit k, the source's bit k below the depth and 0 above, lies at its wire offset, ORed into a byte entered
inside; the touched bytes are zero elsewhere; all other bits, and all other state, are unchanged (42_pack_unpack.md rules
R150, R152, R153 and R159). -/
def Obligations.PackWritesSample : Prop :=
  ∀ (s : State) (f : WireFormat) (rs : VReg), s.vw rs = true → (classOf f.enc = .aligned → s.obo.toNat % 8 = 0) →
    ¬ spanOutside s.obo.toNat (widthOf f.enc) s.obLen.toNat →
    let b := s.obo.toNat
    let w := widthOf f.enc
    let e := resolveEndian f.endian
    ∃ m, exec (.pack f rs) s = .next { s with obo := s.obo + BitVec.ofNat 64 w, ob := m } ∧
      (∀ k, k < w → m.bit (b + wireOffset w e k) =
        ((decide (k < depthOf f.enc) && (s.v rs).getLsbD k) ||
          (decide (b % 8 ≠ 0 ∧ (b + wireOffset w e k) / 8 = b / 8) && s.ob.bit (b + wireOffset w e k)))) ∧
      (∀ p, p < b ∨ b + w ≤ p → b / 8 ≤ p / 8 → p / 8 ≤ (b + w - 1) / 8 →
        m.bit p = (decide (b % 8 ≠ 0 ∧ p / 8 = b / 8) && s.ob.bit p)) ∧
      ∀ a, a < b / 8 ∨ (b + w - 1) / 8 < a → m.read a = s.ob.read a

/-- Round trip: a canonical value packed within a pass comes back from IB bytes that equal the packed OB bytes, and both
cursors advance by W (42_pack_unpack.md rule R160). Within a pass is `passClean`, the model's reading of rule R128 (DEDUCED,
log 17): at a byte boundary it holds of every OB. -/
def Obligations.PackUnpackRoundTrip : Prop :=
  ∀ (s u : State) (f : WireFormat) (rs rd : VReg), s.vw rs = true → canonical f.enc (s.v rs) → s.passClean →
    (classOf f.enc = .aligned → s.obo.toNat % 8 = 0) → ¬ spanOutside s.obo.toNat (widthOf f.enc) s.obLen.toNat →
    u.ibo = s.obo → ¬ spanOutside u.ibo.toNat (widthOf f.enc) u.ibLen.toNat →
    ∃ t, exec (.pack f rs) s = .next t ∧ t.obo.toNat = s.obo.toNat + widthOf f.enc ∧
      ((∀ a, s.obo.toNat / 8 ≤ a → a ≤ (s.obo.toNat + widthOf f.enc - 1) / 8 → u.ib.read a = t.ob.read a) →
        ∃ t', exec (.unpk f rd) u = .next t' ∧ t'.v rd = s.v rs ∧ t'.ibo.toNat = u.ibo.toNat + widthOf f.enc)

/-- Padding is zero on the wire, whatever the source register holds (42_pack_unpack.md rule R161). -/
def Obligations.PaddingIsZeroOnTheWire : Prop :=
  ∀ (s t : State) (f : WireFormat) (rs : VReg), depthOf f.enc < widthOf f.enc → exec (.pack f rs) s = .next t →
    s.halted = false → t.halted = false → ∀ k, depthOf f.enc ≤ k → k < widthOf f.enc →
      t.ob.bit (s.obo.toNat + wireOffset (widthOf f.enc) (resolveEndian f.endian) k) = false

/-- Endian swap: unpacking an aligned-class sample with one explicit endian and packing it with the other reverses its octets,
padding bits cleared (42_pack_unpack.md rule R162). -/
def Obligations.EndianSwapReversesOctets : Prop :=
  ∀ (s : State) (e : Encoding) (r : VReg) (d d' : EndianCode), classOf e = .aligned →
    (d = .big ∧ d' = .little ∨ d = .little ∧ d' = .big) →
    s.ibo.toNat % 8 = 0 → s.obo.toNat % 8 = 0 → ¬ spanOutside s.ibo.toNat (widthOf e) s.ibLen.toNat →
    ¬ spanOutside s.obo.toNat (widthOf e) s.obLen.toNat →
    let n := widthOf e / 8
    ∃ t u, exec (.unpk ⟨e, d⟩ r) s = .next t ∧ exec (.pack ⟨e, d'⟩ r) t = .next u ∧
      ∀ j, j < n → ∀ k, k < 8 →
        (u.ob.read (s.obo.toNat / 8 + j)).getLsbD k =
          (decide (8 * (if d' = .little then j else n - 1 - j) + k < depthOf e) &&
            (s.ib.read (s.ibo.toNat / 8 + (n - 1 - j))).getLsbD k)

/-! ## Converter -/

/-- CVT completes with a written source, for every pair of encodings: rd is Convert of rs, in the canonical form of the
destination and the same for any two sources with the same low bits, whatever rs holds above them, and all other state, every
status bit among it, is unchanged (43_convert.md rules R180 and R192, 10_state.md rule R22). -/
def Obligations.CvtWritesConvertedValue : Prop :=
  ∀ (s : State) (a b : Encoding) (rd rs : VReg), s.vw rs = true →
    exec (.cvt a b rd rs) s = .next { s with regs := s.regs.set rd ⟨convert a b (s.v rs), true⟩ } ∧
      canonical b (convert a b (s.v rs)) ∧
      ∀ v : Word, v.toNat % 2 ^ depthOf a = (s.v rs).toNat % 2 ^ depthOf a → convert a b v = convert a b (s.v rs)

/-- Integer to integer, in the signed domains of the two depths: widening shifts left exactly and never clips; narrowing rounds
to nearest, ties toward plus infinity, and clips at the positive end only, never falling below the minimum; the result is in
canonical form (43_convert.md rules R182 to R185). -/
def Obligations.IntegerConversionRescales : Prop :=
  ∀ (a b : Encoding) (v : Word), isInteger a = true → isInteger b = true →
    let x := signedDomain a v
    let y := signedDomain b (convert a b v)
    canonical b (convert a b v) ∧
    (depthOf a ≤ depthOf b → y = x * 2 ^ (depthOf b - depthOf a) ∧
      -2 ^ (depthOf b - 1) ≤ y ∧ y ≤ 2 ^ (depthOf b - 1) - 1 - (2 ^ (depthOf b - depthOf a) - 1)) ∧
    (depthOf b < depthOf a →
      y = min ⌊(x : ℚ) / 2 ^ (depthOf a - depthOf b) + 1 / 2⌋ (2 ^ (depthOf b - 1) - 1) ∧
      -2 ^ (depthOf b - 1) ≤ ⌊(x : ℚ) / 2 ^ (depthOf a - depthOf b) + 1 / 2⌋)

/-- The derived equivalences of the rescaler: the unsigned-domain rescale equals the signed one through the sign converter;
conversion between encodings of the same depth and kind is the identity on the canonical value; narrowing clips exactly from
`2^(Ds-1) - 2^(k-1)` on; no two depths differ by one bit (43_convert.md rule R186). -/
def Obligations.RescaleEquivalences : Prop :=
  (∀ ds ∈ signDepths, ∀ dd ∈ signDepths, ∀ x : Int, -2 ^ (ds - 1) ≤ x → x ≤ 2 ^ (ds - 1) - 1 →
    (ds ≤ dd → toUnsigned ds x * 2 ^ (dd - ds) = toUnsigned dd (rescale ds dd x)) ∧
    (dd < ds →
      min ((toUnsigned ds x + 2 ^ (ds - dd - 1)) / 2 ^ (ds - dd)) (2 ^ dd - 1) = toUnsigned dd (rescale ds dd x) ∧
      (2 ^ (dd - 1) - 1 < (x + 2 ^ (ds - dd - 1)) / 2 ^ (ds - dd) ↔ 2 ^ (ds - 1) - 2 ^ (ds - dd - 1) ≤ x) ∧
      2 ≤ ds - dd)) ∧
  ∀ (a b : Encoding) (v : Word), isInteger a = true → kindOf a = kindOf b → depthOf a = depthOf b →
    convert a b v = extend a v.toNat

/-- Upscale losslessness, for two integer encodings of any kinds: to a greater depth and back gives the canonical value back
(43_convert.md rule R193). -/
def Obligations.WideningIsLossless : Prop :=
  ∀ (a b : Encoding) (v : Word), isInteger a = true → isInteger b = true → depthOf a < depthOf b → canonical a v →
    convert b a (convert a b v) = v

/-- Float to integer, in the signed domain of the destination: the product with `2^(D-1)` is clipped to the range and truncated
toward zero; infinities clip; a NaN gives the open parameter (43_convert.md rules R187 and R188). -/
def Obligations.FloatToIntegerClipsAndTruncates : Prop :=
  ∀ (a b : Encoding) (v : Word), isInteger a = false → isInteger b = true →
    let x := if a = .f32 then binary32.value (v.toNat % 2 ^ 32) else binary64.value v.toNat
    let p : Int := 2 ^ (depthOf b - 1)
    let d := x.toRat * p
    let r := signedDomain b (convert a b v)
    canonical b (convert a b v) ∧
    (x = .nan → r = (Config.nanToInt (depthOf b)).toInt) ∧
    (x = .inf false → r = p - 1) ∧ (x = .inf true → r = -p) ∧
    (x.isFinite = true → (p ≤ d → r = p - 1) ∧ (d ≤ -p → r = -p) ∧ (-p < d → d < p → r = truncRat d))

/-- Integer to float: the signed-domain value is rounded to binary64, exactly so for depths up to 53, scaled by an exact power
of two and, for an f32 destination, rounded again to binary32; the binary64 result lies in [-1, 1] (43_convert.md rule R189,
00_scope.md rule R15). -/
def Obligations.IntegerToFloatRoundsTwice : Prop :=
  ∀ (a : Encoding) (v : Word), isInteger a = true →
    ∃ y c d : Nat, binary64.Rounds (signedDomain a v) y ∧
      (depthOf a ≤ 53 → (binary64.value y).toRat = signedDomain a v) ∧
      convert a .f64 v = BitVec.ofNat 64 c ∧ c < 2 ^ 64 ∧ (binary64.value c).isFinite = true ∧
      (binary64.value c).toRat = (binary64.value y).toRat / 2 ^ (depthOf a - 1) ∧
      |(binary64.value c).toRat| ≤ 1 ∧
      convert a .f32 v = BitVec.ofNat 64 d ∧ d < 2 ^ 32 ∧
      binary32.Rounds ((binary64.value y).toRat / 2 ^ (depthOf a - 1)) d

/-- Float to float: widening is exact, narrowing rounds to nearest with ties to even, subnormals kept and overflow to infinity;
the sign of zero is kept, infinities map to infinities, and a NaN gives the open parameter, which is a NaN (43_convert.md
rule R190, 00_scope.md rules R8 and R15). -/
def Obligations.FloatWidthChange : Prop :=
  (∀ v : Word,
    let x := binary32.value (v.toNat % 2 ^ 32)
    let y := binary64.value (convert .f32 .f64 v).toNat
    (x = .nan → y = .nan ∧ convert .f32 .f64 v = BitVec.ofNat 64 (nanWiden (v.setWidth 32))) ∧
    (∀ neg, x = .inf neg → y = .inf neg) ∧
    ∀ neg m e, x = .finite neg m e → ∃ m' e', y = .finite neg m' e' ∧ y.toRat = x.toRat) ∧
  ∀ v : Word,
    let x := binary64.value v.toNat
    let c := (convert .f64 .f32 v).toNat
    let y := binary32.value c
    c < 2 ^ 32 ∧
    (x = .nan → y = .nan ∧ convert .f64 .f32 v = BitVec.ofNat 64 (nanNarrow v)) ∧
    (∀ neg, x = .inf neg → y = .inf neg) ∧
    ∀ neg m e, x = .finite neg m e → binary32.Rounds x.toRat c ∧
      (m = 0 → ∃ e', y = .finite neg 0 e')

/-- Same encoding to same encoding: a float is returned as its own bit pattern, NaNs included, and an integer as its canonical
value (43_convert.md rule R191). -/
def Obligations.SameEncodingIsIdentity : Prop :=
  (∀ v : Word, convert .f64 .f64 v = v ∧ convert .f32 .f32 v = (v.setWidth 32 : BitVec 32).setWidth 64) ∧
  ∀ (e : Encoding) (v : Word), isInteger e = true →
    convert e e v = extend e v.toNat ∧ (canonical e v → convert e e v = v)

/-! ## Dispatcher -/

/-- RSLV completes in every state with legal format registers: RESOLVED tells that both are non-zero, CFG_ERR the opposite, and
all other state is unchanged (44_dispatch.md rules R220 and R221). -/
def Obligations.RslvRecordsValidity : Prop :=
  ∀ s : State, legalFormatCode s.inFmt = true → legalFormatCode s.outFmt = true →
    let ok := decide (s.inFmt ≠ 0) && decide (s.outFmt ≠ 0)
    exec .rslv s = .next { s with status := { s.status with resolved := ok, cfgErr := !ok } }

/-- BATCH with an Invalid format sets CFG_ERR, clears RESOLVED and changes nothing else (44_dispatch.md rule R223). -/
def Obligations.BatchWithInvalidFormat : Prop :=
  ∀ s : State, s.inFmt = 0 ∨ s.outFmt = 0 →
    exec .batch s = .next { s with status := { s.status with resolved := false, cfgErr := true } }

/-- BATCH completes when every sample's spans are inside the buffers: RESOLVED is set, the cursors and CNT are at the end of N
samples, every sample of OB is the conversion of the sample of IB with the same index, and all other state is unchanged
(44_dispatch.md rules R222, R224, R225, R227 and R228). -/
def Obligations.BatchConvertsEverySample : Prop :=
  ∀ (s : State) (fi fo : WireFormat), s.inFmt = fi.code → s.outFmt = fo.code →
    (∀ i, i < s.n.toNat → s.sampleFits fi fo i) →
    ∃ m, exec .batch s = .next { s with
        ibo := BitVec.ofNat 64 (s.n.toNat * widthOf fi.enc)
        obo := BitVec.ofNat 64 (s.n.toNat * widthOf fo.enc)
        cnt := s.n
        status := { s.status with resolved := true, cfgErr := false }
        ob := m } ∧
      ∀ i, i < s.n.toNat →
        sampleIn fo m (i * widthOf fo.enc) = convert fi.enc fo.enc (sampleIn fi s.ib (i * widthOf fi.enc))

/-- A valid BATCH on a block that is not halted completes without a fault exactly when both buffers hold
`ceil(N * W / 8)` bytes (44_dispatch.md rule R230). -/
def Obligations.BatchFaultsExactlyWhenUndersized : Prop :=
  ∀ (s : State) (fi fo : WireFormat), s.halted = false → s.inFmt = fi.code → s.outFmt = fo.code →
    ∃ t, exec .batch s = .next t ∧
      (t.halted = false ↔ batchBytes s.n.toNat (widthOf fi.enc) ≤ s.ibLen.toNat ∧
        batchBytes s.n.toNat (widthOf fo.enc) ≤ s.obLen.toNat)

/-- The footprint of a completed BATCH: bytes of OB from `ceil(N * W_out / 8)` on are unchanged, the trailing bits of the last
byte are 0, and only the bytes of IB below `ceil(N * W_in / 8)` matter (44_dispatch.md rule R231). -/
def Obligations.BatchFootprint : Prop :=
  ∀ (s t : State) (fi fo : WireFormat), s.halted = false → s.inFmt = fi.code → s.outFmt = fo.code →
    exec .batch s = .next t → t.halted = false →
    (∀ a, batchBytes s.n.toNat (widthOf fo.enc) ≤ a → t.ob.read a = s.ob.read a) ∧
    (∀ p, s.n.toNat * widthOf fo.enc ≤ p → p < 8 * batchBytes s.n.toNat (widthOf fo.enc) → t.ob.bit p = false) ∧
    ∀ m : Memory, (∀ a, a < batchBytes s.n.toNat (widthOf fi.enc) → m.read a = s.ib.read a) →
      ∃ t', exec .batch { s with ib := m } = .next t' ∧ ∀ a, t'.ob.read a = t.ob.read a

/-- A fault inside a BATCH is precise: if sample k is the first that does not fit, samples 0 to k-1 are complete, CNT and the
cursors stand at k, no byte of OB past them is touched, RESOLVED is set, and the input span is checked before the output span
(44_dispatch.md rules R225 and R232, 60_exceptions.md rules R252 and R254). -/
def Obligations.BatchFaultIsPrecise : Prop :=
  ∀ (s : State) (fi fo : WireFormat) (k : Nat), s.inFmt = fi.code → s.outFmt = fo.code → k < s.n.toNat →
    (∀ i, i < k → s.sampleFits fi fo i) → ¬ s.sampleFits fi fo k →
    ∃ (m : Memory) (code : BitVec 4) (info : Word), exec .batch s = .next { s with
        ibo := BitVec.ofNat 64 (k * widthOf fi.enc)
        obo := BitVec.ofNat 64 (k * widthOf fo.enc)
        cnt := BitVec.ofNat 32 k
        status := ⟨true, true, false, code⟩
        finfo := info
        ob := m } ∧
      (spanOutside (k * widthOf fi.enc) (widthOf fi.enc) s.ibLen.toNat →
        code = 4 ∧ info = BitVec.ofNat 64 (k * widthOf fi.enc)) ∧
      (¬ spanOutside (k * widthOf fi.enc) (widthOf fi.enc) s.ibLen.toNat →
        code = 5 ∧ info = BitVec.ofNat 64 (k * widthOf fo.enc)) ∧
      (∀ i, i < k →
        sampleIn fo m (i * widthOf fo.enc) = convert fi.enc fo.enc (sampleIn fi s.ib (i * widthOf fi.enc))) ∧
      ∀ a, batchBytes k (widthOf fo.enc) ≤ a → m.read a = s.ob.read a

/-- Statelessness: two BATCHes with the same formats and N that both complete, on IBs that agree in the footprint, write the
same OB bytes and leave the same cursors and CNT, whatever else differs (44_dispatch.md rule R233). -/
def Obligations.BatchIsStateless : Prop :=
  ∀ (s s' t t' : State) (fi fo : WireFormat), s.inFmt = fi.code → s.outFmt = fo.code →
    s'.inFmt = s.inFmt → s'.outFmt = s.outFmt → s'.n = s.n → s.halted = false → s'.halted = false →
    (∀ a, a < batchBytes s.n.toNat (widthOf fi.enc) → s'.ib.read a = s.ib.read a) →
    exec .batch s = .next t → exec .batch s' = .next t' → t.halted = false → t'.halted = false →
    t'.ibo = t.ibo ∧ t'.obo = t.obo ∧ t'.cnt = t.cnt ∧
      ∀ a, a < batchBytes s.n.toNat (widthOf fo.enc) → t'.ob.read a = t.ob.read a

/-- BATCH neither reads nor writes V0 to V3 or their written flags: they are unchanged, and other values in them change nothing
else (44_dispatch.md rule R229). -/
def Obligations.BatchIgnoresSampleRegisters : Prop :=
  ∀ (s t : State) (g : SampleRegs), exec .batch s = .next t →
    t.regs = s.regs ∧ exec .batch { s with regs := g } = .next { t with regs := g }

/-- N = 0 with a valid configuration sets RESOLVED, clears CFG_ERR, the cursors and CNT, and does nothing else, whatever the
buffer lengths (44_dispatch.md rule R234). -/
def Obligations.BatchOfNoSamples : Prop :=
  ∀ (s : State) (fi fo : WireFormat), s.inFmt = fi.code → s.outFmt = fo.code → s.n = 0 →
    exec .batch s = .next { s with
      ibo := 0
      obo := 0
      cnt := 0
      status := { s.status with resolved := true, cfgErr := false } }
end

