-- ==== Sys2Proof/Laws/Fields.lean ====
section
/-! SUPPORT. What the field and extension functions of Operands.lean do, bit by bit and as numbers, and the numbers that hold
of every encoding. -/

namespace Sys2Proof.Machine

/-! ## Bits of fields -/

theorem testBit_bitField (x hi lo j : Nat) :
    (bitField x hi lo).testBit j = (decide (j < hi - lo + 1) && x.testBit (lo + j)) := by
  simp [bitField, Nat.testBit_mod_two_pow, Nat.testBit_div_two_pow, Nat.add_comm]

theorem bitField_lt (x hi lo : Nat) : bitField x hi lo < 2 ^ (hi - lo + 1) := Nat.mod_lt _ (by positivity)

theorem testBit_uval (d : Nat) (x : Word) (j : Nat) : (uval d x).testBit j = (decide (j < d) && x.getLsbD j) := by
  simp [uval, Nat.testBit_mod_two_pow, BitVec.getLsbD]

theorem uval_lt (d : Nat) (x : Word) : uval d x < 2 ^ d := Nat.mod_lt _ (by positivity)

theorem getLsbD_zext64 (v j : Nat) : (zext64 v).getLsbD j = (decide (j < 64) && v.testBit j) := by
  simp [zext64, BitVec.getLsbD_ofNat]

theorem toNat_zext64 (v : Nat) (h : v < 2 ^ 64) : (zext64 v).toNat = v := by
  rw [zext64, BitVec.toNat_ofNat, Nat.mod_eq_of_lt h]

/-! ## Signed values -/

/-- The signed value of a field is the signed value of the bit vector it makes. -/
theorem svalNat_eq_toInt (d y : Nat) (h : y < 2 ^ d) : svalNat d y = (BitVec.ofNat d y).toInt := by
  rw [BitVec.toInt_eq_msb_cond]
  rcases Nat.eq_zero_or_pos d with rfl | hd
  · have : y = 0 := by omega
    subst this
    simp [svalNat]
  · have hm : (BitVec.ofNat d y).msb = y.testBit (d - 1) := by
      rw [BitVec.msb_eq_getLsbD_last, BitVec.getLsbD_ofNat]
      simp only [decide_eq_true (by omega : d - 1 < d), Bool.true_and]
    rw [hm]
    simp [svalNat, Nat.mod_eq_of_lt h]

theorem sval_eq_toInt (d : Nat) (x : Word) : sval d x = (x.setWidth d).toInt := by
  rw [sval, svalNat_eq_toInt d _ (uval_lt d x)]
  congr 1
  apply BitVec.eq_of_toNat_eq
  simp [uval]

theorem svalNat_bounds (d y : Nat) (h : y < 2 ^ d) :
    -2 ^ (d - 1) ≤ svalNat d y ∧ svalNat d y < 2 ^ (d - 1) := by
  rw [svalNat_eq_toInt d y h]
  have h1 := @BitVec.toInt_lt d (BitVec.ofNat d y)
  have h2 := @BitVec.le_toInt d (BitVec.ofNat d y)
  exact ⟨h2, h1⟩

theorem sval_bounds (d : Nat) (x : Word) : -2 ^ (d - 1) ≤ sval d x ∧ sval d x < 2 ^ (d - 1) :=
  svalNat_bounds d _ (uval_lt d x)

/-- A signed value in the range of a register is read back from its canonical form. -/
theorem toInt_ofSigned (r : Int) (h1 : -2 ^ 63 ≤ r) (h2 : r < 2 ^ 63) : (ofSigned r).toInt = r := by
  rw [ofSigned, BitVec.toInt_ofInt]
  exact Int.bmod_eq_of_le (by norm_num at *; omega) (by norm_num at *; omega)

/-- The bits of a sign-extended field: its own bits, then its top bit. -/
theorem getLsbD_ofSigned_svalNat (d y j : Nat) (hd : 0 < d) (h : y < 2 ^ d) :
    (ofSigned (svalNat d y)).getLsbD j = (decide (j < 64) && (if j < d then y.testBit j else y.testBit (d - 1))) := by
  rw [svalNat_eq_toInt d y h]
  change ((BitVec.ofNat d y).signExtend 64).getLsbD j = _
  rw [BitVec.getLsbD_signExtend, BitVec.msb_eq_getLsbD_last]
  simp only [BitVec.getLsbD_ofNat, decide_eq_true (by omega : d - 1 < d), Bool.true_and]
  split <;> simp_all

/-! ## Encodings -/

theorem depthOf_pos (e : Encoding) : 8 ≤ depthOf e := by cases e <;> decide

theorem depthOf_le (e : Encoding) : depthOf e ≤ 64 := by cases e <;> decide

theorem depthOf_le_widthOf (e : Encoding) : depthOf e ≤ widthOf e := by cases e <;> decide

theorem widthOf_le (e : Encoding) : widthOf e ≤ 64 := by cases e <;> decide

theorem widthOf_pos (e : Encoding) : 8 ≤ widthOf e := by cases e <;> decide

/-- An aligned-class width is a whole number of octets (30_encoding.md rule R84). -/
theorem widthOf_aligned (e : Encoding) (h : classOf e = .aligned) : widthOf e % 8 = 0 := by
  cases e <;> first | decide | exact absurd h (by decide)

/-- A packed-class width exceeds one octet and is its own depth (rule R84). -/
theorem widthOf_packed (e : Encoding) (h : classOf e = .packed) : 8 < widthOf e ∧ widthOf e = depthOf e := by
  cases e <;> first | decide | exact absurd h (by decide)

theorem depthOf_mem (e : Encoding) : depthOf e ∈ signDepths := by cases e <;> decide

/-- The bits of an extended sample: the low D bits, then copies of the top one for a signed integer and zeros otherwise
(42_pack_unpack.md rule R156). -/
theorem getLsbD_extend (e : Encoding) (x j : Nat) :
    (extend e x).getLsbD j =
      (decide (j < 64) &&
        (if j < depthOf e then x.testBit j else decide (kindOf e = .sint) && x.testBit (depthOf e - 1))) := by
  have hp := depthOf_pos e
  have hlt : x % 2 ^ depthOf e < 2 ^ depthOf e := Nat.mod_lt _ (by positivity)
  have hd : (x % 2 ^ depthOf e).testBit (depthOf e - 1) = x.testBit (depthOf e - 1) := by
    simp [Nat.testBit_mod_two_pow, show depthOf e - 1 < depthOf e by omega]
  unfold extend
  cases hk : kindOf e
  · simp only [getLsbD_ofSigned_svalNat _ _ _ (by omega : 0 < depthOf e) hlt, hd]
    by_cases hj : j < depthOf e <;> simp [hj, Nat.testBit_mod_two_pow]
  all_goals
    simp only [getLsbD_zext64, Nat.testBit_mod_two_pow]
    by_cases hj : j < depthOf e <;> simp [hj]

/-- Extending reads only the low D bits. -/
theorem extend_congr (e : Encoding) (x y : Nat) (h : ∀ j, j < depthOf e → x.testBit j = y.testBit j) :
    extend e x = extend e y := by
  apply BitVec.eq_of_getLsbD_eq
  intro j hj
  have hp := depthOf_pos e
  rw [getLsbD_extend, getLsbD_extend]
  by_cases hd : j < depthOf e
  · simp [hd, h j hd]
  · simp [hd, h (depthOf e - 1) (by omega)]

/-- An extended sample is canonical (10_state.md rule R22). -/
theorem canonical_extend (e : Encoding) (x : Nat) : canonical e (extend e x) := by
  have hp := depthOf_le e
  refine extend_congr e _ x (fun j hj => ?_)
  have h := getLsbD_extend e x j
  simp only [show j < 64 by omega, decide_true, hj, if_true, Bool.true_and] at h
  exact h

end Sys2Proof.Machine
end

