-- ==== Sys2Proof/Laws/Float.lean ====
section
/-! SUPPORT. The float formats as rational numbers: what a pattern is worth, and that rounding gives the nearest pattern
(00_scope.md rule R15). -/

namespace Sys2Proof.Machine

/-! ## Integer parts -/

theorem two_zpow_pos (e : Int) : (0 : ℚ) < (2 : ℚ) ^ e := zpow_pos (by norm_num) e

/-- The integer part of a scaled significand. -/
theorem floorScale_eq_floor (m : Nat) (e : Int) : (floorScale m e : Int) = ⌊(m : ℚ) * (2 : ℚ) ^ e⌋ := by
  unfold floorScale
  split
  · rename_i h
    lift e to ℕ using h
    have : (m : ℚ) * (2 : ℚ) ^ (e : Int) = ((m * 2 ^ e : Nat) : ℚ) := by push_cast; rw [zpow_natCast]
    rw [this, Int.floor_natCast]
    simp
  · rename_i h
    obtain ⟨k, rfl⟩ : ∃ k : ℕ, e = -(k : Int) := ⟨(-e).toNat, by omega⟩
    have : (m : ℚ) * (2 : ℚ) ^ (-(k : Int)) = (m : ℚ) / ((2 ^ k : Nat) : ℚ) := by
      rw [zpow_neg, zpow_natCast]; push_cast; rw [div_eq_mul_inv]
    rw [this, Rat.floor_natCast_div_natCast]
    simp

/-! ## Rounding to an integer -/

/-- Half-even rounding is within one half, and at exactly one half it is even. -/
theorem roundHalfEven_spec (m k : Nat) :
    2 * m ≤ 2 * (roundHalfEven m k * 2 ^ k) + 2 ^ k ∧ 2 * (roundHalfEven m k * 2 ^ k) ≤ 2 * m + 2 ^ k ∧
      ((2 * m = 2 * (roundHalfEven m k * 2 ^ k) + 2 ^ k ∨ 2 * (roundHalfEven m k * 2 ^ k) = 2 * m + 2 ^ k) →
        roundHalfEven m k % 2 = 0) := by
  have hdiv := Nat.div_add_mod m (2 ^ k)
  have hlt : m % 2 ^ k < 2 ^ k := Nat.mod_lt _ (by positivity)
  unfold roundHalfEven
  simp only
  generalize m / 2 ^ k = q at *
  generalize m % 2 ^ k = r at *
  generalize 2 ^ k = p at *
  have e1 : (q + 1) * p = p * q + p := by ring
  have e2 : q * p = p * q := by ring
  split
  · rw [e1]
    refine ⟨by omega, by omega, fun h => by omega⟩
  · rw [e2]
    refine ⟨by omega, by omega, fun h => by omega⟩

/-- Rounding to a unit is within half a unit, and at exactly half a unit it is even. -/
theorem roundToUnit_spec (m : Nat) (e u : Int) :
    |(roundToUnit m e u : ℚ) - (m : ℚ) * (2 : ℚ) ^ (e - u)| ≤ 1 / 2 ∧
      (|(roundToUnit m e u : ℚ) - (m : ℚ) * (2 : ℚ) ^ (e - u)| = 1 / 2 → roundToUnit m e u % 2 = 0) := by
  unfold roundToUnit
  split
  · rename_i h
    obtain ⟨k, hk⟩ : ∃ k : ℕ, e - u = k := ⟨(e - u).toNat, by omega⟩
    rw [hk, zpow_natCast]
    simp
  · rename_i h
    obtain ⟨k, hk⟩ : ∃ k : ℕ, u - e = k := ⟨(u - e).toNat, by omega⟩
    rw [show e - u = -(k : Int) by omega, hk, zpow_neg, zpow_natCast]
    simp only [Int.toNat_natCast]
    obtain ⟨h1, h2, h3⟩ := roundHalfEven_spec m k
    have hp : (0 : ℚ) < 2 ^ k := by positivity
    have e1 : (roundHalfEven m k : ℚ) - (m : ℚ) * (2 ^ k)⁻¹ =
        ((roundHalfEven m k : ℚ) * 2 ^ k - m) / 2 ^ k := by field_simp
    have c1 : (2 : ℚ) * m ≤ 2 * (roundHalfEven m k * 2 ^ k) + 2 ^ k := by exact_mod_cast h1
    have c2 : (2 : ℚ) * (roundHalfEven m k * 2 ^ k) ≤ 2 * m + 2 ^ k := by exact_mod_cast h2
    rw [e1, abs_div, abs_of_pos hp]
    refine ⟨?_, fun h => h3 ?_⟩
    · rw [div_le_div_iff₀ hp (by norm_num), one_mul, ← le_div_iff₀ (by norm_num), abs_le]
      exact ⟨by linarith, by linarith⟩
    · rw [div_eq_div_iff hp.ne' (by norm_num)] at h
      rcases abs_cases ((roundHalfEven m k : ℚ) * 2 ^ k - m) with ⟨ha, -⟩ | ⟨ha, -⟩
      · right
        rw [ha] at h
        have : (2 : ℚ) * (roundHalfEven m k * 2 ^ k) = 2 * m + 2 ^ k := by linarith
        exact_mod_cast this
      · left
        rw [ha] at h
        have : (2 : ℚ) * m = 2 * (roundHalfEven m k * 2 ^ k) + 2 ^ k := by linarith
        exact_mod_cast this

/-- A rounded significand is nearer than every other integer, and nearer by a whole unit from any tie. -/
theorem roundToUnit_nearest (m : Nat) (e u : Int) (j : Int) :
    |(roundToUnit m e u : ℚ) - (m : ℚ) * (2 : ℚ) ^ (e - u)| ≤ |(j : ℚ) - (m : ℚ) * (2 : ℚ) ^ (e - u)| ∧
      (|(j : ℚ) - (m : ℚ) * (2 : ℚ) ^ (e - u)| = |(roundToUnit m e u : ℚ) - (m : ℚ) * (2 : ℚ) ^ (e - u)| →
        j = roundToUnit m e u ∨ roundToUnit m e u % 2 = 0) := by
  obtain ⟨h1, h2⟩ := roundToUnit_spec m e u
  generalize (m : ℚ) * (2 : ℚ) ^ (e - u) = q at *
  generalize roundToUnit m e u = n at *
  by_cases hj : j = n
  · subst hj
    simp
  · have hd : (1 : ℚ) ≤ |(j : ℚ) - (n : ℚ)| := by
      have : (1 : Int) ≤ |j - n| := Int.one_le_abs (sub_ne_zero.2 hj)
      exact_mod_cast this
    have htri : |(j : ℚ) - n| ≤ |(j : ℚ) - q| + |(n : ℚ) - q| := by
      have := abs_sub_abs_le_abs_sub ((j : ℚ) - q) ((n : ℚ) - q)
      have h3 := abs_sub ((j : ℚ) - q) ((n : ℚ) - q)
      have h4 : (j : ℚ) - q - ((n : ℚ) - q) = j - n := by ring
      rw [h4] at h3
      exact h3
    refine ⟨by linarith, fun h => Or.inr (h2 ?_)⟩
    linarith

/-! ## The last place -/

theorem minExp_le_lastPlace (f : FloatFormat) (m : Nat) (e : Int) : f.minExp ≤ f.lastPlace m e := le_max_left _ _

/-- The scaled significand is below the next power of two. -/
theorem scaled_lt (f : FloatFormat) (m : Nat) (e : Int) (hm : m ≠ 0) :
    (m : ℚ) * (2 : ℚ) ^ (e - f.lastPlace m e) < 2 ^ (f.fracBits + 1) := by
  have h1 : (m : ℚ) < (2 : ℚ) ^ ((Nat.log2 m : Int) + 1) := by
    have : m < 2 ^ (Nat.log2 m + 1) := Nat.lt_log2_self
    have h2 : (m : ℚ) < (2 : ℚ) ^ (Nat.log2 m + 1) := by exact_mod_cast this
    rwa [← zpow_natCast, Nat.cast_add, Nat.cast_one] at h2
  have h3 : e - f.lastPlace m e ≤ f.fracBits - Nat.log2 m := by
    have : e + (Nat.log2 m : Int) - f.fracBits ≤ f.lastPlace m e := le_max_right _ _
    omega
  calc (m : ℚ) * (2 : ℚ) ^ (e - f.lastPlace m e)
      ≤ (m : ℚ) * (2 : ℚ) ^ ((f.fracBits : Int) - Nat.log2 m) := by
        gcongr
        norm_num
    _ < (2 : ℚ) ^ ((Nat.log2 m : Int) + 1) * (2 : ℚ) ^ ((f.fracBits : Int) - Nat.log2 m) := by
        gcongr
    _ = 2 ^ (f.fracBits + 1) := by
        rw [← zpow_add₀ (by norm_num), ← zpow_natCast]
        congr 1
        push_cast
        ring

/-- Above the subnormals the scaled significand has its leading bit in place. -/
theorem le_scaled (f : FloatFormat) (m : Nat) (e : Int) (hm : m ≠ 0) (h : f.minExp < f.lastPlace m e) :
    (2 : ℚ) ^ f.fracBits ≤ (m : ℚ) * (2 : ℚ) ^ (e - f.lastPlace m e) := by
  have hu : f.lastPlace m e = e + (Nat.log2 m : Int) - f.fracBits := by
    have := max_choice f.minExp (e + (Nat.log2 m : Int) - f.fracBits)
    unfold FloatFormat.lastPlace at h ⊢
    rcases this with h1 | h1
    · rw [h1] at h
      exact absurd h (lt_irrefl _)
    · exact h1
  have h1 : (2 : ℚ) ^ (Nat.log2 m : Int) ≤ (m : ℚ) := by
    rw [zpow_natCast]
    exact_mod_cast Nat.log2_self_le hm
  calc (2 : ℚ) ^ f.fracBits = (2 : ℚ) ^ (Nat.log2 m : Int) * (2 : ℚ) ^ (e - f.lastPlace m e) := by
        rw [← zpow_add₀ (by norm_num), ← zpow_natCast, hu]
        congr 1
        ring
    _ ≤ (m : ℚ) * (2 : ℚ) ^ (e - f.lastPlace m e) := by
        gcongr

theorem roundToUnit_le (f : FloatFormat) (m : Nat) (e : Int) (hm : m ≠ 0) :
    roundToUnit m e (f.lastPlace m e) ≤ 2 ^ (f.fracBits + 1) := by
  have h1 := (abs_le.1 (roundToUnit_spec m e (f.lastPlace m e)).1).2
  have h2 := scaled_lt f m e hm
  have h3 : (roundToUnit m e (f.lastPlace m e) : ℚ) < ((2 ^ (f.fracBits + 1) + 1 : Nat) : ℚ) := by
    push_cast
    linarith
  have h4 : roundToUnit m e (f.lastPlace m e) < 2 ^ (f.fracBits + 1) + 1 := by exact_mod_cast h3
  omega

theorem le_roundToUnit (f : FloatFormat) (m : Nat) (e : Int) (hm : m ≠ 0) (h : f.minExp < f.lastPlace m e) :
    2 ^ f.fracBits ≤ roundToUnit m e (f.lastPlace m e) := by
  have h1 := (abs_le.1 (roundToUnit_spec m e (f.lastPlace m e)).1).1
  have h2 := le_scaled f m e hm h
  have h3 : ((2 ^ f.fracBits : Nat) : ℚ) < ((roundToUnit m e (f.lastPlace m e) + 1 : Nat) : ℚ) := by
    push_cast
    linarith
  have h4 : 2 ^ f.fracBits < roundToUnit m e (f.lastPlace m e) + 1 := by exact_mod_cast h3
  omega

/-! ## Patterns -/

/-- What a sign bit above a magnitude pattern is worth. -/
theorem value_withSign (f : FloatFormat) (neg : Bool) (mag : Nat) (h : mag < 2 ^ (f.expBits + f.fracBits)) :
    f.value (f.withSign neg mag) =
      if mag / 2 ^ f.fracBits = f.expMax then (if mag % 2 ^ f.fracBits = 0 then .inf neg else .nan)
      else if mag / 2 ^ f.fracBits = 0 then .finite neg (mag % 2 ^ f.fracBits) f.minExp
      else .finite neg (2 ^ f.fracBits + mag % 2 ^ f.fracBits) (f.minExp + (mag / 2 ^ f.fracBits - 1 : Nat)) := by
  have hq : mag / 2 ^ f.fracBits < 2 ^ f.expBits := by
    rw [Nat.div_lt_iff_lt_mul (by positivity), ← pow_add]
    exact h
  have h1 : f.withSign neg mag % 2 ^ f.fracBits = mag % 2 ^ f.fracBits := by
    cases neg
    · simp [FloatFormat.withSign]
    · simp only [FloatFormat.withSign, if_true, pow_add]
      rw [Nat.add_mod, Nat.mul_mod_left]
      simp
  have h2 : f.withSign neg mag / 2 ^ f.fracBits % 2 ^ f.expBits = mag / 2 ^ f.fracBits := by
    cases neg
    · simp only [FloatFormat.withSign, Bool.false_eq_true, if_false, Nat.zero_add]
      exact Nat.mod_eq_of_lt hq
    · simp only [FloatFormat.withSign, if_true, pow_add]
      rw [Nat.add_comm, Nat.add_mul_div_right _ _ (by positivity), Nat.add_mod_right, Nat.mod_eq_of_lt hq]
  have h3 : (f.withSign neg mag).testBit (f.expBits + f.fracBits) = neg := by
    cases neg
    · simp only [FloatFormat.withSign, Bool.false_eq_true, if_false, Nat.zero_add]
      exact Nat.testBit_lt_two_pow h
    · simp only [FloatFormat.withSign, if_true]
      rw [Nat.testBit_two_pow_add_eq, Nat.testBit_lt_two_pow h]
      rfl
  unfold FloatFormat.value
  simp only [h1, h2, h3]

theorem infMag_lt (f : FloatFormat) : f.infMag < 2 ^ (f.expBits + f.fracBits) := by
  unfold FloatFormat.infMag FloatFormat.expMax
  rw [pow_add]
  have : 0 < 2 ^ f.expBits := by positivity
  have h2 : 0 < 2 ^ f.fracBits := by positivity
  exact Nat.mul_lt_mul_of_pos_right (by omega) h2

theorem value_inf (f : FloatFormat) (neg : Bool) : f.value (f.withSign neg f.infMag) = .inf neg := by
  rw [value_withSign f neg _ (infMag_lt f)]
  have h2 : 0 < 2 ^ f.fracBits := by positivity
  simp [FloatFormat.infMag, Nat.mul_div_left _ h2]

/-- The sign of a finite float as a factor. -/
def signFactor (neg : Bool) : ℚ := if neg then -1 else 1

/-- A magnitude pattern made of a significand and an exponent: its value, also when the significand has carried. -/
theorem value_pattern (f : FloatFormat) (neg : Bool) (k n : Nat) (hn : n ≤ 2 ^ (f.fracBits + 1))
    (hk : 0 < k → 2 ^ f.fracBits ≤ n) (hfin : k * 2 ^ f.fracBits + n < f.infMag) :
    (f.value (f.withSign neg (k * 2 ^ f.fracBits + n))).isFinite = true ∧
      (f.value (f.withSign neg (k * 2 ^ f.fracBits + n))).toRat =
        signFactor neg * ((n : ℚ) * (2 : ℚ) ^ (f.minExp + k)) := by
  have hP : 0 < 2 ^ f.fracBits := by positivity
  rw [value_withSign f neg _ (lt_trans hfin (infMag_lt f))]
  have hq : (k * 2 ^ f.fracBits + n) / 2 ^ f.fracBits < f.expMax := by
    rw [Nat.div_lt_iff_lt_mul hP]
    exact hfin
  rw [if_neg (by omega)]
  have hdiv : (k * 2 ^ f.fracBits + n) / 2 ^ f.fracBits = k + n / 2 ^ f.fracBits := by
    rw [Nat.add_comm, Nat.add_mul_div_right _ _ hP, Nat.add_comm]
  have hmod : (k * 2 ^ f.fracBits + n) % 2 ^ f.fracBits = n % 2 ^ f.fracBits := by
    rw [Nat.add_comm, Nat.add_mul_mod_self_right]
  rw [hdiv, hmod]
  rw [pow_succ] at hn
  rcases Nat.lt_or_ge n (2 ^ f.fracBits) with hlt | hge
  · have hk0 : k = 0 := by
      by_contra h
      have := hk (by omega)
      omega
    subst hk0
    simp [Nat.div_eq_of_lt hlt, Nat.mod_eq_of_lt hlt, FloatVal.isFinite, FloatVal.toRat, signFactor]
  · rcases Nat.lt_or_ge n (2 ^ f.fracBits * 2) with hlt2 | hge2
    · have e1 : n / 2 ^ f.fracBits = 1 := by
        rw [Nat.div_eq_iff hP]
        omega
      have e2 : n % 2 ^ f.fracBits = n - 2 ^ f.fracBits := by
        have := Nat.div_add_mod n (2 ^ f.fracBits)
        rw [e1] at this
        omega
      rw [e1, e2, if_neg (by omega)]
      refine ⟨rfl, ?_⟩
      simp only [FloatVal.toRat, signFactor]
      rw [show 2 ^ f.fracBits + (n - 2 ^ f.fracBits) = n by omega, show k + 1 - 1 = k by omega]
    · have e0 : n = 2 ^ f.fracBits * 2 := by omega
      have e1 : n / 2 ^ f.fracBits = 2 := by rw [e0, Nat.mul_div_cancel_left _ hP]
      have e2 : n % 2 ^ f.fracBits = 0 := by rw [e0, Nat.mul_mod_right]
      rw [e1, e2, if_neg (by omega)]
      refine ⟨rfl, ?_⟩
      simp only [FloatVal.toRat, signFactor]
      rw [show k + 2 - 1 = k + 1 by omega, e0]
      push_cast
      rw [show f.minExp + ((k : Int) + 1) = f.minExp + k + 1 by ring, zpow_add₀ (by norm_num) (f.minExp + k) 1]
      simp only [zpow_one]
      ring

/-- The magnitude of a rounded number, before the limit at infinity. -/
theorem roundMag_eq (f : FloatFormat) (m : Nat) (e : Int) (hm : m ≠ 0) :
    f.roundMag m e = min ((f.lastPlace m e - f.minExp).toNat * 2 ^ f.fracBits + roundToUnit m e (f.lastPlace m e))
      f.infMag := by
  simp [FloatFormat.roundMag, hm]

/-- What a rounded number is worth, short of infinity: a whole number of last places. -/
theorem value_round (f : FloatFormat) (neg : Bool) (m : Nat) (e : Int) (hm : m ≠ 0) (hfin : f.roundMag m e < f.infMag) :
    (f.value (f.round neg m e)).isFinite = true ∧
      (f.value (f.round neg m e)).toRat =
        signFactor neg * ((roundToUnit m e (f.lastPlace m e) : ℚ) * (2 : ℚ) ^ f.lastPlace m e) := by
  have hmag := roundMag_eq f m e hm
  have hu := minExp_le_lastPlace f m e
  rw [hmag] at hfin
  have hlt : (f.lastPlace m e - f.minExp).toNat * 2 ^ f.fracBits + roundToUnit m e (f.lastPlace m e) < f.infMag := by
    omega
  have h := value_pattern f neg (f.lastPlace m e - f.minExp).toNat (roundToUnit m e (f.lastPlace m e))
    (roundToUnit_le f m e hm) (fun h0 => le_roundToUnit f m e hm (by omega)) hlt
  rw [FloatFormat.round, hmag, min_eq_left hlt.le]
  rw [show f.minExp + ((f.lastPlace m e - f.minExp).toNat : Int) = f.lastPlace m e by omega] at h
  exact h

/-- A number too large for the format rounds to an infinity. -/
theorem value_round_inf (f : FloatFormat) (neg : Bool) (m : Nat) (e : Int) (h : f.roundMag m e = f.infMag) :
    f.value (f.round neg m e) = .inf neg := by
  rw [FloatFormat.round, h, value_inf]

theorem roundMag_le (f : FloatFormat) (m : Nat) (e : Int) : f.roundMag m e ≤ f.infMag := by
  unfold FloatFormat.roundMag
  split
  · exact Nat.zero_le _
  · exact min_le_right _ _

theorem value_round_zero (f : FloatFormat) (neg : Bool) (e : Int) (hf : 0 < f.expBits) :
    f.value (f.round neg 0 e) = .finite neg 0 f.minExp := by
  have hmax : f.expMax ≠ 0 := by
    unfold FloatFormat.expMax
    have : 2 ^ 1 ≤ 2 ^ f.expBits := Nat.pow_le_pow_right (by omega) hf
    omega
  rw [FloatFormat.round, show f.roundMag 0 e = 0 by simp [FloatFormat.roundMag], value_withSign f neg 0 (by positivity)]
  simp [hmax.symm]

/-- The number is represented exactly: it is a significand of the format's width in units the format has. -/
theorem value_round_exact (f : FloatFormat) (neg : Bool) (m : Nat) (e : Int) (j : Nat) (w : Int) (hf : 2 ≤ f.expBits)
    (hj : j < 2 ^ (f.fracBits + 1)) (hw : f.minExp ≤ w) (hw2 : w + f.fracBits ≤ 2 ^ (f.expBits - 1) - 1)
    (heq : (m : ℚ) * (2 : ℚ) ^ e = (j : ℚ) * (2 : ℚ) ^ w) :
    (f.value (f.round neg m e)).isFinite = true ∧
      (f.value (f.round neg m e)).toRat = signFactor neg * ((m : ℚ) * (2 : ℚ) ^ e) := by
  have he := two_zpow_pos e
  have hwp := two_zpow_pos w
  by_cases hm : m = 0
  · subst hm
    rw [value_round_zero f neg e (by omega)]
    simp [FloatVal.isFinite, FloatVal.toRat]
  have hj0 : j ≠ 0 := by
    rintro rfl
    have : (m : ℚ) ≠ 0 := by exact_mod_cast hm
    simp [this, he.ne'] at heq
  have hbits : ∀ a : Nat, a ≠ 0 → (2 : ℚ) ^ (Nat.log2 a : Int) ≤ a ∧ (a : ℚ) < (2 : ℚ) ^ ((Nat.log2 a : Int) + 1) := by
    intro a ha
    refine ⟨?_, ?_⟩
    · rw [zpow_natCast]
      exact_mod_cast Nat.log2_self_le ha
    · have : a < 2 ^ (Nat.log2 a + 1) := Nat.lt_log2_self
      have h2 : (a : ℚ) < (2 : ℚ) ^ (Nat.log2 a + 1) := by exact_mod_cast this
      rwa [← zpow_natCast, Nat.cast_add, Nat.cast_one] at h2
  have hlog : (Nat.log2 m : Int) + e = Nat.log2 j + w := by
    obtain ⟨a1, a2⟩ := hbits m hm
    obtain ⟨b1, b2⟩ := hbits j hj0
    have c1 : (2 : ℚ) ^ ((Nat.log2 m : Int) + e) < (2 : ℚ) ^ ((Nat.log2 j : Int) + 1 + w) := by
      rw [zpow_add₀ (by norm_num), zpow_add₀ (by norm_num) ((Nat.log2 j : Int) + 1)]
      calc (2 : ℚ) ^ (Nat.log2 m : Int) * 2 ^ e ≤ m * 2 ^ e := by gcongr
        _ = j * 2 ^ w := heq
        _ < _ := by gcongr
    have c2 : (2 : ℚ) ^ ((Nat.log2 j : Int) + w) < (2 : ℚ) ^ ((Nat.log2 m : Int) + 1 + e) := by
      rw [zpow_add₀ (by norm_num), zpow_add₀ (by norm_num) ((Nat.log2 m : Int) + 1)]
      calc (2 : ℚ) ^ (Nat.log2 j : Int) * 2 ^ w ≤ j * 2 ^ w := by gcongr
        _ = m * 2 ^ e := heq.symm
        _ < _ := by gcongr
    have d1 := (zpow_lt_zpow_iff_right₀ (by norm_num : (1 : ℚ) < 2)).1 c1
    have d2 := (zpow_lt_zpow_iff_right₀ (by norm_num : (1 : ℚ) < 2)).1 c2
    omega
  have hjlog : Nat.log2 j ≤ f.fracBits := by
    have := (Nat.log2_lt hj0).2 hj
    omega
  have hule : f.lastPlace m e ≤ w := by
    unfold FloatFormat.lastPlace
    omega
  have hq : (m : ℚ) * (2 : ℚ) ^ (e - f.lastPlace m e) = ((j * 2 ^ (w - f.lastPlace m e).toNat : Nat) : ℚ) := by
    push_cast
    rw [← zpow_natCast (2 : ℚ) (w - f.lastPlace m e).toNat, show ((w - f.lastPlace m e).toNat : Int) =
      w - f.lastPlace m e by omega, zpow_sub₀ (by norm_num), zpow_sub₀ (by norm_num), ← mul_div_assoc, ← mul_div_assoc, heq]
  have hn : roundToUnit m e (f.lastPlace m e) = j * 2 ^ (w - f.lastPlace m e).toNat := by
    have h1 := (roundToUnit_spec m e (f.lastPlace m e)).1
    rw [hq] at h1
    by_contra hne
    have h2 : (1 : Int) ≤ |(roundToUnit m e (f.lastPlace m e) : Int) - (j * 2 ^ (w - f.lastPlace m e).toNat : Nat)| :=
      Int.one_le_abs (sub_ne_zero.2 (by exact_mod_cast hne))
    have h3 : (1 : ℚ) ≤ |(roundToUnit m e (f.lastPlace m e) : ℚ) - (j * 2 ^ (w - f.lastPlace m e).toNat : Nat)| := by
      exact_mod_cast h2
    linarith
  have hfin : f.roundMag m e < f.infMag := by
    rw [roundMag_eq f m e hm]
    apply lt_of_le_of_lt (min_le_left _ _)
    have hn2 : roundToUnit m e (f.lastPlace m e) < 2 ^ (f.fracBits + 1) := by
      have h1 : (roundToUnit m e (f.lastPlace m e) : ℚ) < 2 ^ (f.fracBits + 1) := by
        rw [hn, ← hq]
        exact scaled_lt f m e hm
      exact_mod_cast h1
    have hk : (f.lastPlace m e - f.minExp).toNat ≤ 2 ^ f.expBits - 3 := by
      have hE : (2 : Int) ^ f.expBits = 2 * 2 ^ (f.expBits - 1) := by
        rw [← pow_succ']
        congr 1
        omega
      have hE2 : (2 : Nat) ^ 2 ≤ 2 ^ f.expBits := Nat.pow_le_pow_right (by omega) hf
      have hmin : f.minExp = 2 - 2 ^ (f.expBits - 1) - f.fracBits := rfl
      zify [show 3 ≤ 2 ^ f.expBits by omega]
      omega
    have hE3 : (2 : Nat) ^ 2 ≤ 2 ^ f.expBits := Nat.pow_le_pow_right (by omega) hf
    unfold FloatFormat.infMag FloatFormat.expMax
    calc (f.lastPlace m e - f.minExp).toNat * 2 ^ f.fracBits + roundToUnit m e (f.lastPlace m e)
        < (2 ^ f.expBits - 3) * 2 ^ f.fracBits + 2 ^ (f.fracBits + 1) :=
          Nat.add_lt_add_of_le_of_lt (Nat.mul_le_mul_right _ hk) hn2
      _ = (2 ^ f.expBits - 1) * 2 ^ f.fracBits := by
          rw [pow_succ, Nat.mul_comm (2 ^ f.fracBits) 2, ← Nat.add_mul]
          congr 1
          omega
  obtain ⟨r1, r2⟩ := value_round f neg m e hm hfin
  refine ⟨r1, ?_⟩
  rw [r2, hn, ← hq, mul_assoc, ← zpow_add₀ (by norm_num)]
  congr 3
  ring

/-- Every finite value of a format is a signed significand of its width in units it has. -/
theorem value_finite_form (f : FloatFormat) (b : Nat) (neg : Bool) (m : Nat) (e : Int)
    (h : f.value b = .finite neg m e) : m < 2 ^ (f.fracBits + 1) ∧ f.minExp ≤ e := by
  have hP : 0 < 2 ^ f.fracBits := by positivity
  have hr : b % 2 ^ f.fracBits < 2 ^ f.fracBits := Nat.mod_lt _ hP
  unfold FloatFormat.value at h
  simp only at h
  rw [pow_succ]
  split at h
  · split at h <;> cases h
  · split at h
    · simp only [FloatVal.finite.injEq] at h
      omega
    · simp only [FloatVal.finite.injEq] at h
      omega

end Sys2Proof.Machine
end

