-- ==== Sys2Proof/Laws/Converter.lean ====
section
/-! SUPPORT. The sign converter and the integer half of the encoding converter as arithmetic on integers
(41_sign_converter.md rules R141 and R142, 43_convert.md rules R182 to R188), and the canonical form of every result. -/

namespace Sys2Proof.Machine

/-- The signed range of depth `d`. -/
def inSigned (d : Nat) (r : Int) : Prop := -2 ^ (d - 1) ≤ r ∧ r < 2 ^ (d - 1)

theorem two_pow_pred (d : Nat) (hd : 0 < d) : (2 : Int) ^ d = 2 * 2 ^ (d - 1) := by
  rw [← pow_succ']
  congr 1
  omega

/-! ## Sign converter -/

theorem toUnsigned_eq (d : Nat) (r : Int) (hd : 0 < d) (h : inSigned d r) :
    (toUnsigned d r : Int) = r + 2 ^ (d - 1) := by
  have h2 := two_pow_pred d hd
  obtain ⟨h1, h3⟩ := h
  unfold toUnsigned maxSigned
  rw [show r + (2 ^ (d - 1) - 1) + 1 = r + 2 ^ (d - 1) by ring, Int.emod_eq_of_lt (by omega) (by omega),
    Int.toNat_of_nonneg (by omega)]

theorem toUnsigned_lt (d : Nat) (r : Int) (hd : 0 < d) (h : inSigned d r) : toUnsigned d r < 2 ^ d := by
  have h1 := toUnsigned_eq d r hd h
  have h2 := two_pow_pred d hd
  have h3 := h.2
  zify
  omega

theorem toSigned_eq (d u : Nat) : toSigned d u = (u : Int) - 2 ^ (d - 1) := by
  unfold toSigned maxSigned
  ring

theorem toSigned_range (d u : Nat) (hd : 0 < d) (h : u < 2 ^ d) : inSigned d (toSigned d u) := by
  have h2 := two_pow_pred d hd
  have h3 : (u : Int) < 2 ^ d := by exact_mod_cast h
  rw [toSigned_eq]
  exact ⟨by omega, by omega⟩

/-- `ToSigned_D(ToUnsigned_D(s)) = s` (41_sign_converter.md rule R145). -/
theorem toSigned_toUnsigned (d : Nat) (r : Int) (hd : 0 < d) (h : inSigned d r) : toSigned d (toUnsigned d r) = r := by
  rw [toSigned_eq, toUnsigned_eq d r hd h]
  ring

/-- `ToUnsigned_D(ToSigned_D(u)) = u` (rule R145). -/
theorem toUnsigned_toSigned (d u : Nat) (hd : 0 < d) (h : u < 2 ^ d) : toUnsigned d (toSigned d u) = u := by
  have h1 := toUnsigned_eq d _ hd (toSigned_range d u hd h)
  rw [toSigned_eq] at h1 ⊢
  omega

/-! ## Registers of an integer encoding -/

theorem inSigned_mono (d e : Nat) (r : Int) (hle : d ≤ e) (h : inSigned d r) : inSigned e r := by
  have : (2 : Int) ^ (d - 1) ≤ 2 ^ (e - 1) := pow_le_pow_right₀ (by norm_num) (by omega)
  exact ⟨by have := h.1; omega, by have := h.2; omega⟩

theorem sval_ofSigned (d : Nat) (r : Int) (hd : 0 < d) (hd2 : d ≤ 64) (h : inSigned d r) : sval d (ofSigned r) = r := by
  have h64 := inSigned_mono d 64 r hd2 h
  rw [sval_eq_toInt, BitVec.toInt_setWidth, ofSigned]
  have h2 := two_pow_pred d hd
  obtain ⟨h1, h3⟩ := h
  rw [BitVec.toNat_ofInt]
  have hmod : ((r % (2 ^ 64 : Nat)).toNat : Int) = r % 2 ^ 64 := by
    rw [Int.toNat_of_nonneg (Int.emod_nonneg _ (by norm_num))]
    norm_num
  rw [hmod]
  have hdvd : ((2 ^ d : Nat) : Int) ∣ 2 ^ 64 := by
    push_cast
    exact pow_dvd_pow 2 hd2
  have hb : Int.bmod (r % 2 ^ 64) (2 ^ d) = Int.bmod r (2 ^ d) := by
    simp only [Int.bmod_def, Int.emod_emod_of_dvd _ hdvd]
  rw [hb]
  apply Int.bmod_eq_of_le
  · push_cast
    omega
  · push_cast
    omega

theorem sval_inSigned (d : Nat) (x : Word) : inSigned d (sval d x) := sval_bounds d x

theorem signedDomain_range (e : Encoding) (x : Word) : inSigned (depthOf e) (signedDomain e x) := by
  have hp := depthOf_pos e
  unfold signedDomain
  split
  · exact toSigned_range _ _ (by omega) (uval_lt _ _)
  all_goals exact sval_inSigned _ _

theorem extend_sint (e : Encoding) (x : Nat) (h : kindOf e = .sint) :
    extend e x = ofSigned (svalNat (depthOf e) (x % 2 ^ depthOf e)) := by
  simp [extend, h]

theorem extend_other (e : Encoding) (x : Nat) (h : kindOf e ≠ .sint) : extend e x = zext64 (x % 2 ^ depthOf e) := by
  unfold extend
  cases hk : kindOf e
  · exact absurd hk h
  all_goals rfl

theorem canonical_zext64 (e : Encoding) (u : Nat) (h : kindOf e ≠ .sint) (hu : u < 2 ^ depthOf e) :
    canonical e (zext64 u) := by
  have hle : (2 : Nat) ^ depthOf e ≤ 2 ^ 64 := Nat.pow_le_pow_right (by omega) (depthOf_le e)
  rw [canonical, extend_other e _ h, toNat_zext64 u (by omega), Nat.mod_eq_of_lt hu]

theorem canonical_ofSigned (e : Encoding) (r : Int) (h : kindOf e = .sint) (hr : inSigned (depthOf e) r) :
    canonical e (ofSigned r) := by
  have hp := depthOf_pos e
  rw [canonical, extend_sint e _ h]
  congr 1
  exact sval_ofSigned _ r (by omega) (depthOf_le e) hr

/-- A signed value in the range of an integer encoding makes a canonical register value. -/
theorem canonical_fromSigned (e : Encoding) (r : Int) (hi : isInteger e = true) (hr : inSigned (depthOf e) r) :
    canonical e (fromSigned e r) := by
  have hp := depthOf_pos e
  unfold fromSigned
  cases hk : kindOf e
  · exact canonical_ofSigned e r hk hr
  · exact canonical_zext64 e _ (by rw [hk]; decide) (toUnsigned_lt _ _ (by omega) hr)
  all_goals simp [isInteger, hk] at hi

/-- The signed domain reads back what `fromSigned` wrote. -/
theorem signedDomain_fromSigned (e : Encoding) (r : Int) (hi : isInteger e = true) (hr : inSigned (depthOf e) r) :
    signedDomain e (fromSigned e r) = r := by
  have hp := depthOf_pos e
  have hle : (2 : Nat) ^ depthOf e ≤ 2 ^ 64 := Nat.pow_le_pow_right (by omega) (depthOf_le e)
  unfold signedDomain fromSigned
  cases hk : kindOf e
  · exact sval_ofSigned _ r (by omega) (depthOf_le e) hr
  · have hu := toUnsigned_lt _ r (by omega : 0 < depthOf e) hr
    simp only [uval]
    rw [toNat_zext64 _ (by omega), Nat.mod_eq_of_lt hu]
    exact toSigned_toUnsigned _ r (by omega) hr
  all_goals simp [isInteger, hk] at hi

/-- `fromSigned` gives back the canonical form of what the signed domain read. -/
theorem fromSigned_signedDomain (e : Encoding) (x : Word) (hi : isInteger e = true) :
    fromSigned e (signedDomain e x) = extend e x.toNat := by
  have hp := depthOf_pos e
  unfold signedDomain fromSigned
  cases hk : kindOf e
  · rw [extend_sint e _ hk]
    rfl
  · rw [extend_other e _ (by rw [hk]; decide)]
    simp only
    rw [toUnsigned_toSigned _ _ (by omega) (uval_lt _ _)]
    rfl
  all_goals simp [isInteger, hk] at hi

/-! ## Rescaler -/

theorem widen_range (ds dd : Nat) (x : Int) (h0 : 0 < ds) (hle : ds ≤ dd) (h : inSigned ds x) :
    inSigned dd (widen ds dd x) := by
  obtain ⟨h1, h2⟩ := h
  unfold widen
  have hp : (0 : Int) < 2 ^ (dd - ds) := by positivity
  have e1 : (2 : Int) ^ (dd - 1) = 2 ^ (ds - 1) * 2 ^ (dd - ds) := by
    rw [← pow_add]
    congr 1
    omega
  rw [inSigned, e1]
  constructor
  · nlinarith
  · exact Int.mul_lt_mul_of_pos_right h2 hp

theorem narrow_range (ds dd : Nat) (x : Int) (h0 : 0 < dd) (hlt : dd < ds) (h : inSigned ds x) :
    inSigned dd (narrow ds dd x) := by
  obtain ⟨h1, h2⟩ := h
  unfold narrow maxSigned
  have hp : (0 : Int) < 2 ^ (ds - dd) := by positivity
  have hp2 : (0 : Int) < 2 ^ (ds - dd - 1) := by positivity
  have e1 : (2 : Int) ^ (ds - 1) = 2 ^ (dd - 1) * 2 ^ (ds - dd) := by
    rw [← pow_add]
    congr 1
    omega
  have hd : (0 : Int) < 2 ^ (dd - 1) := by positivity
  constructor
  · apply le_min
    · rw [Int.le_ediv_iff_mul_le hp]
      rw [e1] at h1
      have : -(2 : Int) ^ (dd - 1) * 2 ^ (ds - dd) = -(2 ^ (dd - 1) * 2 ^ (ds - dd)) := by ring
      omega
    · omega
  · have := min_le_right ((x + 2 ^ (ds - dd - 1)) / 2 ^ (ds - dd)) ((2 : Int) ^ (dd - 1) - 1)
    omega

theorem rescale_range (ds dd : Nat) (x : Int) (h0 : 0 < ds) (h1 : 0 < dd) (h : inSigned ds x) :
    inSigned dd (rescale ds dd x) := by
  unfold rescale
  split
  · exact widen_range ds dd x h0 ‹_› h
  · exact narrow_range ds dd x h1 (by omega) h

/-- Narrowing undoes widening (43_convert.md rule R193). -/
theorem narrow_widen (ds dd : Nat) (x : Int) (hlt : ds < dd) (h : inSigned ds x) : narrow dd ds (widen ds dd x) = x := by
  obtain ⟨h1, h2⟩ := h
  unfold narrow widen maxSigned
  have hp : (0 : Int) < 2 ^ (dd - ds) := by positivity
  have hp2 : (0 : Int) < 2 ^ (dd - ds - 1) := by positivity
  have e1 : (2 : Int) ^ (dd - ds) = 2 * 2 ^ (dd - ds - 1) := two_pow_pred _ (by omega)
  rw [Int.add_comm, Int.add_mul_ediv_right _ _ hp.ne', Int.ediv_eq_zero_of_lt hp2.le (by omega), zero_add]
  exact min_eq_left (by omega)

/-! ## The integer cases of Convert -/

theorem convert_int (a b : Encoding) (v : Word) (ha : isInteger a = true) (hb : isInteger b = true) :
    convert a b v = intToInt a b v := by
  simp [convert, ha, hb]

/-- In the signed domain, integer conversion is the rescale (rules R182 to R185). -/
theorem signedDomain_convert (a b : Encoding) (v : Word) (ha : isInteger a = true) (hb : isInteger b = true) :
    signedDomain b (convert a b v) = rescale (depthOf a) (depthOf b) (signedDomain a v) := by
  have hp := depthOf_pos a
  have hp2 := depthOf_pos b
  rw [convert_int a b v ha hb, intToInt]
  exact signedDomain_fromSigned b _ hb (rescale_range _ _ _ (by omega) (by omega) (signedDomain_range a v))

/-! ## Float to integer -/

theorem floatToSigned_range (d : Nat) (x : FloatVal) : inSigned d (floatToSigned d x) := by
  have hp : (0 : Int) < 2 ^ (d - 1) := by positivity
  have hmin : inSigned d (minSigned d) := ⟨le_refl _, by unfold minSigned; omega⟩
  have hmax : inSigned d (maxSigned d) := ⟨by unfold maxSigned; omega, by unfold maxSigned; omega⟩
  cases x with
  | nan =>
    exact ⟨BitVec.le_toInt (Config.nanToInt d), BitVec.toInt_lt⟩
  | inf neg =>
    simp only [floatToSigned]
    split
    · exact hmin
    · exact hmax
  | finite neg m e =>
    simp only [floatToSigned]
    split
    · split
      · exact hmin
      · rename_i h
        have : (floorScale m (e + (d - 1 : Nat)) : Int) < 2 ^ (d - 1) := by exact_mod_cast Nat.lt_of_not_le h
        exact ⟨by omega, by omega⟩
    · split
      · exact hmax
      · rename_i h
        have : (floorScale m (e + (d - 1 : Nat)) : Int) < 2 ^ (d - 1) := by exact_mod_cast Nat.lt_of_not_le h
        exact ⟨by omega, by omega⟩

/-! ## Float patterns -/

theorem withSign_lt (f : FloatFormat) (neg : Bool) (mag : Nat) (h : mag < 2 ^ (f.expBits + f.fracBits)) :
    f.withSign neg mag < 2 ^ (f.expBits + f.fracBits + 1) := by
  unfold FloatFormat.withSign
  rw [pow_succ]
  split <;> omega

theorem round_lt (f : FloatFormat) (neg : Bool) (m : Nat) (e : Int) :
    f.round neg m e < 2 ^ (f.expBits + f.fracBits + 1) :=
  withSign_lt f neg _ (lt_of_le_of_lt (roundMag_le f m e) (infMag_lt f))

theorem nanBits_lt (f : FloatFormat) (neg : Bool) (k : Nat) (h : k + 1 < 2 ^ f.fracBits) :
    nanBits f neg k < 2 ^ (f.expBits + f.fracBits + 1) := by
  apply withSign_lt
  have hP : 0 < 2 ^ f.expBits := by positivity
  unfold FloatFormat.infMag FloatFormat.expMax
  rw [pow_add]
  calc (2 ^ f.expBits - 1) * 2 ^ f.fracBits + (k + 1) < (2 ^ f.expBits - 1) * 2 ^ f.fracBits + 2 ^ f.fracBits := by omega
    _ = 2 ^ f.expBits * 2 ^ f.fracBits := by
        rw [← Nat.succ_mul]
        congr 1
        omega

/-- A NaN pattern is worth a NaN (00_scope.md rule R8). -/
theorem value_nanBits (f : FloatFormat) (neg : Bool) (k : Nat) (h : k + 1 < 2 ^ f.fracBits) :
    f.value (nanBits f neg k) = .nan := by
  have hP : 0 < 2 ^ f.fracBits := by positivity
  have hE : 0 < 2 ^ f.expBits := by positivity
  have hlt : f.infMag + (k + 1) < 2 ^ (f.expBits + f.fracBits) := by
    unfold FloatFormat.infMag FloatFormat.expMax
    rw [pow_add]
    calc (2 ^ f.expBits - 1) * 2 ^ f.fracBits + (k + 1)
        < (2 ^ f.expBits - 1) * 2 ^ f.fracBits + 2 ^ f.fracBits := by omega
      _ = 2 ^ f.expBits * 2 ^ f.fracBits := by
          rw [← Nat.succ_mul]
          congr 1
          omega
  rw [nanBits, value_withSign f neg _ hlt]
  have h1 : (f.infMag + (k + 1)) / 2 ^ f.fracBits = f.expMax := by
    unfold FloatFormat.infMag
    rw [Nat.add_comm, Nat.add_mul_div_right _ _ hP, Nat.div_eq_of_lt h, zero_add]
  have h2 : (f.infMag + (k + 1)) % 2 ^ f.fracBits = k + 1 := by
    unfold FloatFormat.infMag
    rw [Nat.add_comm, Nat.add_mul_mod_self_right, Nat.mod_eq_of_lt h]
  rw [h1, h2]
  simp

theorem toBinary32_lt (x : FloatVal) : toBinary32 x < 2 ^ 32 := by
  cases x with
  | nan => norm_num [toBinary32]
  | inf neg => exact withSign_lt binary32 neg _ (infMag_lt binary32)
  | finite neg m e => exact round_lt binary32 neg m e

theorem toBinary64_lt (x : FloatVal) : toBinary64 x < 2 ^ 64 := by
  cases x with
  | nan => norm_num [toBinary64]
  | inf neg => exact withSign_lt binary64 neg _ (infMag_lt binary64)
  | finite neg m e => exact round_lt binary64 neg m e

theorem nanNarrow_lt (b : Word) : nanNarrow b < 2 ^ 32 :=
  nanBits_lt binary32 _ _ (by have := (Config.nanF64ToF32 b).2.isLt; norm_num [binary32]; omega)

theorem nanWiden_lt (b : BitVec 32) : nanWiden b < 2 ^ 64 :=
  nanBits_lt binary64 _ _ (by have := (Config.nanF32ToF64 b).2.isLt; norm_num [binary64]; omega)

theorem kind_of_not_integer (e : Encoding) (h : isInteger e = false) :
    (e = .f32 ∨ e = .f64) ∧ kindOf e ≠ .sint := by
  cases e <;> first | exact absurd h (by decide) | exact ⟨by decide, by decide⟩

/-- Every result of Convert is in the canonical form of its destination (43_convert.md rule R192). -/
theorem canonical_convert (a b : Encoding) (v : Word) : canonical b (convert a b v) := by
  have hp := depthOf_pos a
  have hp2 := depthOf_pos b
  cases hb : isInteger b
  · obtain ⟨hb2, hk⟩ := kind_of_not_integer b hb
    have h32 : ∀ x, x < 2 ^ 32 → b = .f32 → canonical b (zext64 x) := by
      rintro x hx rfl
      exact canonical_zext64 .f32 x hk hx
    have h64 : ∀ x, x < 2 ^ 64 → b = .f64 → canonical b (zext64 x) := by
      rintro x hx rfl
      exact canonical_zext64 .f64 x hk hx
    cases ha : isInteger a
    · simp only [convert, ha, hb, Bool.false_and, Bool.not_false, Bool.and_false, Bool.false_eq_true, if_false]
      split
      · rename_i h
        subst h
        exact canonical_zext64 _ _ hk (uval_lt _ _)
      · rename_i h
        unfold floatToFloat
        obtain ⟨ha2, -⟩ := kind_of_not_integer a ha
        rcases ha2 with rfl | rfl <;> rcases hb2 with rfl | rfl
        · exact absurd rfl h
        · simp only [kindOf]
          split
          · exact h64 _ (nanWiden_lt _) rfl
          · exact h64 _ (toBinary64_lt _) rfl
        · simp only [kindOf]
          split
          · exact h32 _ (nanNarrow_lt _) rfl
          · exact h32 _ (toBinary32_lt _) rfl
        · exact absurd rfl h
    · simp only [convert, ha, hb, Bool.and_false, Bool.not_true, Bool.not_false, Bool.true_and, Bool.false_eq_true,
        if_false, if_true]
      unfold intToFloat
      rcases hb2 with rfl | rfl
      · exact h32 _ (toBinary32_lt _) rfl
      · exact h64 _ (toBinary64_lt _) rfl
  · cases ha : isInteger a
    · simp only [convert, ha, hb, Bool.false_and, Bool.not_false, Bool.true_and, Bool.false_eq_true, if_false, if_true]
      exact canonical_fromSigned b _ hb (floatToSigned_range _ _)
    · rw [convert_int a b v ha hb]
      exact canonical_fromSigned b _ hb (rescale_range _ _ _ (by omega) (by omega) (signedDomain_range a v))

/-- `Convert` reads only the low `D(src)` bits of its operand (43_convert.md rule R180). -/
theorem convert_congr_low (a b : Encoding) (v w : Word)
    (h : v.toNat % 2 ^ depthOf a = w.toNat % 2 ^ depthOf a) : convert a b v = convert a b w := by
  have hs : signedDomain a v = signedDomain a w := by unfold signedDomain sval uval; rw [h]
  by_cases ha : isInteger a = true
  · simp only [convert, ha, intToInt, intToFloat, hs, Bool.not_true, Bool.false_and, Bool.true_and]
    cases hb : isInteger b <;> rfl
  · obtain ⟨hf | hf, -⟩ := kind_of_not_integer a (by simpa using ha) <;> subst hf
    · rw [show depthOf .f32 = 32 from rfl] at h
      have h32 : v.setWidth 32 = w.setWidth 32 := by
        apply BitVec.eq_of_toNat_eq
        rw [BitVec.toNat_setWidth, BitVec.toNat_setWidth, h]
      have hu : uval 32 v = uval 32 w := by rw [uval, uval, h]
      have hx : floatOf .f32 v = floatOf .f32 w := by simp only [floatOf, kindOf, hu]
      have hf : floatToFloat .f32 v = floatToFloat .f32 w := by simp only [floatToFloat, kindOf, hu, h32]
      rw [convert, convert, floatToInt, floatToInt, hx, hf, show depthOf .f32 = 32 from rfl, hu,
        show isInteger .f32 = false from rfl]
      cases hb : isInteger b <;> simp
    · rw [show depthOf .f64 = 64 from rfl] at h
      have : v = w := by
        apply BitVec.eq_of_toNat_eq
        have h1 := v.isLt
        have h2 := w.isLt
        rw [Nat.mod_eq_of_lt h1, Nat.mod_eq_of_lt h2] at h
        exact h
      rw [this]

end Sys2Proof.Machine
end

