-- ==== Sys2Proof/Laws/Encoding.lean ====
section
/-! SUPPORT. Command words as numbers: row selection by fields, the value of each encoded form, and the code tables read both ways
(30_encoding.md rules R81 to R94). -/

namespace Sys2Proof

theorem toNat_append_eq {m n : Nat} (x : BitVec m) (y : BitVec n) : (x ++ y).toNat = x.toNat * 2 ^ n + y.toNat := by
  rw [BitVec.toNat_append, ← Nat.shiftLeft_add_eq_or_of_lt y.isLt, Nat.shiftLeft_eq]

/-- A mask of the bits from `h` up and below `l` compares those fields. -/
theorem mask_eq_iff (m p w : Command) (h l : Nat) (hlh : l ≤ h)
    (hm : ∀ i, i < 32 → m.getLsbD i = (decide (h ≤ i) || decide (i < l))) (hp : ∀ i, i < h → p.getLsbD i = false) :
    w &&& m = p ↔ w.toNat / 2 ^ h = p.toNat / 2 ^ h ∧ w.toNat % 2 ^ l = 0 := by
  have hbit : ∀ (x : Command) i, x.getLsbD i = x.toNat.testBit i := fun x i => rfl
  constructor
  · rintro rfl
    constructor
    · apply Nat.eq_of_testBit_eq
      intro i
      rw [Nat.testBit_div_two_pow, Nat.testBit_div_two_pow, ← hbit, ← hbit, BitVec.getLsbD_and]
      by_cases hi : i + h < 32
      · rw [hm _ hi]
        simp
      · rw [BitVec.getLsbD_of_ge _ _ (by omega)]
        rfl
    · apply Nat.eq_of_testBit_eq
      intro i
      rw [Nat.testBit_mod_two_pow, Nat.zero_testBit]
      by_cases hi : i < l
      · have := hp i (by omega)
        rw [BitVec.getLsbD_and] at this
        by_cases h32 : i < 32
        · rw [hm i h32] at this
          simp only [hi, decide_true, Bool.or_true, Bool.and_true] at this
          rw [← hbit, this]
          simp
        · rw [← hbit, BitVec.getLsbD_of_ge _ _ (by omega)]
          simp
      · simp [hi]
  · rintro ⟨h1, h2⟩
    apply BitVec.eq_of_getLsbD_eq
    intro i hi
    rw [BitVec.getLsbD_and, hm i hi]
    by_cases hih : h ≤ i
    · have := congrArg (fun n => n.testBit (i - h)) h1
      simp only [Nat.testBit_div_two_pow, show i - h + h = i by omega] at this
      rw [hbit, hbit, this]
      simp [hih]
    · rw [hp i (by omega)]
      by_cases hil : i < l
      · have := congrArg (fun n => n.testBit i) h2
        simp only [Nat.testBit_mod_two_pow, Nat.zero_testBit, hil, decide_true, Bool.true_and] at this
        rw [hbit, this]
        rfl
      · simp [hih, hil]

/-! ## Codes -/

theorem ofCode_code (r : VReg) : VReg.ofCode r.code = r := by cases r <;> rfl

theorem code_ofCode (c : BitVec 2) : (VReg.ofCode c).code = c := by
  revert c; decide

theorem encodingOfCode_code (e : Encoding) : Encoding.ofCode? e.code = some e := by cases e <;> decide

theorem encodingCode_of {c : BitVec 5} {e : Encoding} (h : Encoding.ofCode? c = some e) : e.code = c := by
  have := List.find?_some h
  simpa using this

theorem endianOfCode_code (d : EndianCode) : EndianCode.ofCode? d.code = some d := by cases d <;> rfl

theorem endianCode_of {c : BitVec 2} {d : EndianCode} (h : EndianCode.ofCode? c = some d) : d.code = c := by
  revert c; cases d <;> decide

/-- What it takes to select the row of an opcode: the opcode above `h`, zeros below `l`. -/
def rowSpan : Op → Nat × Nat
  | .ard | .awr => (23, 21)
  | .urd | .uwr => (27, 21)
  | .s2u | .u2s => (27, 16)
  | .unpk | .pack => (27, 18)
  | .cvt => (27, 13)
  | .rslv | .batch => (27, 27)

theorem selects_iff (r : OpcodeRow) (hr : r ∈ opcodeTable) (w : Command) :
    r.selects w = true ↔
      w.toNat / 2 ^ (rowSpan r.op).1 = r.op.opcode.toNat * 2 ^ (27 - (rowSpan r.op).1) ∧ w.toNat % 2 ^ (rowSpan r.op).2 = 0 := by
  have key : ∀ r ∈ opcodeTable, (rowSpan r.op).2 ≤ (rowSpan r.op).1 ∧
      (∀ i, i < 32 → r.mask.getLsbD i = (decide ((rowSpan r.op).1 ≤ i) || decide (i < (rowSpan r.op).2))) ∧
      (∀ i, i < (rowSpan r.op).1 → r.pattern.getLsbD i = false) ∧
      r.pattern.toNat / 2 ^ (rowSpan r.op).1 = r.op.opcode.toNat * 2 ^ (27 - (rowSpan r.op).1) := by decide
  obtain ⟨h1, h2, h3, h4⟩ := key r hr
  rw [OpcodeRow.selects, decide_eq_true_iff, mask_eq_iff _ _ _ _ _ h1 h2 h3, h4]

theorem opcode_of_selects (r : OpcodeRow) (hr : r ∈ opcodeTable) (w : Command) (h : r.selects w = true) :
    w.toNat / 2 ^ 27 = r.op.opcode.toNat := by
  have key : ∀ r ∈ opcodeTable, (rowSpan r.op).1 ≤ 27 := by decide
  have h1 := key r hr
  have h2 := ((selects_iff r hr w).1 h).1
  rw [show 27 = (rowSpan r.op).1 + (27 - (rowSpan r.op).1) by omega, pow_add, ← Nat.div_div_eq_div_mul, h2,
    Nat.mul_div_cancel _ (by positivity)]

theorem row_unique (r r' : OpcodeRow) (hr : r ∈ opcodeTable) (hr' : r' ∈ opcodeTable) (w : Command)
    (h : r.selects w = true) (h' : r'.selects w = true) : r = r' := by
  have key : ∀ r ∈ opcodeTable, ∀ r' ∈ opcodeTable, r.op.opcode.toNat = r'.op.opcode.toNat → r = r' := by decide
  exact key r hr r' hr' ((opcode_of_selects r hr w h).symm.trans (opcode_of_selects r' hr' w h'))

theorem find_row (r : OpcodeRow) (hr : r ∈ opcodeTable) (w : Command) (h : r.selects w = true) :
    opcodeTable.find? (fun r => r.selects w) = some r := by
  cases hf : opcodeTable.find? (fun r => r.selects w) with
  | none =>
    rw [List.find?_eq_none] at hf
    exact absurd h (hf r hr)
  | some r' =>
    have h1 := List.mem_of_find?_eq_some hf
    have h2 : r'.selects w = true := List.find?_some (p := fun r : OpcodeRow => r.selects w) hf
    rw [row_unique r' r h1 hr w h2 h]

theorem decode_of_selects (r : OpcodeRow) (hr : r ∈ opcodeTable) (w : Command) (h : r.selects w = true) :
    decode w = decodeOperands r.op w := by
  rw [decode, find_row r hr w h]

theorem decode_ok_row {w : Command} {i : Instr} (h : decode w = .ok i) :
    ∃ r ∈ opcodeTable, r.selects w = true ∧ decodeOperands r.op w = .ok i := by
  unfold decode at h
  split at h
  · rename_i r hf
    exact ⟨r, List.mem_of_find?_eq_some hf, List.find?_some (p := fun r : OpcodeRow => r.selects w) hf, h⟩
  · split at h <;> cases h

theorem extract_toNat (w : Command) (lo n : Nat) : (w.extractLsb' lo n).toNat = w.toNat / 2 ^ lo % 2 ^ n := by
  rw [BitVec.extractLsb'_toNat, Nat.shiftRight_eq_div_pow]


theorem toNat_formA (op : Op) (r : VReg) : (encodeFormA op r).toNat = op.opcode.toNat * 2 ^ 27 + r.code.toNat * 2 ^ 21 := by
  simp only [encodeFormA, toNat_append_eq, BitVec.toNat_ofNat]
  ring

theorem toNat_formU (op : Op) (len : Nat) (r : VReg) (h : len < 16) :
    (encodeFormU op len r).toNat = op.opcode.toNat * 2 ^ 27 + len * 2 ^ 23 + r.code.toNat * 2 ^ 21 := by
  simp only [encodeFormU, toNat_append_eq, BitVec.toNat_ofNat, Nat.mod_eq_of_lt (show len < 2 ^ 4 from h)]
  ring

theorem toNat_formS (op : Op) (d : Nat) (rd rs : VReg) (h : d < 128) :
    (encodeFormS op d rd rs).toNat =
      op.opcode.toNat * 2 ^ 27 + d * 2 ^ 20 + rd.code.toNat * 2 ^ 18 + rs.code.toNat * 2 ^ 16 := by
  simp only [encodeFormS, toNat_append_eq, BitVec.toNat_ofNat, Nat.mod_eq_of_lt (show d < 2 ^ 7 from h)]
  ring

theorem toNat_formatCode (f : WireFormat) : f.code.toNat = f.enc.code.toNat * 4 + f.endian.code.toNat := by
  rw [WireFormat.code, toNat_append_eq]
  rfl

theorem toNat_formP (op : Op) (f : WireFormat) (r : VReg) :
    (encodeFormP op f r).toNat = op.opcode.toNat * 2 ^ 27 + f.code.toNat * 2 ^ 20 + r.code.toNat * 2 ^ 18 := by
  simp only [encodeFormP, toNat_append_eq, BitVec.toNat_ofNat]
  ring

theorem toNat_formV (op : Op) (a b : Encoding) (rd rs : VReg) :
    (encodeFormV op a b rd rs).toNat =
      op.opcode.toNat * 2 ^ 27 + a.code.toNat * 2 ^ 22 + b.code.toNat * 2 ^ 17 + rd.code.toNat * 2 ^ 15 +
        rs.code.toNat * 2 ^ 13 := by
  simp only [encodeFormV, toNat_append_eq, BitVec.toNat_ofNat]
  ring

theorem toNat_formN (op : Op) : (encodeFormN op).toNat = op.opcode.toNat * 2 ^ 27 := by
  simp only [encodeFormN, toNat_append_eq, BitVec.toNat_ofNat]
  ring

theorem formatOfCode_code (f : WireFormat) : WireFormat.ofCode? f.code = some f := by
  have h1 : f.code.extractLsb' 2 5 = f.enc.code := by
    apply BitVec.eq_of_toNat_eq
    have := f.endian.code.isLt
    have := f.enc.code.isLt
    rw [BitVec.extractLsb'_toNat, Nat.shiftRight_eq_div_pow, toNat_formatCode]
    omega
  have h2 : f.code.extractLsb' 0 2 = f.endian.code := by
    apply BitVec.eq_of_toNat_eq
    have := f.endian.code.isLt
    rw [BitVec.extractLsb'_toNat, Nat.shiftRight_eq_div_pow, toNat_formatCode]
    omega
  rw [WireFormat.ofCode?, h1, h2, encodingOfCode_code, endianOfCode_code]

theorem formatCode_of {c : BitVec 7} {f : WireFormat} (h : WireFormat.ofCode? c = some f) : f.code = c := by
  unfold WireFormat.ofCode? at h
  split at h
  · rename_i e d he hd
    cases h
    have h1 := congrArg BitVec.toNat (encodingCode_of he)
    have h2 := congrArg BitVec.toNat (endianCode_of hd)
    rw [BitVec.extractLsb'_toNat, Nat.shiftRight_eq_div_pow] at h1 h2
    apply BitVec.eq_of_toNat_eq
    have := c.isLt
    rw [toNat_formatCode]
    simp only at *
    omega
  · cases h

theorem legalLength_iff (len : Nat) : legalLength len = true ↔ len ≤ 8 := by simp [legalLength]

theorem legalDepth_iff (d : Nat) : legalDepth d = true ↔ d ∈ [8, 16, 18, 20, 24, 32, 64] := by
  simp [legalDepth, signDepths]

theorem legalDepth_lt {d : Nat} (h : legalDepth d = true) : 8 ≤ d ∧ d ≤ 64 := by
  rw [legalDepth_iff] at h
  fin_cases h <;> simp

/-- The row of the table of an opcode. -/
def rowOf : Op → OpcodeRow
  | .ard => ⟨.ard, 0x08000000, 0xFF9FFFFF⟩
  | .awr => ⟨.awr, 0x10000000, 0xFF9FFFFF⟩
  | .urd => ⟨.urd, 0x18000000, 0xF81FFFFF⟩
  | .uwr => ⟨.uwr, 0x20000000, 0xF81FFFFF⟩
  | .s2u => ⟨.s2u, 0x28000000, 0xF800FFFF⟩
  | .u2s => ⟨.u2s, 0x30000000, 0xF800FFFF⟩
  | .unpk => ⟨.unpk, 0x38000000, 0xF803FFFF⟩
  | .pack => ⟨.pack, 0x40000000, 0xF803FFFF⟩
  | .cvt => ⟨.cvt, 0x48000000, 0xF8001FFF⟩
  | .rslv => ⟨.rslv, 0x50000000, 0xFFFFFFFF⟩
  | .batch => ⟨.batch, 0x58000000, 0xFFFFFFFF⟩

theorem rowOf_mem (op : Op) : rowOf op ∈ opcodeTable := by cases op <;> decide

theorem rowOf_op (op : Op) : (rowOf op).op = op := by cases op <;> rfl

/-- A word with the opcode of `op` and zeros in its reserved fields decodes by the operands of `op`. -/
theorem decode_of_fields (op : Op) (w : Command) (h1 : w.toNat / 2 ^ (rowSpan op).1 = op.opcode.toNat * 2 ^ (27 - (rowSpan op).1))
    (h2 : w.toNat % 2 ^ (rowSpan op).2 = 0) : decode w = decodeOperands op w := by
  rw [decode_of_selects (rowOf op) (rowOf_mem op) w ((selects_iff _ (rowOf_mem op) w).2 (by rw [rowOf_op]; exact ⟨h1, h2⟩)),
    rowOf_op]

/-- A register field is read back. -/
theorem ofCode_extract (w : Command) (lo : Nat) (r : VReg) (h : w.toNat / 2 ^ lo % 2 ^ 2 = r.code.toNat) :
    VReg.ofCode (w.extractLsb' lo 2) = r := by
  rw [show w.extractLsb' lo 2 = r.code from BitVec.eq_of_toNat_eq (by rw [extract_toNat, h]), ofCode_code]

end Sys2Proof
end

