-- ==== Sys2Proof/Laws/Memory.lean ====
section
/-! SUPPORT. The laws of a buffer: a read after a write to the same index gives the value written, a write leaves every other
index alone, every operation keeps the canonical form, and two canonical buffers that read alike are equal. -/

namespace Sys2Proof.Machine

@[simp] theorem Memory.read_nil (a : Nat) : Memory.read [] a = 0 := rfl

theorem Memory.read_erase (m : Memory) (a q : Nat) : (m.erase a).read q = if q = a then 0 else m.read q := by
  induction m with
  | nil => simp [Memory.erase]
  | cons c rest ih =>
    obtain ⟨k, b⟩ := c
    by_cases hk : k = a
    · subst hk
      simp only [Memory.erase, if_true, ih, Memory.read]
      by_cases hq : q = k
      · simp [hq]
      · simp [hq, Ne.symm hq]
    · by_cases hq : k = q
      · subst hq
        simp [Memory.erase, hk, Memory.read]
      · simp [Memory.erase, hk, Memory.read, ih, hq]

theorem Memory.read_insert_same (m : Memory) (a : Nat) (v : Byte) (h : ∀ c ∈ m, c.1 ≠ a) :
    (m.insert a v).read a = v := by
  induction m with
  | nil => simp [Memory.insert, Memory.read]
  | cons c rest ih =>
    obtain ⟨k, b⟩ := c
    have hk : k ≠ a := h (k, b) (by simp)
    by_cases hlt : a < k
    · simp [Memory.insert, hlt, Memory.read]
    · simp [Memory.insert, hlt, Memory.read, hk, ih (fun c hc => h c (by simp [hc]))]

theorem Memory.read_insert_ne (m : Memory) (a q : Nat) (v : Byte) (h : q ≠ a) : (m.insert a v).read q = m.read q := by
  induction m with
  | nil => simp [Memory.insert, Memory.read, Ne.symm h, unlistedByte]
  | cons c rest ih =>
    obtain ⟨k, b⟩ := c
    by_cases hlt : a < k
    · simp [Memory.insert, hlt, Memory.read, Ne.symm h]
    · simp [Memory.insert, hlt, Memory.read, ih]

theorem Memory.erase_no_key (m : Memory) (a : Nat) : ∀ c ∈ m.erase a, c.1 ≠ a := by
  induction m with
  | nil => simp [Memory.erase]
  | cons c rest ih =>
    obtain ⟨k, b⟩ := c
    by_cases hk : k = a
    · simpa [Memory.erase, hk] using ih
    · simp only [Memory.erase, hk, if_false, List.mem_cons]
      rintro c (rfl | hc)
      · exact hk
      · exact ih c hc

/-- What a write does to every later read. -/
theorem Memory.read_write (m : Memory) (a q : Nat) (v : Byte) :
    (m.write a v).read q = if q = a then v else m.read q := by
  by_cases hv : v = unlistedByte
  · simp only [Memory.write, hv, if_true, Memory.read_erase]
    rfl
  · simp only [Memory.write, hv, if_false]
    by_cases hq : q = a
    · subst hq
      simp [Memory.read_insert_same _ _ _ (Memory.erase_no_key m q)]
    · simp [Memory.read_insert_ne _ _ _ _ hq, Memory.read_erase, hq]

@[simp] theorem Memory.read_write_same (m : Memory) (a : Nat) (v : Byte) : (m.write a v).read a = v := by
  simp [Memory.read_write]

theorem Memory.read_write_ne (m : Memory) (a q : Nat) (v : Byte) (h : q ≠ a) : (m.write a v).read q = m.read q := by
  simp [Memory.read_write, h]

/-! ## The canonical form -/

theorem Memory.wfAbove_cons (lo k : Nat) (b : Byte) (rest : Memory) :
    Memory.wfAbove lo ((k, b) :: rest) = true ↔ lo ≤ k ∧ b ≠ unlistedByte ∧ Memory.wfAbove (k + 1) rest = true := by
  simp [Memory.wfAbove, and_assoc]

theorem Memory.wfAbove_mono (m : Memory) (lo hi : Nat) (h : Memory.wfAbove hi m = true) (hle : lo ≤ hi) :
    Memory.wfAbove lo m = true := by
  cases m with
  | nil => rfl
  | cons c rest =>
    obtain ⟨k, b⟩ := c
    rw [Memory.wfAbove_cons] at h ⊢
    exact ⟨by omega, h.2⟩

theorem Memory.wfAbove_erase (m : Memory) (a lo : Nat) (h : Memory.wfAbove lo m = true) :
    Memory.wfAbove lo (m.erase a) = true := by
  induction m generalizing lo with
  | nil => rfl
  | cons c rest ih =>
    obtain ⟨k, b⟩ := c
    rw [Memory.wfAbove_cons] at h
    by_cases hk : k = a
    · simp only [Memory.erase, hk, if_true]
      exact ih lo (Memory.wfAbove_mono rest lo (k + 1) h.2.2 (by omega))
    · simp only [Memory.erase, hk, if_false, Memory.wfAbove_cons]
      exact ⟨h.1, h.2.1, ih (k + 1) h.2.2⟩

theorem Memory.wfAbove_insert (m : Memory) (a lo : Nat) (v : Byte) (h : Memory.wfAbove lo m = true) (hlo : lo ≤ a)
    (hv : v ≠ unlistedByte) (hne : ∀ c ∈ m, c.1 ≠ a) : Memory.wfAbove lo (m.insert a v) = true := by
  induction m generalizing lo with
  | nil => simp [Memory.insert, Memory.wfAbove, hlo, hv]
  | cons c rest ih =>
    obtain ⟨k, b⟩ := c
    rw [Memory.wfAbove_cons] at h
    have hk : k ≠ a := hne (k, b) (by simp)
    by_cases hlt : a < k
    · simp only [Memory.insert, hlt, if_true, Memory.wfAbove_cons]
      exact ⟨hlo, hv, by omega, h.2⟩
    · simp only [Memory.insert, hlt, if_false, Memory.wfAbove_cons]
      exact ⟨h.1, h.2.1, ih (k + 1) h.2.2 (by omega) (fun c hc => hne c (by simp [hc]))⟩

/-- A write keeps the canonical form. -/
theorem Memory.wf_write (m : Memory) (a : Nat) (v : Byte) (h : m.wf = true) : (m.write a v).wf = true := by
  unfold Memory.write
  split
  · exact Memory.wfAbove_erase m a 0 h
  · exact Memory.wfAbove_insert _ a 0 v (Memory.wfAbove_erase m a 0 h) (Nat.zero_le a) ‹_› (Memory.erase_no_key m a)

@[simp] theorem Memory.wf_nil : Memory.wf [] = true := rfl

theorem Memory.read_below (m : Memory) (lo q : Nat) (h : Memory.wfAbove lo m = true) (hq : q < lo) : m.read q = 0 := by
  induction m generalizing lo with
  | nil => rfl
  | cons c rest ih =>
    obtain ⟨k, b⟩ := c
    rw [Memory.wfAbove_cons] at h
    have : k ≠ q := by omega
    simp only [Memory.read, this, if_false]
    exact ih (k + 1) h.2.2 (by omega)

theorem Memory.ext_wfAbove (m n : Memory) (lo : Nat) (hm : Memory.wfAbove lo m = true) (hn : Memory.wfAbove lo n = true)
    (h : ∀ q, m.read q = n.read q) : m = n := by
  induction m generalizing n lo with
  | nil =>
    cases n with
    | nil => rfl
    | cons c rest =>
      obtain ⟨k, b⟩ := c
      rw [Memory.wfAbove_cons] at hn
      have := h k
      simp only [Memory.read, if_true] at this
      exact absurd this.symm hn.2.1
  | cons c rest ih =>
    obtain ⟨k, b⟩ := c
    rw [Memory.wfAbove_cons] at hm
    cases n with
    | nil =>
      have := h k
      simp only [Memory.read, if_true] at this
      exact absurd this hm.2.1
    | cons d rest' =>
      obtain ⟨j, e⟩ := d
      rw [Memory.wfAbove_cons] at hn
      have hkj : k = j := by
        rcases Nat.lt_trichotomy k j with hlt | heq | hgt
        · have e1 := h k
          have hne : j ≠ k := by omega
          simp only [Memory.read, if_true, hne, if_false] at e1
          rw [Memory.read_below rest' (j + 1) k hn.2.2 (by omega)] at e1
          exact absurd e1 hm.2.1
        · exact heq
        · have e1 := h j
          have hne : k ≠ j := by omega
          simp only [Memory.read, if_true, hne, if_false] at e1
          rw [Memory.read_below rest (k + 1) j hm.2.2 (by omega)] at e1
          exact absurd e1.symm hn.2.1
      subst hkj
      have hbe : b = e := by simpa [Memory.read] using h k
      subst hbe
      congr 1
      refine ih rest' (k + 1) hm.2.2 hn.2.2 (fun q => ?_)
      by_cases hq : k = q
      · subst hq
        rw [Memory.read_below rest (k + 1) k hm.2.2 (by omega), Memory.read_below rest' (k + 1) k hn.2.2 (by omega)]
      · simpa [Memory.read, hq] using h q

/-- Two buffers in canonical form that read alike are equal. -/
theorem Memory.ext_of_wf (m n : Memory) (hm : m.wf = true) (hn : n.wf = true) (h : ∀ q, m.read q = n.read q) : m = n :=
  Memory.ext_wfAbove m n 0 hm hn h

/-! ## Bits -/

theorem Memory.bit_congr (m n : Memory) (p : Nat) (h : m.read (p / 8) = n.read (p / 8)) : m.bit p = n.bit p := by
  simp [Memory.bit, h]

theorem Memory.bit_write (m : Memory) (a p : Nat) (v : Byte) :
    (m.write a v).bit p = if p / 8 = a then v.getLsbD (7 - p % 8) else m.bit p := by
  by_cases h : p / 8 = a
  · simp [Memory.bit, h]
  · simp [Memory.bit, h, Memory.read_write_ne]

end Sys2Proof.Machine
end

