-- ==== Sys2Proof/Laws/State.lean ====
section
/-! SUPPORT. One lemma per field per update of State, so that no later proof unfolds a record update; the same for the updates
built from them (writing a sample register, taking a fault, recording a resolution). -/

namespace Sys2Proof.Machine

variable (s : State)

section setIbo
variable (x : Word)
@[simp] theorem State.setIbo_regs : (s.setIbo x).regs = s.regs := rfl
@[simp] theorem State.setIbo_ibo : (s.setIbo x).ibo = x := rfl
@[simp] theorem State.setIbo_obo : (s.setIbo x).obo = s.obo := rfl
@[simp] theorem State.setIbo_n : (s.setIbo x).n = s.n := rfl
@[simp] theorem State.setIbo_cnt : (s.setIbo x).cnt = s.cnt := rfl
@[simp] theorem State.setIbo_ibLen : (s.setIbo x).ibLen = s.ibLen := rfl
@[simp] theorem State.setIbo_obLen : (s.setIbo x).obLen = s.obLen := rfl
@[simp] theorem State.setIbo_inFmt : (s.setIbo x).inFmt = s.inFmt := rfl
@[simp] theorem State.setIbo_outFmt : (s.setIbo x).outFmt = s.outFmt := rfl
@[simp] theorem State.setIbo_status : (s.setIbo x).status = s.status := rfl
@[simp] theorem State.setIbo_finfo : (s.setIbo x).finfo = s.finfo := rfl
@[simp] theorem State.setIbo_ib : (s.setIbo x).ib = s.ib := rfl
@[simp] theorem State.setIbo_ob : (s.setIbo x).ob = s.ob := rfl
@[simp] theorem State.setIbo_pending : (s.setIbo x).pending = s.pending := rfl
@[simp] theorem State.setIbo_hostData : (s.setIbo x).hostData = s.hostData := rfl
@[simp] theorem State.setIbo_resets : (s.setIbo x).resets = s.resets := rfl
@[simp] theorem State.setIbo_v (r : VReg) : (s.setIbo x).v r = s.v r := rfl
@[simp] theorem State.setIbo_vw (r : VReg) : (s.setIbo x).vw r = s.vw r := rfl
end setIbo

section setObo
variable (x : Word)
@[simp] theorem State.setObo_regs : (s.setObo x).regs = s.regs := rfl
@[simp] theorem State.setObo_ibo : (s.setObo x).ibo = s.ibo := rfl
@[simp] theorem State.setObo_obo : (s.setObo x).obo = x := rfl
@[simp] theorem State.setObo_n : (s.setObo x).n = s.n := rfl
@[simp] theorem State.setObo_cnt : (s.setObo x).cnt = s.cnt := rfl
@[simp] theorem State.setObo_ibLen : (s.setObo x).ibLen = s.ibLen := rfl
@[simp] theorem State.setObo_obLen : (s.setObo x).obLen = s.obLen := rfl
@[simp] theorem State.setObo_inFmt : (s.setObo x).inFmt = s.inFmt := rfl
@[simp] theorem State.setObo_outFmt : (s.setObo x).outFmt = s.outFmt := rfl
@[simp] theorem State.setObo_status : (s.setObo x).status = s.status := rfl
@[simp] theorem State.setObo_finfo : (s.setObo x).finfo = s.finfo := rfl
@[simp] theorem State.setObo_ib : (s.setObo x).ib = s.ib := rfl
@[simp] theorem State.setObo_ob : (s.setObo x).ob = s.ob := rfl
@[simp] theorem State.setObo_pending : (s.setObo x).pending = s.pending := rfl
@[simp] theorem State.setObo_hostData : (s.setObo x).hostData = s.hostData := rfl
@[simp] theorem State.setObo_resets : (s.setObo x).resets = s.resets := rfl
@[simp] theorem State.setObo_v (r : VReg) : (s.setObo x).v r = s.v r := rfl
@[simp] theorem State.setObo_vw (r : VReg) : (s.setObo x).vw r = s.vw r := rfl
end setObo

section setN
variable (x : BitVec 32)
@[simp] theorem State.setN_regs : (s.setN x).regs = s.regs := rfl
@[simp] theorem State.setN_ibo : (s.setN x).ibo = s.ibo := rfl
@[simp] theorem State.setN_obo : (s.setN x).obo = s.obo := rfl
@[simp] theorem State.setN_n : (s.setN x).n = x := rfl
@[simp] theorem State.setN_cnt : (s.setN x).cnt = s.cnt := rfl
@[simp] theorem State.setN_ibLen : (s.setN x).ibLen = s.ibLen := rfl
@[simp] theorem State.setN_obLen : (s.setN x).obLen = s.obLen := rfl
@[simp] theorem State.setN_inFmt : (s.setN x).inFmt = s.inFmt := rfl
@[simp] theorem State.setN_outFmt : (s.setN x).outFmt = s.outFmt := rfl
@[simp] theorem State.setN_status : (s.setN x).status = s.status := rfl
@[simp] theorem State.setN_finfo : (s.setN x).finfo = s.finfo := rfl
@[simp] theorem State.setN_ib : (s.setN x).ib = s.ib := rfl
@[simp] theorem State.setN_ob : (s.setN x).ob = s.ob := rfl
@[simp] theorem State.setN_pending : (s.setN x).pending = s.pending := rfl
@[simp] theorem State.setN_hostData : (s.setN x).hostData = s.hostData := rfl
@[simp] theorem State.setN_resets : (s.setN x).resets = s.resets := rfl
@[simp] theorem State.setN_v (r : VReg) : (s.setN x).v r = s.v r := rfl
@[simp] theorem State.setN_vw (r : VReg) : (s.setN x).vw r = s.vw r := rfl
end setN

section setCnt
variable (x : BitVec 32)
@[simp] theorem State.setCnt_regs : (s.setCnt x).regs = s.regs := rfl
@[simp] theorem State.setCnt_ibo : (s.setCnt x).ibo = s.ibo := rfl
@[simp] theorem State.setCnt_obo : (s.setCnt x).obo = s.obo := rfl
@[simp] theorem State.setCnt_n : (s.setCnt x).n = s.n := rfl
@[simp] theorem State.setCnt_cnt : (s.setCnt x).cnt = x := rfl
@[simp] theorem State.setCnt_ibLen : (s.setCnt x).ibLen = s.ibLen := rfl
@[simp] theorem State.setCnt_obLen : (s.setCnt x).obLen = s.obLen := rfl
@[simp] theorem State.setCnt_inFmt : (s.setCnt x).inFmt = s.inFmt := rfl
@[simp] theorem State.setCnt_outFmt : (s.setCnt x).outFmt = s.outFmt := rfl
@[simp] theorem State.setCnt_status : (s.setCnt x).status = s.status := rfl
@[simp] theorem State.setCnt_finfo : (s.setCnt x).finfo = s.finfo := rfl
@[simp] theorem State.setCnt_ib : (s.setCnt x).ib = s.ib := rfl
@[simp] theorem State.setCnt_ob : (s.setCnt x).ob = s.ob := rfl
@[simp] theorem State.setCnt_pending : (s.setCnt x).pending = s.pending := rfl
@[simp] theorem State.setCnt_hostData : (s.setCnt x).hostData = s.hostData := rfl
@[simp] theorem State.setCnt_resets : (s.setCnt x).resets = s.resets := rfl
@[simp] theorem State.setCnt_v (r : VReg) : (s.setCnt x).v r = s.v r := rfl
@[simp] theorem State.setCnt_vw (r : VReg) : (s.setCnt x).vw r = s.vw r := rfl
end setCnt

section setIbLen
variable (x : BitVec 61)
@[simp] theorem State.setIbLen_regs : (s.setIbLen x).regs = s.regs := rfl
@[simp] theorem State.setIbLen_ibo : (s.setIbLen x).ibo = s.ibo := rfl
@[simp] theorem State.setIbLen_obo : (s.setIbLen x).obo = s.obo := rfl
@[simp] theorem State.setIbLen_n : (s.setIbLen x).n = s.n := rfl
@[simp] theorem State.setIbLen_cnt : (s.setIbLen x).cnt = s.cnt := rfl
@[simp] theorem State.setIbLen_ibLen : (s.setIbLen x).ibLen = x := rfl
@[simp] theorem State.setIbLen_obLen : (s.setIbLen x).obLen = s.obLen := rfl
@[simp] theorem State.setIbLen_inFmt : (s.setIbLen x).inFmt = s.inFmt := rfl
@[simp] theorem State.setIbLen_outFmt : (s.setIbLen x).outFmt = s.outFmt := rfl
@[simp] theorem State.setIbLen_status : (s.setIbLen x).status = s.status := rfl
@[simp] theorem State.setIbLen_finfo : (s.setIbLen x).finfo = s.finfo := rfl
@[simp] theorem State.setIbLen_ib : (s.setIbLen x).ib = s.ib := rfl
@[simp] theorem State.setIbLen_ob : (s.setIbLen x).ob = s.ob := rfl
@[simp] theorem State.setIbLen_pending : (s.setIbLen x).pending = s.pending := rfl
@[simp] theorem State.setIbLen_hostData : (s.setIbLen x).hostData = s.hostData := rfl
@[simp] theorem State.setIbLen_resets : (s.setIbLen x).resets = s.resets := rfl
@[simp] theorem State.setIbLen_v (r : VReg) : (s.setIbLen x).v r = s.v r := rfl
@[simp] theorem State.setIbLen_vw (r : VReg) : (s.setIbLen x).vw r = s.vw r := rfl
end setIbLen

section setObLen
variable (x : BitVec 61)
@[simp] theorem State.setObLen_regs : (s.setObLen x).regs = s.regs := rfl
@[simp] theorem State.setObLen_ibo : (s.setObLen x).ibo = s.ibo := rfl
@[simp] theorem State.setObLen_obo : (s.setObLen x).obo = s.obo := rfl
@[simp] theorem State.setObLen_n : (s.setObLen x).n = s.n := rfl
@[simp] theorem State.setObLen_cnt : (s.setObLen x).cnt = s.cnt := rfl
@[simp] theorem State.setObLen_ibLen : (s.setObLen x).ibLen = s.ibLen := rfl
@[simp] theorem State.setObLen_obLen : (s.setObLen x).obLen = x := rfl
@[simp] theorem State.setObLen_inFmt : (s.setObLen x).inFmt = s.inFmt := rfl
@[simp] theorem State.setObLen_outFmt : (s.setObLen x).outFmt = s.outFmt := rfl
@[simp] theorem State.setObLen_status : (s.setObLen x).status = s.status := rfl
@[simp] theorem State.setObLen_finfo : (s.setObLen x).finfo = s.finfo := rfl
@[simp] theorem State.setObLen_ib : (s.setObLen x).ib = s.ib := rfl
@[simp] theorem State.setObLen_ob : (s.setObLen x).ob = s.ob := rfl
@[simp] theorem State.setObLen_pending : (s.setObLen x).pending = s.pending := rfl
@[simp] theorem State.setObLen_hostData : (s.setObLen x).hostData = s.hostData := rfl
@[simp] theorem State.setObLen_resets : (s.setObLen x).resets = s.resets := rfl
@[simp] theorem State.setObLen_v (r : VReg) : (s.setObLen x).v r = s.v r := rfl
@[simp] theorem State.setObLen_vw (r : VReg) : (s.setObLen x).vw r = s.vw r := rfl
end setObLen

section setInFmt
variable (x : BitVec 7)
@[simp] theorem State.setInFmt_regs : (s.setInFmt x).regs = s.regs := rfl
@[simp] theorem State.setInFmt_ibo : (s.setInFmt x).ibo = s.ibo := rfl
@[simp] theorem State.setInFmt_obo : (s.setInFmt x).obo = s.obo := rfl
@[simp] theorem State.setInFmt_n : (s.setInFmt x).n = s.n := rfl
@[simp] theorem State.setInFmt_cnt : (s.setInFmt x).cnt = s.cnt := rfl
@[simp] theorem State.setInFmt_ibLen : (s.setInFmt x).ibLen = s.ibLen := rfl
@[simp] theorem State.setInFmt_obLen : (s.setInFmt x).obLen = s.obLen := rfl
@[simp] theorem State.setInFmt_inFmt : (s.setInFmt x).inFmt = x := rfl
@[simp] theorem State.setInFmt_outFmt : (s.setInFmt x).outFmt = s.outFmt := rfl
@[simp] theorem State.setInFmt_status : (s.setInFmt x).status = s.status := rfl
@[simp] theorem State.setInFmt_finfo : (s.setInFmt x).finfo = s.finfo := rfl
@[simp] theorem State.setInFmt_ib : (s.setInFmt x).ib = s.ib := rfl
@[simp] theorem State.setInFmt_ob : (s.setInFmt x).ob = s.ob := rfl
@[simp] theorem State.setInFmt_pending : (s.setInFmt x).pending = s.pending := rfl
@[simp] theorem State.setInFmt_hostData : (s.setInFmt x).hostData = s.hostData := rfl
@[simp] theorem State.setInFmt_resets : (s.setInFmt x).resets = s.resets := rfl
@[simp] theorem State.setInFmt_v (r : VReg) : (s.setInFmt x).v r = s.v r := rfl
@[simp] theorem State.setInFmt_vw (r : VReg) : (s.setInFmt x).vw r = s.vw r := rfl
end setInFmt

section setOutFmt
variable (x : BitVec 7)
@[simp] theorem State.setOutFmt_regs : (s.setOutFmt x).regs = s.regs := rfl
@[simp] theorem State.setOutFmt_ibo : (s.setOutFmt x).ibo = s.ibo := rfl
@[simp] theorem State.setOutFmt_obo : (s.setOutFmt x).obo = s.obo := rfl
@[simp] theorem State.setOutFmt_n : (s.setOutFmt x).n = s.n := rfl
@[simp] theorem State.setOutFmt_cnt : (s.setOutFmt x).cnt = s.cnt := rfl
@[simp] theorem State.setOutFmt_ibLen : (s.setOutFmt x).ibLen = s.ibLen := rfl
@[simp] theorem State.setOutFmt_obLen : (s.setOutFmt x).obLen = s.obLen := rfl
@[simp] theorem State.setOutFmt_inFmt : (s.setOutFmt x).inFmt = s.inFmt := rfl
@[simp] theorem State.setOutFmt_outFmt : (s.setOutFmt x).outFmt = x := rfl
@[simp] theorem State.setOutFmt_status : (s.setOutFmt x).status = s.status := rfl
@[simp] theorem State.setOutFmt_finfo : (s.setOutFmt x).finfo = s.finfo := rfl
@[simp] theorem State.setOutFmt_ib : (s.setOutFmt x).ib = s.ib := rfl
@[simp] theorem State.setOutFmt_ob : (s.setOutFmt x).ob = s.ob := rfl
@[simp] theorem State.setOutFmt_pending : (s.setOutFmt x).pending = s.pending := rfl
@[simp] theorem State.setOutFmt_hostData : (s.setOutFmt x).hostData = s.hostData := rfl
@[simp] theorem State.setOutFmt_resets : (s.setOutFmt x).resets = s.resets := rfl
@[simp] theorem State.setOutFmt_v (r : VReg) : (s.setOutFmt x).v r = s.v r := rfl
@[simp] theorem State.setOutFmt_vw (r : VReg) : (s.setOutFmt x).vw r = s.vw r := rfl
end setOutFmt

section setStatus
variable (x : Status)
@[simp] theorem State.setStatus_regs : (s.setStatus x).regs = s.regs := rfl
@[simp] theorem State.setStatus_ibo : (s.setStatus x).ibo = s.ibo := rfl
@[simp] theorem State.setStatus_obo : (s.setStatus x).obo = s.obo := rfl
@[simp] theorem State.setStatus_n : (s.setStatus x).n = s.n := rfl
@[simp] theorem State.setStatus_cnt : (s.setStatus x).cnt = s.cnt := rfl
@[simp] theorem State.setStatus_ibLen : (s.setStatus x).ibLen = s.ibLen := rfl
@[simp] theorem State.setStatus_obLen : (s.setStatus x).obLen = s.obLen := rfl
@[simp] theorem State.setStatus_inFmt : (s.setStatus x).inFmt = s.inFmt := rfl
@[simp] theorem State.setStatus_outFmt : (s.setStatus x).outFmt = s.outFmt := rfl
@[simp] theorem State.setStatus_status : (s.setStatus x).status = x := rfl
@[simp] theorem State.setStatus_finfo : (s.setStatus x).finfo = s.finfo := rfl
@[simp] theorem State.setStatus_ib : (s.setStatus x).ib = s.ib := rfl
@[simp] theorem State.setStatus_ob : (s.setStatus x).ob = s.ob := rfl
@[simp] theorem State.setStatus_pending : (s.setStatus x).pending = s.pending := rfl
@[simp] theorem State.setStatus_hostData : (s.setStatus x).hostData = s.hostData := rfl
@[simp] theorem State.setStatus_resets : (s.setStatus x).resets = s.resets := rfl
@[simp] theorem State.setStatus_v (r : VReg) : (s.setStatus x).v r = s.v r := rfl
@[simp] theorem State.setStatus_vw (r : VReg) : (s.setStatus x).vw r = s.vw r := rfl
end setStatus

section setFinfo
variable (x : Word)
@[simp] theorem State.setFinfo_regs : (s.setFinfo x).regs = s.regs := rfl
@[simp] theorem State.setFinfo_ibo : (s.setFinfo x).ibo = s.ibo := rfl
@[simp] theorem State.setFinfo_obo : (s.setFinfo x).obo = s.obo := rfl
@[simp] theorem State.setFinfo_n : (s.setFinfo x).n = s.n := rfl
@[simp] theorem State.setFinfo_cnt : (s.setFinfo x).cnt = s.cnt := rfl
@[simp] theorem State.setFinfo_ibLen : (s.setFinfo x).ibLen = s.ibLen := rfl
@[simp] theorem State.setFinfo_obLen : (s.setFinfo x).obLen = s.obLen := rfl
@[simp] theorem State.setFinfo_inFmt : (s.setFinfo x).inFmt = s.inFmt := rfl
@[simp] theorem State.setFinfo_outFmt : (s.setFinfo x).outFmt = s.outFmt := rfl
@[simp] theorem State.setFinfo_status : (s.setFinfo x).status = s.status := rfl
@[simp] theorem State.setFinfo_finfo : (s.setFinfo x).finfo = x := rfl
@[simp] theorem State.setFinfo_ib : (s.setFinfo x).ib = s.ib := rfl
@[simp] theorem State.setFinfo_ob : (s.setFinfo x).ob = s.ob := rfl
@[simp] theorem State.setFinfo_pending : (s.setFinfo x).pending = s.pending := rfl
@[simp] theorem State.setFinfo_hostData : (s.setFinfo x).hostData = s.hostData := rfl
@[simp] theorem State.setFinfo_resets : (s.setFinfo x).resets = s.resets := rfl
@[simp] theorem State.setFinfo_v (r : VReg) : (s.setFinfo x).v r = s.v r := rfl
@[simp] theorem State.setFinfo_vw (r : VReg) : (s.setFinfo x).vw r = s.vw r := rfl
end setFinfo

section setIb
variable (x : Memory)
@[simp] theorem State.setIb_regs : (s.setIb x).regs = s.regs := rfl
@[simp] theorem State.setIb_ibo : (s.setIb x).ibo = s.ibo := rfl
@[simp] theorem State.setIb_obo : (s.setIb x).obo = s.obo := rfl
@[simp] theorem State.setIb_n : (s.setIb x).n = s.n := rfl
@[simp] theorem State.setIb_cnt : (s.setIb x).cnt = s.cnt := rfl
@[simp] theorem State.setIb_ibLen : (s.setIb x).ibLen = s.ibLen := rfl
@[simp] theorem State.setIb_obLen : (s.setIb x).obLen = s.obLen := rfl
@[simp] theorem State.setIb_inFmt : (s.setIb x).inFmt = s.inFmt := rfl
@[simp] theorem State.setIb_outFmt : (s.setIb x).outFmt = s.outFmt := rfl
@[simp] theorem State.setIb_status : (s.setIb x).status = s.status := rfl
@[simp] theorem State.setIb_finfo : (s.setIb x).finfo = s.finfo := rfl
@[simp] theorem State.setIb_ib : (s.setIb x).ib = x := rfl
@[simp] theorem State.setIb_ob : (s.setIb x).ob = s.ob := rfl
@[simp] theorem State.setIb_pending : (s.setIb x).pending = s.pending := rfl
@[simp] theorem State.setIb_hostData : (s.setIb x).hostData = s.hostData := rfl
@[simp] theorem State.setIb_resets : (s.setIb x).resets = s.resets := rfl
@[simp] theorem State.setIb_v (r : VReg) : (s.setIb x).v r = s.v r := rfl
@[simp] theorem State.setIb_vw (r : VReg) : (s.setIb x).vw r = s.vw r := rfl
end setIb

section setOb
variable (x : Memory)
@[simp] theorem State.setOb_regs : (s.setOb x).regs = s.regs := rfl
@[simp] theorem State.setOb_ibo : (s.setOb x).ibo = s.ibo := rfl
@[simp] theorem State.setOb_obo : (s.setOb x).obo = s.obo := rfl
@[simp] theorem State.setOb_n : (s.setOb x).n = s.n := rfl
@[simp] theorem State.setOb_cnt : (s.setOb x).cnt = s.cnt := rfl
@[simp] theorem State.setOb_ibLen : (s.setOb x).ibLen = s.ibLen := rfl
@[simp] theorem State.setOb_obLen : (s.setOb x).obLen = s.obLen := rfl
@[simp] theorem State.setOb_inFmt : (s.setOb x).inFmt = s.inFmt := rfl
@[simp] theorem State.setOb_outFmt : (s.setOb x).outFmt = s.outFmt := rfl
@[simp] theorem State.setOb_status : (s.setOb x).status = s.status := rfl
@[simp] theorem State.setOb_finfo : (s.setOb x).finfo = s.finfo := rfl
@[simp] theorem State.setOb_ib : (s.setOb x).ib = s.ib := rfl
@[simp] theorem State.setOb_ob : (s.setOb x).ob = x := rfl
@[simp] theorem State.setOb_pending : (s.setOb x).pending = s.pending := rfl
@[simp] theorem State.setOb_hostData : (s.setOb x).hostData = s.hostData := rfl
@[simp] theorem State.setOb_resets : (s.setOb x).resets = s.resets := rfl
@[simp] theorem State.setOb_v (r : VReg) : (s.setOb x).v r = s.v r := rfl
@[simp] theorem State.setOb_vw (r : VReg) : (s.setOb x).vw r = s.vw r := rfl
end setOb

section setPending
variable (x : List HostAction)
@[simp] theorem State.setPending_regs : (s.setPending x).regs = s.regs := rfl
@[simp] theorem State.setPending_ibo : (s.setPending x).ibo = s.ibo := rfl
@[simp] theorem State.setPending_obo : (s.setPending x).obo = s.obo := rfl
@[simp] theorem State.setPending_n : (s.setPending x).n = s.n := rfl
@[simp] theorem State.setPending_cnt : (s.setPending x).cnt = s.cnt := rfl
@[simp] theorem State.setPending_ibLen : (s.setPending x).ibLen = s.ibLen := rfl
@[simp] theorem State.setPending_obLen : (s.setPending x).obLen = s.obLen := rfl
@[simp] theorem State.setPending_inFmt : (s.setPending x).inFmt = s.inFmt := rfl
@[simp] theorem State.setPending_outFmt : (s.setPending x).outFmt = s.outFmt := rfl
@[simp] theorem State.setPending_status : (s.setPending x).status = s.status := rfl
@[simp] theorem State.setPending_finfo : (s.setPending x).finfo = s.finfo := rfl
@[simp] theorem State.setPending_ib : (s.setPending x).ib = s.ib := rfl
@[simp] theorem State.setPending_ob : (s.setPending x).ob = s.ob := rfl
@[simp] theorem State.setPending_pending : (s.setPending x).pending = x := rfl
@[simp] theorem State.setPending_hostData : (s.setPending x).hostData = s.hostData := rfl
@[simp] theorem State.setPending_resets : (s.setPending x).resets = s.resets := rfl
@[simp] theorem State.setPending_v (r : VReg) : (s.setPending x).v r = s.v r := rfl
@[simp] theorem State.setPending_vw (r : VReg) : (s.setPending x).vw r = s.vw r := rfl
end setPending

section setHostData
variable (x : Word)
@[simp] theorem State.setHostData_regs : (s.setHostData x).regs = s.regs := rfl
@[simp] theorem State.setHostData_ibo : (s.setHostData x).ibo = s.ibo := rfl
@[simp] theorem State.setHostData_obo : (s.setHostData x).obo = s.obo := rfl
@[simp] theorem State.setHostData_n : (s.setHostData x).n = s.n := rfl
@[simp] theorem State.setHostData_cnt : (s.setHostData x).cnt = s.cnt := rfl
@[simp] theorem State.setHostData_ibLen : (s.setHostData x).ibLen = s.ibLen := rfl
@[simp] theorem State.setHostData_obLen : (s.setHostData x).obLen = s.obLen := rfl
@[simp] theorem State.setHostData_inFmt : (s.setHostData x).inFmt = s.inFmt := rfl
@[simp] theorem State.setHostData_outFmt : (s.setHostData x).outFmt = s.outFmt := rfl
@[simp] theorem State.setHostData_status : (s.setHostData x).status = s.status := rfl
@[simp] theorem State.setHostData_finfo : (s.setHostData x).finfo = s.finfo := rfl
@[simp] theorem State.setHostData_ib : (s.setHostData x).ib = s.ib := rfl
@[simp] theorem State.setHostData_ob : (s.setHostData x).ob = s.ob := rfl
@[simp] theorem State.setHostData_pending : (s.setHostData x).pending = s.pending := rfl
@[simp] theorem State.setHostData_hostData : (s.setHostData x).hostData = x := rfl
@[simp] theorem State.setHostData_resets : (s.setHostData x).resets = s.resets := rfl
@[simp] theorem State.setHostData_v (r : VReg) : (s.setHostData x).v r = s.v r := rfl
@[simp] theorem State.setHostData_vw (r : VReg) : (s.setHostData x).vw r = s.vw r := rfl
end setHostData

section writeV
variable (r : VReg) (x : Word)
@[simp] theorem State.writeV_regs : (s.writeV r x).regs = s.regs.set r ⟨x, true⟩ := rfl
@[simp] theorem State.writeV_ibo : (s.writeV r x).ibo = s.ibo := rfl
@[simp] theorem State.writeV_obo : (s.writeV r x).obo = s.obo := rfl
@[simp] theorem State.writeV_n : (s.writeV r x).n = s.n := rfl
@[simp] theorem State.writeV_cnt : (s.writeV r x).cnt = s.cnt := rfl
@[simp] theorem State.writeV_ibLen : (s.writeV r x).ibLen = s.ibLen := rfl
@[simp] theorem State.writeV_obLen : (s.writeV r x).obLen = s.obLen := rfl
@[simp] theorem State.writeV_inFmt : (s.writeV r x).inFmt = s.inFmt := rfl
@[simp] theorem State.writeV_outFmt : (s.writeV r x).outFmt = s.outFmt := rfl
@[simp] theorem State.writeV_status : (s.writeV r x).status = s.status := rfl
@[simp] theorem State.writeV_finfo : (s.writeV r x).finfo = s.finfo := rfl
@[simp] theorem State.writeV_ib : (s.writeV r x).ib = s.ib := rfl
@[simp] theorem State.writeV_ob : (s.writeV r x).ob = s.ob := rfl
@[simp] theorem State.writeV_pending : (s.writeV r x).pending = s.pending := rfl
@[simp] theorem State.writeV_hostData : (s.writeV r x).hostData = s.hostData := rfl
@[simp] theorem State.writeV_resets : (s.writeV r x).resets = s.resets := rfl
end writeV

section raise
variable (f : BlockFault)
@[simp] theorem State.raise_regs : (s.raise f).regs = s.regs := rfl
@[simp] theorem State.raise_ibo : (s.raise f).ibo = s.ibo := rfl
@[simp] theorem State.raise_obo : (s.raise f).obo = s.obo := rfl
@[simp] theorem State.raise_n : (s.raise f).n = s.n := rfl
@[simp] theorem State.raise_cnt : (s.raise f).cnt = s.cnt := rfl
@[simp] theorem State.raise_ibLen : (s.raise f).ibLen = s.ibLen := rfl
@[simp] theorem State.raise_obLen : (s.raise f).obLen = s.obLen := rfl
@[simp] theorem State.raise_inFmt : (s.raise f).inFmt = s.inFmt := rfl
@[simp] theorem State.raise_outFmt : (s.raise f).outFmt = s.outFmt := rfl
@[simp] theorem State.raise_status : (s.raise f).status = { s.status with fault := true, fcode := f.code } := rfl
@[simp] theorem State.raise_finfo : (s.raise f).finfo = f.info := rfl
@[simp] theorem State.raise_ib : (s.raise f).ib = s.ib := rfl
@[simp] theorem State.raise_ob : (s.raise f).ob = s.ob := rfl
@[simp] theorem State.raise_pending : (s.raise f).pending = s.pending := rfl
@[simp] theorem State.raise_hostData : (s.raise f).hostData = s.hostData := rfl
@[simp] theorem State.raise_resets : (s.raise f).resets = s.resets := rfl
@[simp] theorem State.raise_v (r : VReg) : (s.raise f).v r = s.v r := rfl
@[simp] theorem State.raise_vw (r : VReg) : (s.raise f).vw r = s.vw r := rfl
end raise

section flags
variable (ok : Bool)
@[simp] theorem recordResolve_regs : (recordResolve s ok).regs = s.regs := rfl
@[simp] theorem recordResolve_ibo : (recordResolve s ok).ibo = s.ibo := rfl
@[simp] theorem recordResolve_obo : (recordResolve s ok).obo = s.obo := rfl
@[simp] theorem recordResolve_n : (recordResolve s ok).n = s.n := rfl
@[simp] theorem recordResolve_cnt : (recordResolve s ok).cnt = s.cnt := rfl
@[simp] theorem recordResolve_ibLen : (recordResolve s ok).ibLen = s.ibLen := rfl
@[simp] theorem recordResolve_obLen : (recordResolve s ok).obLen = s.obLen := rfl
@[simp] theorem recordResolve_inFmt : (recordResolve s ok).inFmt = s.inFmt := rfl
@[simp] theorem recordResolve_outFmt : (recordResolve s ok).outFmt = s.outFmt := rfl
@[simp] theorem recordResolve_status : (recordResolve s ok).status = { s.status with resolved := ok, cfgErr := !ok } := rfl
@[simp] theorem recordResolve_finfo : (recordResolve s ok).finfo = s.finfo := rfl
@[simp] theorem recordResolve_ib : (recordResolve s ok).ib = s.ib := rfl
@[simp] theorem recordResolve_ob : (recordResolve s ok).ob = s.ob := rfl
@[simp] theorem recordResolve_pending : (recordResolve s ok).pending = s.pending := rfl
@[simp] theorem recordResolve_hostData : (recordResolve s ok).hostData = s.hostData := rfl
@[simp] theorem recordResolve_resets : (recordResolve s ok).resets = s.resets := rfl
@[simp] theorem resolve_regs : (resolve s).regs = s.regs := rfl
@[simp] theorem resolve_ibo : (resolve s).ibo = s.ibo := rfl
@[simp] theorem resolve_obo : (resolve s).obo = s.obo := rfl
@[simp] theorem resolve_n : (resolve s).n = s.n := rfl
@[simp] theorem resolve_cnt : (resolve s).cnt = s.cnt := rfl
@[simp] theorem resolve_ibLen : (resolve s).ibLen = s.ibLen := rfl
@[simp] theorem resolve_obLen : (resolve s).obLen = s.obLen := rfl
@[simp] theorem resolve_inFmt : (resolve s).inFmt = s.inFmt := rfl
@[simp] theorem resolve_outFmt : (resolve s).outFmt = s.outFmt := rfl
@[simp] theorem resolve_status : (resolve s).status = { s.status with resolved := resolveOk s, cfgErr := !resolveOk s } := rfl
@[simp] theorem resolve_finfo : (resolve s).finfo = s.finfo := rfl
@[simp] theorem resolve_ib : (resolve s).ib = s.ib := rfl
@[simp] theorem resolve_ob : (resolve s).ob = s.ob := rfl
@[simp] theorem resolve_pending : (resolve s).pending = s.pending := rfl
@[simp] theorem resolve_hostData : (resolve s).hostData = s.hostData := rfl
@[simp] theorem resolve_resets : (resolve s).resets = s.resets := rfl
@[simp] theorem clearResolved_regs : (clearResolved s).regs = s.regs := rfl
@[simp] theorem clearResolved_ibo : (clearResolved s).ibo = s.ibo := rfl
@[simp] theorem clearResolved_obo : (clearResolved s).obo = s.obo := rfl
@[simp] theorem clearResolved_n : (clearResolved s).n = s.n := rfl
@[simp] theorem clearResolved_cnt : (clearResolved s).cnt = s.cnt := rfl
@[simp] theorem clearResolved_ibLen : (clearResolved s).ibLen = s.ibLen := rfl
@[simp] theorem clearResolved_obLen : (clearResolved s).obLen = s.obLen := rfl
@[simp] theorem clearResolved_inFmt : (clearResolved s).inFmt = s.inFmt := rfl
@[simp] theorem clearResolved_outFmt : (clearResolved s).outFmt = s.outFmt := rfl
@[simp] theorem clearResolved_status : (clearResolved s).status = { s.status with resolved := false } := rfl
@[simp] theorem clearResolved_finfo : (clearResolved s).finfo = s.finfo := rfl
@[simp] theorem clearResolved_ib : (clearResolved s).ib = s.ib := rfl
@[simp] theorem clearResolved_ob : (clearResolved s).ob = s.ob := rfl
@[simp] theorem clearResolved_pending : (clearResolved s).pending = s.pending := rfl
@[simp] theorem clearResolved_hostData : (clearResolved s).hostData = s.hostData := rfl
@[simp] theorem clearResolved_resets : (clearResolved s).resets = s.resets := rfl
@[simp] theorem batchStart_regs : (batchStart s).regs = s.regs := rfl
@[simp] theorem batchStart_ibo : (batchStart s).ibo = 0 := rfl
@[simp] theorem batchStart_obo : (batchStart s).obo = 0 := rfl
@[simp] theorem batchStart_n : (batchStart s).n = s.n := rfl
@[simp] theorem batchStart_cnt : (batchStart s).cnt = 0 := rfl
@[simp] theorem batchStart_ibLen : (batchStart s).ibLen = s.ibLen := rfl
@[simp] theorem batchStart_obLen : (batchStart s).obLen = s.obLen := rfl
@[simp] theorem batchStart_inFmt : (batchStart s).inFmt = s.inFmt := rfl
@[simp] theorem batchStart_outFmt : (batchStart s).outFmt = s.outFmt := rfl
@[simp] theorem batchStart_status : (batchStart s).status = s.status := rfl
@[simp] theorem batchStart_finfo : (batchStart s).finfo = s.finfo := rfl
@[simp] theorem batchStart_ib : (batchStart s).ib = s.ib := rfl
@[simp] theorem batchStart_ob : (batchStart s).ob = s.ob := rfl
@[simp] theorem batchStart_pending : (batchStart s).pending = s.pending := rfl
@[simp] theorem batchStart_hostData : (batchStart s).hostData = s.hostData := rfl
@[simp] theorem batchStart_resets : (batchStart s).resets = s.resets := rfl
end flags

section reset
@[simp] theorem State.platformReset_regs : s.platformReset.regs = SampleRegs.afterReset (s.resets + 1) := rfl
@[simp] theorem State.platformReset_ibo : s.platformReset.ibo = 0 := rfl
@[simp] theorem State.platformReset_obo : s.platformReset.obo = 0 := rfl
@[simp] theorem State.platformReset_n : s.platformReset.n = 0 := rfl
@[simp] theorem State.platformReset_cnt : s.platformReset.cnt = 0 := rfl
@[simp] theorem State.platformReset_ibLen : s.platformReset.ibLen = 0 := rfl
@[simp] theorem State.platformReset_obLen : s.platformReset.obLen = 0 := rfl
@[simp] theorem State.platformReset_inFmt : s.platformReset.inFmt = 0 := rfl
@[simp] theorem State.platformReset_outFmt : s.platformReset.outFmt = 0 := rfl
@[simp] theorem State.platformReset_status : s.platformReset.status = ⟨false, false, false, 0⟩ := rfl
@[simp] theorem State.platformReset_finfo : s.platformReset.finfo = 0 := rfl
@[simp] theorem State.platformReset_ib : s.platformReset.ib = s.ib := rfl
@[simp] theorem State.platformReset_ob : s.platformReset.ob = s.ob := rfl
@[simp] theorem State.platformReset_pending : s.platformReset.pending = s.pending := rfl
@[simp] theorem State.platformReset_hostData : s.platformReset.hostData = s.hostData := rfl
@[simp] theorem State.platformReset_resets : s.platformReset.resets = s.resets + 1 := rfl
end reset

/-! ## Sample registers -/

@[simp] theorem SampleRegs.get_set_same (g : SampleRegs) (r : VReg) (x : SampleReg) : (g.set r x).get r = x := by
  cases r <;> rfl

theorem SampleRegs.get_set_ne (g : SampleRegs) (r q : VReg) (x : SampleReg) (h : q ≠ r) :
    (g.set r x).get q = g.get q := by
  cases r <;> cases q <;> first | rfl | exact absurd rfl h

theorem SampleRegs.ext_get (g h : SampleRegs) (e : ∀ r, g.get r = h.get r) : g = h := by
  cases g
  cases h
  have e0 := e .v0
  have e1 := e .v1
  have e2 := e .v2
  have e3 := e .v3
  simp only [SampleRegs.get] at e0 e1 e2 e3
  simp only [e0, e1, e2, e3]

@[simp] theorem State.writeV_v_same (r : VReg) (x : Word) : (s.writeV r x).v r = x := by
  simp [State.v]

@[simp] theorem State.writeV_vw_same (r : VReg) (x : Word) : (s.writeV r x).vw r = true := by
  simp [State.vw]

theorem State.writeV_v_ne (r q : VReg) (x : Word) (h : q ≠ r) : (s.writeV r x).v q = s.v q := by
  simp [State.v, SampleRegs.get_set_ne _ _ _ _ h]

theorem State.writeV_vw_ne (r q : VReg) (x : Word) (h : q ≠ r) : (s.writeV r x).vw q = s.vw q := by
  simp [State.vw, SampleRegs.get_set_ne _ _ _ _ h]

/-- A written flag that is set stays set when a register is written. -/
theorem State.writeV_vw_mono (r q : VReg) (x : Word) (h : s.vw q = true) : (s.writeV r x).vw q = true := by
  by_cases e : q = r
  · subst e
    simp
  · rw [State.writeV_vw_ne s r q x e, h]

@[simp] theorem State.afterReset_written (k : Nat) (r : VReg) : ((SampleRegs.afterReset k).get r).written = false := by
  cases r <;> rfl

end Sys2Proof.Machine
end

