-- ==== Sys2Proof/Laws/Cursor.lean ====
section
/-! SUPPORT. What each primitive of the bit cursor does: when it raises, and otherwise its result, the cursor it leaves and the
bits of the buffer it leaves (40_bit_cursor.md rules R120 to R123). -/

namespace Sys2Proof.Machine

/-- A byte index below a length register keeps the cursor far from 2^64: an advance by up to 64 bits past a checked span never
wraps (10_state.md rule R23). -/
theorem cursor_add (b : Word) (k : Nat) (h : b.toNat + k ≤ 8 * (2 ^ 61 - 1)) :
    (b + BitVec.ofNat 64 k).toNat = b.toNat + k := by
  rw [BitVec.toNat_add, BitVec.toNat_ofNat, Nat.mod_eq_of_lt (by omega : k < 2 ^ 64), Nat.mod_eq_of_lt (by omega)]

/-- The cursor stays in the buffer's bits when the span does. -/
theorem span_end_le (b k : Nat) (len : BitVec 61) (h : (b + k - 1) / 8 < len.toNat) :
    b + k ≤ 8 * (2 ^ 61 - 1) := by
  have := len.isLt
  omega

theorem spanLeaves_false {b len bytes : Nat} : spanLeaves b len bytes = false ↔ (b + len - 1) / 8 < bytes := by
  simp [spanLeaves]

theorem spanLeaves_true {b len bytes : Nat} : spanLeaves b len bytes = true ↔ bytes ≤ (b + len - 1) / 8 := by
  simp [spanLeaves]

/-! ## Aligned primitives -/

theorem alignedRead_misaligned (s : State) (h : s.ibo.toNat % 8 ≠ 0) : alignedRead s = .error (.alignFault s.ibo) := by
  simp [alignedRead, h]

theorem alignedRead_outside (s : State) (h : s.ibo.toNat % 8 = 0) (hb : s.ibLen.toNat ≤ s.ibo.toNat / 8) :
    alignedRead s = .error (.boundsFaultIB s.ibo) := by
  simp [alignedRead, h, hb]

theorem alignedRead_ok (s : State) (h : s.ibo.toNat % 8 = 0) (hb : s.ibo.toNat / 8 < s.ibLen.toNat) :
    alignedRead s = .ok ((s.ib.read (s.ibo.toNat / 8)).toNat, s.setIbo (s.ibo + 8#64)) := by
  simp [alignedRead, h, hb]

theorem alignedWrite_misaligned (o : Nat) (s : State) (h : s.obo.toNat % 8 ≠ 0) :
    alignedWrite o s = .error (.alignFault s.obo) := by
  simp [alignedWrite, h]

theorem alignedWrite_outside (o : Nat) (s : State) (h : s.obo.toNat % 8 = 0) (hb : s.obLen.toNat ≤ s.obo.toNat / 8) :
    alignedWrite o s = .error (.boundsFaultOB s.obo) := by
  simp [alignedWrite, h, hb]

theorem alignedWrite_ok (o : Nat) (s : State) (h : s.obo.toNat % 8 = 0) (hb : s.obo.toNat / 8 < s.obLen.toNat) :
    alignedWrite o s =
      .ok ((s.setOb (s.ob.write (s.obo.toNat / 8) (BitVec.ofNat 8 o))).setObo (s.obo + 8#64)) := by
  simp [alignedWrite, h, hb]

/-! ## Unaligned read -/

@[simp] theorem unalignedRead_zero (s : State) : unalignedRead 0 s = .ok (0, s) := rfl

theorem unalignedRead_outside (len : Nat) (s : State) (h0 : 0 < len) (h8 : len ≤ 8)
    (hb : s.ibLen.toNat ≤ (s.ibo.toNat + len - 1) / 8) : unalignedRead len s = .error (.boundsFaultIB s.ibo) := by
  have hc : s.ibLen.toNat ≤ s.ibo.toNat / 8 ∨
      (decide (8 < s.ibo.toNat % 8 + len) = true ∧ s.ibLen.toNat ≤ s.ibo.toNat / 8 + 1) := by
    rw [decide_eq_true_iff]
    omega
  simp only [unalignedRead, show len ≠ 0 by omega, if_false, hc, if_true]

/-- An in-bounds unaligned read: the bits of the field, the most significant one at the lowest offset
(20_memory.md rule R62). -/
theorem unalignedRead_ok (len : Nat) (s : State) (h0 : 0 < len) (h8 : len ≤ 8)
    (hb : (s.ibo.toNat + len - 1) / 8 < s.ibLen.toNat) :
    ∃ v, unalignedRead len s = .ok (v, s.setIbo (s.ibo + BitVec.ofNat 64 len)) ∧ v < 2 ^ len ∧
      ∀ j, j < len → v.testBit j = s.ib.bit (s.ibo.toNat + len - 1 - j) := by
  set b := s.ibo.toNat with hbdef
  have hc : ¬ (s.ibLen.toNat ≤ b / 8 ∨ (decide (8 < b % 8 + len) = true ∧ s.ibLen.toNat ≤ b / 8 + 1)) := by
    rw [decide_eq_true_iff]
    omega
  simp only [unalignedRead, show len ≠ 0 by omega, if_false, ← hbdef, hc]
  refine ⟨_, rfl, ?_, ?_⟩
  · have hl := bitField_lt ((s.ib.read (b / 8)).toNat * 256 +
      (if decide (8 < b % 8 + len) = true then (s.ib.read (b / 8 + 1)).toNat else 0)) (15 - b % 8) (16 - b % 8 - len)
    rwa [show 15 - b % 8 - (16 - b % 8 - len) + 1 = len by omega] at hl
  · intro j hj
    rw [testBit_bitField]
    have hlo : (if decide (8 < b % 8 + len) = true then (s.ib.read (b / 8 + 1)).toNat else 0) < 2 ^ 8 := by
      split
      · exact (s.ib.read (b / 8 + 1)).isLt
      · norm_num
    rw [show (s.ib.read (b / 8)).toNat * 256 = 2 ^ 8 * (s.ib.read (b / 8)).toNat by ring,
      Nat.testBit_two_pow_mul_add _ hlo]
    have h1 : j < 15 - b % 8 - (16 - b % 8 - len) + 1 := by omega
    simp only [h1, decide_true, Bool.true_and, Memory.bit, BitVec.getLsbD]
    by_cases hq : b % 8 + len - 1 - j < 8
    · rw [if_neg (by omega), show (b + len - 1 - j) / 8 = b / 8 by omega,
        show 16 - b % 8 - len + j - 8 = 7 - (b + len - 1 - j) % 8 by omega]
    · rw [if_pos (by omega), if_pos (decide_eq_true (by omega)), show (b + len - 1 - j) / 8 = b / 8 + 1 by omega,
        show 16 - b % 8 - len + j = 7 - (b + len - 1 - j) % 8 by omega]

/-! ## Unaligned write -/

@[simp] theorem unalignedWrite_zero (v : Nat) (s : State) : unalignedWrite 0 v s = .ok s := rfl

theorem unalignedWrite_outside (len v : Nat) (s : State) (h0 : 0 < len) (h8 : len ≤ 8)
    (hb : s.obLen.toNat ≤ (s.obo.toNat + len - 1) / 8) : unalignedWrite len v s = .error (.boundsFaultOB s.obo) := by
  have hc : s.obLen.toNat ≤ s.obo.toNat / 8 ∨
      (decide (8 < s.obo.toNat % 8 + len) = true ∧ s.obLen.toNat ≤ s.obo.toNat / 8 + 1) := by
    rw [decide_eq_true_iff]
    omega
  simp only [unalignedWrite, show len ≠ 0 by omega, if_false, hc, if_true]

/-- The bits a write of `len` bits of `v` at offset `b` leaves in the bytes it touches: the field, most significant bit first;
below it and above it zeros, but for what a byte entered inside already held (rule R123). -/
def writtenBit (m : Memory) (b len v p : Nat) : Bool :=
  (decide (b ≤ p ∧ p < b + len) && v.testBit (b + len - 1 - p)) ||
    (decide (b % 8 ≠ 0 ∧ p / 8 = b / 8) && m.bit p)

/-- An in-bounds unaligned write (rule R123). -/
theorem unalignedWrite_ok (len v : Nat) (s : State) (h0 : 0 < len) (h8 : len ≤ 8)
    (hb : (s.obo.toNat + len - 1) / 8 < s.obLen.toNat) :
    ∃ m, unalignedWrite len v s = .ok ((s.setOb m).setObo (s.obo + BitVec.ofNat 64 len)) ∧
      (s.ob.wf = true → m.wf = true) ∧
      (∀ a, a < s.obo.toNat / 8 ∨ (s.obo.toNat + len - 1) / 8 < a → m.read a = s.ob.read a) ∧
      ∀ p, s.obo.toNat / 8 ≤ p / 8 → p / 8 ≤ (s.obo.toNat + len - 1) / 8 →
        m.bit p = writtenBit s.ob s.obo.toNat len v p := by
  set b := s.obo.toNat with hbdef
  have hc : ¬ (s.obLen.toNat ≤ b / 8 ∨ (decide (8 < b % 8 + len) = true ∧ s.obLen.toNat ≤ b / 8 + 1)) := by
    rw [decide_eq_true_iff]
    omega
  simp only [unalignedWrite, show len ≠ 0 by omega, if_false, ← hbdef, hc]
  refine ⟨_, rfl, ?_, ?_, ?_⟩
  · intro hw
    split
    · exact Memory.wf_write _ _ _ (Memory.wf_write _ _ _ hw)
    · exact Memory.wf_write _ _ _ hw
  · intro a ha
    split
    · rename_i hcr
      rw [decide_eq_true_iff] at hcr
      rw [Memory.read_write_ne _ _ _ _ (by omega), Memory.read_write_ne _ _ _ _ (by omega)]
    · rw [Memory.read_write_ne _ _ _ _ (by omega)]
  · intro p hp1 hp2
    have hx : ∀ k, (v % 2 ^ len * 2 ^ (16 - b % 8 - len)).testBit k =
        (decide (16 - b % 8 - len ≤ k) && (decide (k - (16 - b % 8 - len) < len) && v.testBit (k - (16 - b % 8 - len)))) := by
      intro k
      rw [Nat.testBit_mul_two_pow, Nat.testBit_mod_two_pow]
    by_cases hfirst : p / 8 = b / 8
    · have goal1 : ((s.ob.write (b / 8) ((if b % 8 = 0 then 0#8 else s.ob.read (b / 8)) |||
          BitVec.ofNat 8 (v % 2 ^ len * 2 ^ (16 - b % 8 - len) / 256))).bit p) = writtenBit s.ob b len v p := by
        rw [Memory.bit_write, if_pos hfirst, BitVec.getLsbD_or, BitVec.getLsbD_ofNat,
          show (256 : Nat) = 2 ^ 8 from rfl, Nat.testBit_div_two_pow, hx]
        have hold : (if b % 8 = 0 then 0#8 else s.ob.read (b / 8)).getLsbD (7 - p % 8) =
            (decide (b % 8 ≠ 0 ∧ p / 8 = b / 8) && s.ob.bit p) := by
          by_cases hi : b % 8 = 0
          · simp [hi]
          · simp [hi, hfirst, Memory.bit]
        rw [hold, Bool.or_comm, writtenBit]
        congr 1
        by_cases hin : b ≤ p ∧ p < b + len
        · simp only [hin, and_self, decide_true, Bool.true_and,
            decide_eq_true (show 7 - p % 8 < 8 by omega),
            decide_eq_true (show 16 - b % 8 - len ≤ 7 - p % 8 + 8 by omega),
            decide_eq_true (show 7 - p % 8 + 8 - (16 - b % 8 - len) < len by omega)]
          rw [show 7 - p % 8 + 8 - (16 - b % 8 - len) = b + len - 1 - p by omega]
        · simp only [hin, decide_false, Bool.false_and]
          by_cases h1 : 16 - b % 8 - len ≤ 7 - p % 8 + 8
          · simp [show ¬ (7 - p % 8 + 8 - (16 - b % 8 - len) < len) by omega]
          · simp [h1]
      split
      · rw [Memory.bit_write, if_neg (by omega)]
        exact goal1
      · exact goal1
    · rw [if_pos (decide_eq_true (show 8 < b % 8 + len by omega)), Memory.bit_write, if_pos (by omega),
        BitVec.getLsbD_ofNat, show (256 : Nat) = 2 ^ 8 from rfl, Nat.testBit_mod_two_pow, hx, writtenBit]
      simp only [hfirst, and_false, decide_false, Bool.false_and, Bool.or_false]
      by_cases hin : b ≤ p ∧ p < b + len
      · simp only [hin, and_self, decide_true, Bool.true_and,
          decide_eq_true (show 7 - p % 8 < 8 by omega),
          decide_eq_true (show 16 - b % 8 - len ≤ 7 - p % 8 by omega),
          decide_eq_true (show 7 - p % 8 - (16 - b % 8 - len) < len by omega)]
        rw [show 7 - p % 8 - (16 - b % 8 - len) = b + len - 1 - p by omega]
      · simp only [hin, decide_false, Bool.false_and]
        by_cases h1 : 16 - b % 8 - len ≤ 7 - p % 8
        · simp [show ¬ (7 - p % 8 - (16 - b % 8 - len) < len) by omega]
        · simp [h1]

/-- An in-bounds aligned write, in the terms of `writtenBit`: at a byte boundary it is an unaligned write of eight bits
(rule R130). -/
theorem alignedWrite_bits (v : Nat) (s : State) (h : s.obo.toNat % 8 = 0) (hb : s.obo.toNat / 8 < s.obLen.toNat) :
    ∃ m, alignedWrite v s = .ok ((s.setOb m).setObo (s.obo + BitVec.ofNat 64 8)) ∧
      (s.ob.wf = true → m.wf = true) ∧
      (∀ a, a < s.obo.toNat / 8 ∨ (s.obo.toNat + 8 - 1) / 8 < a → m.read a = s.ob.read a) ∧
      ∀ p, s.obo.toNat / 8 ≤ p / 8 → p / 8 ≤ (s.obo.toNat + 8 - 1) / 8 →
        m.bit p = writtenBit s.ob s.obo.toNat 8 v p := by
  refine ⟨_, alignedWrite_ok v s h hb, fun hw => Memory.wf_write _ _ _ hw, ?_, ?_⟩
  · intro a ha
    exact Memory.read_write_ne _ _ _ _ (by omega)
  · intro p h1 h2
    rw [Memory.bit_write, if_pos (by omega), BitVec.getLsbD_ofNat, writtenBit]
    have hp : s.obo.toNat ≤ p ∧ p < s.obo.toNat + 8 := by omega
    simp only [hp, and_self, decide_true, Bool.true_and, h, ne_eq, not_true, false_and, decide_false, Bool.false_and,
      Bool.or_false, decide_eq_true (show 7 - p % 8 < 8 by omega)]
    rw [show s.obo.toNat + 8 - 1 - p = 7 - p % 8 by omega]

/-- An in-bounds aligned read, in the terms of an unaligned one. -/
theorem alignedRead_bits (s : State) (h : s.ibo.toNat % 8 = 0) (hb : s.ibo.toNat / 8 < s.ibLen.toNat) :
    ∃ v, alignedRead s = .ok (v, s.setIbo (s.ibo + BitVec.ofNat 64 8)) ∧ v < 2 ^ 8 ∧
      ∀ j, j < 8 → v.testBit j = s.ib.bit (s.ibo.toNat + 8 - 1 - j) := by
  refine ⟨_, alignedRead_ok s h hb, (s.ib.read _).isLt, ?_⟩
  intro j hj
  rw [Memory.bit, show (s.ibo.toNat + 8 - 1 - j) / 8 = s.ibo.toNat / 8 by omega,
    show 7 - (s.ibo.toNat + 8 - 1 - j) % 8 = j by omega]
  rfl

end Sys2Proof.Machine
end

