-- ==== Sys2Proof/Laws/Packer.lean ====
section
/-! SUPPORT. What `Pack` and `Unpack` do to one sample: when they raise, and otherwise the bits they move
(42_pack_unpack.md rules R150 to R157). -/

namespace Sys2Proof.Machine

/-! ## Chunk lists -/

/-- How many bits a chunk list moves. -/
def totalLen : List Chunk → Nat
  | [] => 0
  | c :: rest => c.len + totalLen rest

/-- The wire offset at which a chunk list moves bit `k` of the container. -/
def chunkOffset : List Chunk → Nat → Option Nat
  | [], _ => none
  | c :: rest, k => if c.lo ≤ k ∧ k ≤ c.hi then some (c.hi - k) else (chunkOffset rest k).map (· + c.len)

/-- The bit of the container that a chunk list moves at wire offset `q`. -/
def chunkSource : List Chunk → Nat → Nat
  | [], _ => 0
  | c :: rest, q => if q < c.len then c.hi - q else chunkSource rest (q - c.len)

/-- Chunks of one to eight bits that do not overlap. -/
def chunksOk (cs : List Chunk) : Prop :=
  (∀ c ∈ cs, c.lo ≤ c.hi ∧ c.len ≤ 8) ∧ cs.Pairwise (fun c d => c.hi < d.lo ∨ d.hi < c.lo)

/-- The widths of 30_encoding.md rule R81. -/
def sampleWidths : List Nat := [8, 16, 18, 20, 24, 32, 64]

theorem widthOf_mem (e : Encoding) : widthOf e ∈ sampleWidths := by cases e <;> decide

theorem chunkList_ok (w : Nat) (hw : w ∈ sampleWidths) (o : ByteOrder) : chunksOk (chunkList w o) := by
  have h : ∀ w ∈ sampleWidths, ∀ o ∈ [ByteOrder.big, .little],
      (∀ c ∈ chunkList w o, c.lo ≤ c.hi ∧ c.len ≤ 8) ∧
        (chunkList w o).Pairwise (fun c d => c.hi < d.lo ∨ d.hi < c.lo) := by decide
  exact h w hw o (by cases o <;> simp)

theorem totalLen_chunkList (w : Nat) (hw : w ∈ sampleWidths) (o : ByteOrder) : totalLen (chunkList w o) = w := by
  have h : ∀ w ∈ sampleWidths, ∀ o ∈ [ByteOrder.big, .little], totalLen (chunkList w o) = w := by decide
  exact h w hw o (by cases o <;> simp)

theorem chunkOffset_chunkList (w : Nat) (hw : w ∈ sampleWidths) (o : ByteOrder) (k : Nat) (hk : k < w) :
    chunkOffset (chunkList w o) k = some (wireOffset w o k) := by
  have h : ∀ w ∈ sampleWidths, ∀ o ∈ [ByteOrder.big, .little],
      ∀ k ∈ List.range w, chunkOffset (chunkList w o) k = some (wireOffset w o k) := by decide +kernel
  exact h w hw o (by cases o <;> simp) k (List.mem_range.2 hk)

theorem chunkSource_chunkList (w : Nat) (hw : w ∈ sampleWidths) (o : ByteOrder) (q : Nat) (hq : q < w) :
    chunkSource (chunkList w o) q = wireOffset w o q := by
  have h : ∀ w ∈ sampleWidths, ∀ o ∈ [ByteOrder.big, .little],
      ∀ k ∈ List.range w, chunkSource (chunkList w o) k = wireOffset w o k := by decide +kernel
  exact h w hw o (by cases o <;> simp) q (List.mem_range.2 hq)

/-- A bit that lies in no chunk has no offset. -/
theorem chunkOffset_outside (cs : List Chunk) (k : Nat) (h : ∀ c ∈ cs, ¬ (c.lo ≤ k ∧ k ≤ c.hi)) :
    chunkOffset cs k = none := by
  induction cs with
  | nil => rfl
  | cons c rest ih =>
    simp only [chunkOffset, h c (by simp), if_false]
    rw [ih (fun d hd => h d (by simp [hd]))]
    rfl

theorem chunkOffset_none (w : Nat) (hw : w ∈ sampleWidths) (o : ByteOrder) (k : Nat) (hk : w ≤ k) :
    chunkOffset (chunkList w o) k = none := by
  have h : ∀ w ∈ sampleWidths, ∀ o ∈ [ByteOrder.big, .little], ∀ c ∈ chunkList w o, c.hi < w := by decide
  have hall := h w hw o (by cases o <;> simp)
  exact chunkOffset_outside _ k (fun c hc => by have := hall c hc; omega)

/-- A wire offset stays inside the sample. -/
theorem wireOffset_lt (w : Nat) (o : ByteOrder) (k : Nat) (hk : k < w) : wireOffset w o k < w := by
  cases o
  · simp only [wireOffset]
    omega
  · simp only [wireOffset]
    split <;> omega

/-- The wire order is its own inverse. -/
theorem wireOffset_wireOffset (w : Nat) (o : ByteOrder) (k : Nat) (hk : k < w) :
    wireOffset w o (wireOffset w o k) = k := by
  cases o
  · simp only [wireOffset]
    omega
  · by_cases h : k < 8 * (w / 8)
    · have e : wireOffset w .little k = 8 * (k / 8) + (7 - k % 8) := if_pos h
      rw [e, wireOffset, if_pos (by omega)]
      omega
    · have e : wireOffset w .little k = 8 * (w / 8) + (w - 1 - k) := if_neg h
      rw [e, wireOffset, if_neg (by omega)]
      omega

/-- The chunks of an aligned-class width are octets. -/
theorem chunkList_octets (w : Nat) (h8 : w % 8 = 0) (o : ByteOrder) : ∀ c ∈ chunkList w o, c.len = 8 := by
  intro c hc
  have hp : partialChunk w = [] := by simp [partialChunk, h8]
  have hc' : c ∈ octets w := by cases o <;> simpa [chunkList, hp] using hc
  simp only [octets, List.mem_map] at hc'
  obtain ⟨j, -, rfl⟩ := hc'
  simp only [Chunk.len]
  omega

/-! ## Unpack -/

/-- The cursor and the chunks suit the class: any for packed, octets at a byte boundary for aligned. -/
def classFits (cls : FormatClass) (cursor : Nat) (cs : List Chunk) : Prop :=
  cls = .aligned → cursor % 8 = 0 ∧ ∀ c ∈ cs, c.len = 8

theorem moveIn_ok (cls : FormatClass) (len : Nat) (s : State) (h0 : 0 < len) (h8 : len ≤ 8)
    (hc : cls = .aligned → s.ibo.toNat % 8 = 0 ∧ len = 8) (hb : (s.ibo.toNat + len - 1) / 8 < s.ibLen.toNat) :
    ∃ v, moveIn cls len s = .ok (v, s.setIbo (s.ibo + BitVec.ofNat 64 len)) ∧ v < 2 ^ len ∧
      ∀ j, j < len → v.testBit j = s.ib.bit (s.ibo.toNat + len - 1 - j) := by
  cases cls
  · obtain ⟨ha, rfl⟩ := hc rfl
    exact alignedRead_bits s ha (by omega)
  · exact unalignedRead_ok len s h0 h8 hb

/-- The loop of `Unpack`: every chunk is read and lands in its field. -/
theorem unpackChunks_ok (cls : FormatClass) (cs : List Chunk) (x : Nat) (s : State) (hcs : chunksOk cs)
    (hc : classFits cls s.ibo.toNat cs)
    (hb : totalLen cs = 0 ∨ (s.ibo.toNat + totalLen cs - 1) / 8 < s.ibLen.toNat) :
    ∃ y, unpackChunks cls cs x s = .ok (y, s.setIbo (s.ibo + BitVec.ofNat 64 (totalLen cs))) ∧
      ∀ k, y.testBit k = (x.testBit k ||
        match chunkOffset cs k with
        | some o => s.ib.bit (s.ibo.toNat + o)
        | none => false) := by
  induction cs generalizing x s with
  | nil =>
    refine ⟨x, ?_, by simp [chunkOffset]⟩
    simp only [unpackChunks, totalLen]
    congr 2
    simp [State.setIbo]
  | cons c rest ih =>
    obtain ⟨hsz, hdis⟩ := hcs
    rw [List.pairwise_cons] at hdis
    have hcl := hsz c (by simp)
    have hlen : c.len = c.hi - c.lo + 1 := rfl
    simp only [totalLen] at hb
    obtain ⟨v, hv, hvlt, hvb⟩ := moveIn_ok cls c.len s (by omega) hcl.2
      (fun h => ⟨(hc h).1, (hc h).2 c (by simp)⟩) (by omega)
    have hend := span_end_le s.ibo.toNat (c.len + totalLen rest) s.ibLen (by omega)
    have hadd : (s.ibo + BitVec.ofNat 64 c.len).toNat = s.ibo.toNat + c.len := cursor_add _ _ (by omega)
    obtain ⟨y, hy, hyb⟩ := ih (x ||| v * 2 ^ c.lo) (s.setIbo (s.ibo + BitVec.ofNat 64 c.len))
      ⟨fun d hd => hsz d (by simp [hd]), hdis.2⟩
      (fun h => ⟨by
          have h1 := (hc h).1
          have h2 := (hc h).2 c (by simp)
          simp only [State.setIbo_ibo, hadd]
          omega, fun d hd => (hc h).2 d (by simp [hd])⟩)
      (by simp only [State.setIbo_ibo, State.setIbo_ibLen, hadd]; omega)
    refine ⟨y, ?_, fun k => ?_⟩
    · simp only [unpackChunks, hv, hy, totalLen]
      congr 2
      simp only [State.setIbo, BitVec.ofNat_add, BitVec.add_assoc]
    · rw [hyb k, Nat.testBit_or, Nat.testBit_mul_two_pow, Bool.or_assoc]
      congr 1
      simp only [chunkOffset, State.setIbo_ib, State.setIbo_ibo, hadd]
      by_cases hin : c.lo ≤ k ∧ k ≤ c.hi
      · have hnone : chunkOffset rest k = none := by
          refine chunkOffset_outside rest k (fun d hd => ?_)
          have := hdis.1 d hd
          omega
        rw [hnone, hvb (k - c.lo) (by omega)]
        simp only [hin.1, decide_true, hin, and_self, if_true, Bool.true_and, Bool.or_false]
        congr 1
        omega
      · simp only [hin, if_false]
        have hz : (decide (k ≥ c.lo) && v.testBit (k - c.lo)) = false := by
          by_cases h1 : c.lo ≤ k
          · have : v.testBit (k - c.lo) = false :=
              Nat.testBit_lt_two_pow (lt_of_lt_of_le hvlt (Nat.pow_le_pow_right (by omega) (by omega)))
            simp [this]
          · simp [h1]
        rw [hz, Bool.false_or]
        cases chunkOffset rest k with
        | none => rfl
        | some o => simp [Nat.add_assoc, Nat.add_comm c.len o]

theorem misaligned_false {e : Encoding} {cursor : Word} :
    misaligned e cursor = false ↔ (classOf e = .aligned → cursor.toNat % 8 = 0) := by
  simp [misaligned]

theorem misaligned_true {e : Encoding} {cursor : Word} :
    misaligned e cursor = true ↔ classOf e = .aligned ∧ cursor.toNat % 8 ≠ 0 := by
  simp [misaligned]

/-- `Unpack` of a sample whose span is inside IB: the extension of a container each of whose bits is the one of IB at its
wire offset (rules R150, R155 and R156). -/
theorem unpackSample_ok (f : WireFormat) (s : State) (ha : misaligned f.enc s.ibo = false)
    (hb : spanLeaves s.ibo.toNat (widthOf f.enc) s.ibLen.toNat = false) :
    ∃ x, unpackSample f s = .ok (extend f.enc x, s.setIbo (s.ibo + BitVec.ofNat 64 (widthOf f.enc))) ∧
      ∀ k, x.testBit k = (decide (k < widthOf f.enc) &&
        s.ib.bit (s.ibo.toNat + wireOffset (widthOf f.enc) (resolveEndian f.endian) k)) := by
  have hw := widthOf_mem f.enc
  have hpos := widthOf_pos f.enc
  obtain ⟨y, hy, hyb⟩ := unpackChunks_ok (classOf f.enc) (chunkList (widthOf f.enc) (resolveEndian f.endian)) 0 s
    (chunkList_ok _ hw _)
    (fun h => ⟨misaligned_false.1 ha h, chunkList_octets _ (widthOf_aligned f.enc h) _⟩)
    (by rw [totalLen_chunkList _ hw]; exact Or.inr (spanLeaves_false.1 hb))
  rw [totalLen_chunkList _ hw] at hy
  refine ⟨y, by simp only [unpackSample, ha, hb, hy, Bool.false_eq_true, if_false], fun k => ?_⟩
  rw [hyb k]
  by_cases hk : k < widthOf f.enc
  · simp [chunkOffset_chunkList _ hw _ k hk, hk]
  · simp [chunkOffset_none _ hw _ k (by omega), hk]

theorem unpackSample_misaligned (f : WireFormat) (s : State) (h : misaligned f.enc s.ibo = true) :
    unpackSample f s = .error (.alignFault s.ibo) := by
  simp [unpackSample, h]

theorem unpackSample_outside (f : WireFormat) (s : State) (ha : misaligned f.enc s.ibo = false)
    (hb : spanLeaves s.ibo.toNat (widthOf f.enc) s.ibLen.toNat = true) :
    unpackSample f s = .error (.boundsFaultIB s.ibo) := by
  simp [unpackSample, ha, hb]

/-! ## Pack -/

/-- The bits a sample leaves in the bytes it touches: those of the container in wire order; around them zeros, but for what a
byte entered inside already held. -/
def packedBit (m : Memory) (b : Nat) (cs : List Chunk) (x p : Nat) : Bool :=
  (decide (b ≤ p ∧ p < b + totalLen cs) && x.testBit (chunkSource cs (p - b))) ||
    (decide (b % 8 ≠ 0 ∧ p / 8 = b / 8) && m.bit p)

theorem moveOut_ok (cls : FormatClass) (len v : Nat) (s : State) (h0 : 0 < len) (h8 : len ≤ 8)
    (hc : cls = .aligned → s.obo.toNat % 8 = 0 ∧ len = 8) (hb : (s.obo.toNat + len - 1) / 8 < s.obLen.toNat) :
    ∃ m, moveOut cls len v s = .ok ((s.setOb m).setObo (s.obo + BitVec.ofNat 64 len)) ∧
      (s.ob.wf = true → m.wf = true) ∧
      (∀ a, a < s.obo.toNat / 8 ∨ (s.obo.toNat + len - 1) / 8 < a → m.read a = s.ob.read a) ∧
      ∀ p, s.obo.toNat / 8 ≤ p / 8 → p / 8 ≤ (s.obo.toNat + len - 1) / 8 →
        m.bit p = writtenBit s.ob s.obo.toNat len v p := by
  cases cls
  · obtain ⟨ha, rfl⟩ := hc rfl
    exact alignedWrite_bits v s ha (by omega)
  · exact unalignedWrite_ok len v s h0 h8 hb

/-- The loop of `Pack`: every chunk is written in turn. -/
theorem packChunks_ok (cls : FormatClass) (x : Nat) (cs : List Chunk) (s : State)
    (hcs : ∀ c ∈ cs, c.lo ≤ c.hi ∧ c.len ≤ 8) (hc : classFits cls s.obo.toNat cs)
    (hb : totalLen cs = 0 ∨ (s.obo.toNat + totalLen cs - 1) / 8 < s.obLen.toNat) :
    ∃ m, packChunks cls x cs s = .ok ((s.setOb m).setObo (s.obo + BitVec.ofNat 64 (totalLen cs))) ∧
      (s.ob.wf = true → m.wf = true) ∧
      (∀ a, totalLen cs = 0 ∨ a < s.obo.toNat / 8 ∨ (s.obo.toNat + totalLen cs - 1) / 8 < a → m.read a = s.ob.read a) ∧
      (0 < totalLen cs → ∀ p, s.obo.toNat / 8 ≤ p / 8 → p / 8 ≤ (s.obo.toNat + totalLen cs - 1) / 8 →
        m.bit p = packedBit s.ob s.obo.toNat cs x p) := by
  induction cs generalizing s with
  | nil =>
    refine ⟨s.ob, ?_, id, fun _ _ => rfl, fun h => absurd h (by simp [totalLen])⟩
    simp only [packChunks, totalLen]
    congr 1
    simp [State.setObo, State.setOb]
  | cons c rest ih =>
    have hcl := hcs c (by simp)
    have hlen : c.len = c.hi - c.lo + 1 := rfl
    simp only [totalLen] at hb
    obtain ⟨m1, hm1, hw1, ho1, hi1⟩ := moveOut_ok cls c.len (bitField x c.hi c.lo) s (by omega) hcl.2
      (fun h => ⟨(hc h).1, (hc h).2 c (by simp)⟩) (by omega)
    have hend := span_end_le s.obo.toNat (c.len + totalLen rest) s.obLen (by omega)
    have hadd : (s.obo + BitVec.ofNat 64 c.len).toNat = s.obo.toNat + c.len := cursor_add _ _ (by omega)
    obtain ⟨m, hm, hw, ho, hi⟩ := ih ((s.setOb m1).setObo (s.obo + BitVec.ofNat 64 c.len))
      (fun d hd => hcs d (by simp [hd]))
      (fun h => ⟨by
          have h1 := (hc h).1
          have h2 := (hc h).2 c (by simp)
          simp only [State.setObo_obo, hadd]
          omega, fun d hd => (hc h).2 d (by simp [hd])⟩)
      (by simp only [State.setObo_obo, State.setObo_obLen, State.setOb_obLen, hadd]; omega)
    simp only [State.setObo_obo, State.setObo_ob, State.setOb_ob, hadd] at hw ho hi
    refine ⟨m, ?_, fun h => hw (hw1 h), fun a ha => ?_, fun _ p hp1 hp2 => ?_⟩
    · simp only [packChunks, hm1, hm, totalLen]
      congr 1
      simp only [State.setObo, State.setOb, BitVec.ofNat_add, BitVec.add_assoc]
    · simp only [totalLen] at ha
      rw [ho a (by omega), ho1 a (by omega)]
    · simp only [totalLen] at hp2
      have hv : ∀ q, q < c.len → (bitField x c.hi c.lo).testBit (c.len - 1 - q) = x.testBit (c.hi - q) := by
        intro q hq
        rw [testBit_bitField, decide_eq_true (by omega), Bool.true_and]
        congr 1
        omega
      have hsrc : ∀ q, x.testBit (chunkSource (c :: rest) q) =
          if q < c.len then x.testBit (c.hi - q) else x.testBit (chunkSource rest (q - c.len)) := by
        intro q
        simp only [chunkSource]
        split <;> rfl
      have hbit1 : p / 8 ≤ (s.obo.toNat + c.len - 1) / 8 → m1.bit p = writtenBit s.ob s.obo.toNat c.len
          (bitField x c.hi c.lo) p := fun h => hi1 p hp1 h
      rw [packedBit, show totalLen (c :: rest) = c.len + totalLen rest from rfl, hsrc]
      by_cases hrest : totalLen rest = 0 ∨ p / 8 < (s.obo.toNat + c.len) / 8
      · have hp3 : p / 8 ≤ (s.obo.toNat + c.len - 1) / 8 := by omega
        have hm' : m.bit p = m1.bit p := Memory.bit_congr _ _ _ (ho _ (by omega))
        rw [hm', hbit1 hp3, writtenBit]
        congr 1
        by_cases hin : s.obo.toNat ≤ p ∧ p < s.obo.toNat + c.len
        · rw [decide_eq_true hin, decide_eq_true (by omega : s.obo.toNat ≤ p ∧ p < s.obo.toNat + (c.len + totalLen rest)),
            if_pos (by omega), ← hv (p - s.obo.toNat) (by omega)]
          simp only [Bool.true_and]
          congr 1
          omega
        · rw [decide_eq_false hin, decide_eq_false (by omega : ¬ (s.obo.toNat ≤ p ∧ p < s.obo.toNat +
            (c.len + totalLen rest)))]
          rfl
      · rw [hi (by omega) p (by omega) (by omega), packedBit]
        by_cases hsame : (s.obo.toNat + c.len) % 8 ≠ 0 ∧ p / 8 = (s.obo.toNat + c.len) / 8
        · rw [decide_eq_true hsame, Bool.true_and, hbit1 (by omega), writtenBit]
          by_cases hin : s.obo.toNat ≤ p ∧ p < s.obo.toNat + c.len
          · rw [decide_eq_true hin, decide_eq_true (by omega : s.obo.toNat ≤ p ∧ p < s.obo.toNat + (c.len + totalLen rest)),
              decide_eq_false (by omega : ¬ (s.obo.toNat + c.len ≤ p ∧ p < s.obo.toNat + c.len + totalLen rest)),
              if_pos (by omega), ← hv (p - s.obo.toNat) (by omega)]
            simp only [Bool.true_and, Bool.false_and, Bool.false_or]
            congr 2
            omega
          · rw [decide_eq_false hin]
            simp only [Bool.false_and, Bool.false_or]
            congr 1
            by_cases hin2 : s.obo.toNat + c.len ≤ p ∧ p < s.obo.toNat + c.len + totalLen rest
            · rw [decide_eq_true hin2, decide_eq_true (by omega : s.obo.toNat ≤ p ∧
                p < s.obo.toNat + (c.len + totalLen rest)), if_neg (by omega)]
              simp only [Bool.true_and]
              congr 2
              omega
            · rw [decide_eq_false hin2, decide_eq_false (by omega : ¬ (s.obo.toNat ≤ p ∧
                p < s.obo.toNat + (c.len + totalLen rest)))]
              rfl
        · rw [decide_eq_false hsame, decide_eq_false (by omega : ¬ (s.obo.toNat % 8 ≠ 0 ∧ p / 8 = s.obo.toNat / 8))]
          simp only [Bool.false_and, Bool.or_false]
          by_cases hin2 : s.obo.toNat + c.len ≤ p ∧ p < s.obo.toNat + c.len + totalLen rest
          · rw [decide_eq_true hin2, decide_eq_true (by omega : s.obo.toNat ≤ p ∧
                p < s.obo.toNat + (c.len + totalLen rest)), if_neg (by omega)]
            simp only [Bool.true_and]
            congr 2
            omega
          · rw [decide_eq_false hin2, decide_eq_false (by omega : ¬ (s.obo.toNat ≤ p ∧
                p < s.obo.toNat + (c.len + totalLen rest)))]
            rfl

/-- The bits that packing value `v` in format `f` at offset `b` leaves in the bytes it touches: bit `k < D` of `v` at its wire
offset and zero padding (rules R152 and R153); what the first byte held stays ORed in if it is entered inside
(40_bit_cursor.md rule R123). -/
def sampleBit (m : Memory) (b : Nat) (f : WireFormat) (v : Word) (p : Nat) : Bool :=
  (decide (b ≤ p ∧ p < b + widthOf f.enc) &&
    (uval (depthOf f.enc) v).testBit (wireOffset (widthOf f.enc) (resolveEndian f.endian) (p - b))) ||
    (decide (b % 8 ≠ 0 ∧ p / 8 = b / 8) && m.bit p)

/-- `Pack` of a sample whose span is inside OB (rules R152 and R153). -/
theorem packSample_ok (f : WireFormat) (v : Word) (s : State) (ha : misaligned f.enc s.obo = false)
    (hb : spanLeaves s.obo.toNat (widthOf f.enc) s.obLen.toNat = false) :
    ∃ m, packSample f v s = .ok ((s.setOb m).setObo (s.obo + BitVec.ofNat 64 (widthOf f.enc))) ∧
      (s.ob.wf = true → m.wf = true) ∧
      (∀ a, a < s.obo.toNat / 8 ∨ (s.obo.toNat + widthOf f.enc - 1) / 8 < a → m.read a = s.ob.read a) ∧
      ∀ p, s.obo.toNat / 8 ≤ p / 8 → p / 8 ≤ (s.obo.toNat + widthOf f.enc - 1) / 8 →
        m.bit p = sampleBit s.ob s.obo.toNat f v p := by
  have hw := widthOf_mem f.enc
  have hpos := widthOf_pos f.enc
  obtain ⟨m, hm, hwf, ho, hi⟩ := packChunks_ok (classOf f.enc) (uval (depthOf f.enc) v)
    (chunkList (widthOf f.enc) (resolveEndian f.endian)) s (chunkList_ok _ hw _).1
    (fun h => ⟨misaligned_false.1 ha h, chunkList_octets _ (widthOf_aligned f.enc h) _⟩)
    (by rw [totalLen_chunkList _ hw]; exact Or.inr (spanLeaves_false.1 hb))
  rw [totalLen_chunkList _ hw] at hm ho hi
  refine ⟨m, by simp only [packSample, ha, hb, hm, Bool.false_eq_true, if_false], hwf, fun a h => ho a (Or.inr h),
    fun p h1 h2 => ?_⟩
  rw [hi (by omega) p h1 h2, packedBit, sampleBit, totalLen_chunkList _ hw]
  congr 1
  by_cases hin : s.obo.toNat ≤ p ∧ p < s.obo.toNat + widthOf f.enc
  · rw [chunkSource_chunkList _ hw _ _ (by omega)]
  · simp [hin]

theorem packSample_misaligned (f : WireFormat) (v : Word) (s : State) (h : misaligned f.enc s.obo = true) :
    packSample f v s = .error (.alignFault s.obo) := by
  simp [packSample, h]

theorem packSample_outside (f : WireFormat) (v : Word) (s : State) (ha : misaligned f.enc s.obo = false)
    (hb : spanLeaves s.obo.toNat (widthOf f.enc) s.obLen.toNat = true) :
    packSample f v s = .error (.boundsFaultOB s.obo) := by
  simp [packSample, ha, hb]

end Sys2Proof.Machine
end

