-- ==== Sys2Proof/Laws/Step.lean ====
section
/-! SUPPORT. What a command and a step can do, said once (60_exceptions.md rules R252 to R255): every command ends in a recorded
fault that changes nothing else, or in the state its data path gives; BATCH ends after some of its samples, with or without a
fault. -/

namespace Sys2Proof.Machine

/-! ## Spans -/

theorem spanOutside_iff (b len bytes : Nat) (h : 1 ≤ len) : spanOutside b len bytes ↔ bytes ≤ (b + len - 1) / 8 :=
  ⟨fun ⟨a, _, h2, h3⟩ => le_trans h3 h2, fun hb => ⟨(b + len - 1) / 8, Nat.div_le_div_right (by omega), le_refl _, hb⟩⟩

theorem spanLeaves_iff_outside (b len bytes : Nat) (h : 1 ≤ len) : spanLeaves b len bytes = true ↔ spanOutside b len bytes := by
  rw [spanLeaves_true, spanOutside_iff b len bytes h]

theorem spanLeaves_false_iff (b len bytes : Nat) (h : 1 ≤ len) :
    spanLeaves b len bytes = false ↔ ¬ spanOutside b len bytes := by
  rw [spanLeaves_false, spanOutside_iff b len bytes h]
  omega

/-! ## Shared operations -/

@[simp] theorem finish_ok (s t : State) : finish s (.ok t) = .next t := rfl

@[simp] theorem finish_error (s : State) (f : BlockFault) : finish s (.error f) = .next (s.raise f) := rfl

theorem readSource_ok (s : State) (r : VReg) (h : s.vw r = true) : readSource s r = .ok (s.v r) := by
  simp [readSource, h]

theorem readSource_error (s : State) (r : VReg) (h : s.vw r = false) :
    readSource s r = .error (.unwrittenRegister r) := by
  simp [readSource, h]

/-- The faults that a command raises once its word is decoded: all but IllegalCommand. -/
def BlockFault.ofCommand (f : BlockFault) : Prop := f.code ∈ [2, 3, 4, 5]

/-- What a command's data path may change: the sample registers, the cursors and OB, written flags never being cleared and OB
staying canonical. -/
structure DataEffect (s t : State) : Prop where
  eq : t = { s with regs := t.regs, ibo := t.ibo, obo := t.obo, ob := t.ob }
  written : ∀ r, s.vw r = true → t.vw r = true
  wf : s.ob.wf = true → t.ob.wf = true

theorem DataEffect.refl (s : State) : DataEffect s s := ⟨rfl, fun _ h => h, fun h => h⟩

theorem DataEffect.trans {s t u : State} (h1 : DataEffect s t) (h2 : DataEffect t u) : DataEffect s u := by
  refine ⟨?_, fun r h => h2.written r (h1.written r h), fun h => h2.wf (h1.wf h)⟩
  conv => lhs; rw [h2.eq, h1.eq]

theorem dataEffect_setIbo (s : State) (x : Word) : DataEffect s (s.setIbo x) := ⟨rfl, fun _ h => h, fun h => h⟩

theorem dataEffect_writeV (s : State) (r : VReg) (x : Word) : DataEffect s (s.writeV r x) :=
  ⟨rfl, fun q h => State.writeV_vw_mono s r q x h, fun h => h⟩

theorem dataEffect_setOb (s : State) (m : Memory) (x : Word) (h : s.ob.wf = true → m.wf = true) :
    DataEffect s ((s.setOb m).setObo x) := ⟨rfl, fun _ h => h, h⟩

/-! ## Inversions of the data path -/

theorem alignedRead_cases (s : State) :
    (∃ v x, alignedRead s = .ok (v, s.setIbo x)) ∨ ∃ f, alignedRead s = .error f ∧ f.ofCommand := by
  unfold alignedRead
  simp only
  split
  · exact .inr ⟨_, rfl, by simp [BlockFault.ofCommand, BlockFault.code]⟩
  · split
    · exact .inr ⟨_, rfl, by simp [BlockFault.ofCommand, BlockFault.code]⟩
    · exact .inl ⟨_, _, rfl⟩

theorem unalignedRead_cases (len : Nat) (s : State) :
    (∃ v x, unalignedRead len s = .ok (v, s.setIbo x)) ∨ ∃ f, unalignedRead len s = .error f ∧ f.ofCommand := by
  unfold unalignedRead
  simp only
  split
  · exact .inl ⟨_, s.ibo, rfl⟩
  · split
    · exact .inr ⟨_, rfl, by simp [BlockFault.ofCommand, BlockFault.code]⟩
    · exact .inl ⟨_, _, rfl⟩

theorem alignedWrite_cases (v : Nat) (s : State) :
    (∃ m x, alignedWrite v s = .ok ((s.setOb m).setObo x) ∧ (s.ob.wf = true → m.wf = true)) ∨
      ∃ f, alignedWrite v s = .error f ∧ f.ofCommand := by
  unfold alignedWrite
  simp only
  split
  · exact .inr ⟨_, rfl, by simp [BlockFault.ofCommand, BlockFault.code]⟩
  · split
    · exact .inr ⟨_, rfl, by simp [BlockFault.ofCommand, BlockFault.code]⟩
    · exact .inl ⟨_, _, rfl, fun h => Memory.wf_write _ _ _ h⟩

theorem unalignedWrite_cases (len v : Nat) (s : State) :
    (∃ m x, unalignedWrite len v s = .ok ((s.setOb m).setObo x) ∧ (s.ob.wf = true → m.wf = true)) ∨
      ∃ f, unalignedWrite len v s = .error f ∧ f.ofCommand := by
  unfold unalignedWrite
  simp only
  split
  · exact .inl ⟨s.ob, s.obo, rfl, fun h => h⟩
  · split
    · exact .inr ⟨_, rfl, by simp [BlockFault.ofCommand, BlockFault.code]⟩
    · refine .inl ⟨_, _, rfl, fun h => ?_⟩
      split
      · exact Memory.wf_write _ _ _ (Memory.wf_write _ _ _ h)
      · exact Memory.wf_write _ _ _ h

theorem unpackSample_cases (f : WireFormat) (s : State) :
    (∃ v x, unpackSample f s = .ok (v, s.setIbo x)) ∨ ∃ g, unpackSample f s = .error g ∧ g.ofCommand := by
  cases ha : misaligned f.enc s.ibo
  · cases hb : spanLeaves s.ibo.toNat (widthOf f.enc) s.ibLen.toNat
    · obtain ⟨x, hx, -⟩ := unpackSample_ok f s ha hb
      exact .inl ⟨_, _, hx⟩
    · exact .inr ⟨_, unpackSample_outside f s ha hb, by simp [BlockFault.ofCommand, BlockFault.code]⟩
  · exact .inr ⟨_, unpackSample_misaligned f s ha, by simp [BlockFault.ofCommand, BlockFault.code]⟩

theorem packSample_cases (f : WireFormat) (v : Word) (s : State) :
    (∃ m x, packSample f v s = .ok ((s.setOb m).setObo x) ∧ (s.ob.wf = true → m.wf = true)) ∨
      ∃ g, packSample f v s = .error g ∧ g.ofCommand := by
  cases ha : misaligned f.enc s.obo
  · cases hb : spanLeaves s.obo.toNat (widthOf f.enc) s.obLen.toNat
    · obtain ⟨m, hm, hw, -⟩ := packSample_ok f v s ha hb
      exact .inl ⟨_, _, hm, hw⟩
    · exact .inr ⟨_, packSample_outside f v s ha hb, by simp [BlockFault.ofCommand, BlockFault.code]⟩
  · exact .inr ⟨_, packSample_misaligned f v s ha, by simp [BlockFault.ofCommand, BlockFault.code]⟩

theorem readSource_cases (s : State) (r : VReg) :
    (∃ v, readSource s r = .ok v) ∨ ∃ f, readSource s r = .error f ∧ f.ofCommand := by
  cases h : s.vw r
  · exact .inr ⟨_, readSource_error s r h, by simp [BlockFault.ofCommand, BlockFault.code]⟩
  · exact .inl ⟨_, readSource_ok s r h⟩

/-! ## Inversion of a command -/

/-- A command of the data path: a recorded fault and nothing else, or its data effect. -/
theorem data_command_cases (i : Instr) (s : State) (h1 : i ≠ .rslv) (h2 : i ≠ .batch) :
    (∃ f, exec i s = .next (s.raise f) ∧ f.ofCommand) ∨ ∃ t, exec i s = .next t ∧ DataEffect s t := by
  cases i with
  | ard rd =>
    simp only [exec, execArd]
    obtain ⟨v, x, h⟩ | ⟨f, h, hf⟩ := alignedRead_cases s
    · rw [h]
      exact .inr ⟨_, rfl, (dataEffect_setIbo s x).trans (dataEffect_writeV _ _ _)⟩
    · rw [h]
      exact .inl ⟨f, rfl, hf⟩
  | urd len rd =>
    simp only [exec, execUrd]
    obtain ⟨v, x, h⟩ | ⟨f, h, hf⟩ := unalignedRead_cases len s
    · rw [h]
      exact .inr ⟨_, rfl, (dataEffect_setIbo s x).trans (dataEffect_writeV _ _ _)⟩
    · rw [h]
      exact .inl ⟨f, rfl, hf⟩
  | unpk fmt rd =>
    simp only [exec, execUnpk]
    obtain ⟨v, x, h⟩ | ⟨f, h, hf⟩ := unpackSample_cases fmt s
    · rw [h]
      exact .inr ⟨_, rfl, (dataEffect_setIbo s x).trans (dataEffect_writeV _ _ _)⟩
    · rw [h]
      exact .inl ⟨f, rfl, hf⟩
  | awr rs =>
    simp only [exec, execAwr]
    obtain ⟨v, hv⟩ | ⟨f, hv, hf⟩ := readSource_cases s rs
    · rw [hv]
      obtain ⟨m, x, h, hw⟩ | ⟨f, h, hf⟩ := alignedWrite_cases v.toNat s
      · simp only [h]
        exact .inr ⟨_, rfl, dataEffect_setOb s m x hw⟩
      · simp only [h]
        exact .inl ⟨f, rfl, hf⟩
    · rw [hv]
      exact .inl ⟨f, rfl, hf⟩
  | uwr len rs =>
    simp only [exec, execUwr]
    obtain ⟨v, hv⟩ | ⟨f, hv, hf⟩ := readSource_cases s rs
    · rw [hv]
      obtain ⟨m, x, h, hw⟩ | ⟨f, h, hf⟩ := unalignedWrite_cases len v.toNat s
      · simp only [h]
        exact .inr ⟨_, rfl, dataEffect_setOb s m x hw⟩
      · simp only [h]
        exact .inl ⟨f, rfl, hf⟩
    · rw [hv]
      exact .inl ⟨f, rfl, hf⟩
  | pack fmt rs =>
    simp only [exec, execPack]
    obtain ⟨v, hv⟩ | ⟨f, hv, hf⟩ := readSource_cases s rs
    · rw [hv]
      obtain ⟨m, x, h, hw⟩ | ⟨f, h, hf⟩ := packSample_cases fmt v s
      · simp only [h]
        exact .inr ⟨_, rfl, dataEffect_setOb s m x hw⟩
      · simp only [h]
        exact .inl ⟨f, rfl, hf⟩
    · rw [hv]
      exact .inl ⟨f, rfl, hf⟩
  | s2u depth rd rs =>
    simp only [exec, execS2u]
    obtain ⟨v, hv⟩ | ⟨f, hv, hf⟩ := readSource_cases s rs
    · rw [hv]
      exact .inr ⟨_, rfl, dataEffect_writeV _ _ _⟩
    · rw [hv]
      exact .inl ⟨f, rfl, hf⟩
  | u2s depth rd rs =>
    simp only [exec, execU2s]
    obtain ⟨v, hv⟩ | ⟨f, hv, hf⟩ := readSource_cases s rs
    · rw [hv]
      exact .inr ⟨_, rfl, dataEffect_writeV _ _ _⟩
    · rw [hv]
      exact .inl ⟨f, rfl, hf⟩
  | cvt src dst rd rs =>
    simp only [exec, execCvt]
    obtain ⟨v, hv⟩ | ⟨f, hv, hf⟩ := readSource_cases s rs
    · rw [hv]
      exact .inr ⟨_, rfl, dataEffect_writeV _ _ _⟩
    · rw [hv]
      exact .inl ⟨f, rfl, hf⟩
  | rslv => exact absurd rfl h1
  | batch => exact absurd rfl h2

/-! ## Inversion of BATCH -/

/-- What the samples of a BATCH may change: the cursors, CNT and OB. -/
structure BatchEffect (s t : State) : Prop where
  eq : t = { s with ibo := t.ibo, obo := t.obo, cnt := t.cnt, ob := t.ob }
  wf : s.ob.wf = true → t.ob.wf = true

theorem BatchEffect.refl (s : State) : BatchEffect s s := ⟨rfl, fun h => h⟩

theorem BatchEffect.trans {s t u : State} (h1 : BatchEffect s t) (h2 : BatchEffect t u) : BatchEffect s u := by
  refine ⟨?_, fun h => h2.wf (h1.wf h)⟩
  conv => lhs; rw [h2.eq, h1.eq]

theorem batchStep_cases (fi fo : WireFormat) (s : State) :
    (∃ t, batchStep fi fo s = .ok t ∧ BatchEffect s t) ∨ ∃ f, batchStep fi fo s = .error f ∧ f.ofCommand := by
  unfold batchStep
  split
  · exact .inr ⟨_, rfl, by simp [BlockFault.ofCommand, BlockFault.code]⟩
  · split
    · exact .inr ⟨_, rfl, by simp [BlockFault.ofCommand, BlockFault.code]⟩
    · obtain ⟨v, x, h⟩ | ⟨f, h, hf⟩ := unpackSample_cases fi s
      · rw [h]
        simp only
        obtain ⟨m, y, h2, hw⟩ | ⟨f, h2, hf⟩ := packSample_cases fo (convert fi.enc fo.enc v) (s.setIbo x)
        · exact .inl ⟨_, h2, ⟨rfl, hw⟩⟩
        · exact .inr ⟨f, h2, hf⟩
      · rw [h]
        exact .inr ⟨f, rfl, hf⟩

theorem batchLoop_cases (fi fo : WireFormat) (k : Nat) (s : State) :
    ∃ t, BatchEffect s t ∧ (batchLoop fi fo k s = t ∨ ∃ f : BlockFault, batchLoop fi fo k s = t.raise f ∧ f.ofCommand) := by
  induction k generalizing s with
  | zero => exact ⟨s, BatchEffect.refl s, .inl rfl⟩
  | succ k ih =>
    obtain ⟨u, hu, he⟩ | ⟨f, hf, hc⟩ := batchStep_cases fi fo s
    · obtain ⟨t, ht, h⟩ := ih (u.setCnt (u.cnt + 1#32))
      have hc : BatchEffect u (u.setCnt (u.cnt + 1#32)) := ⟨rfl, fun h => h⟩
      refine ⟨t, he.trans (hc.trans ht), ?_⟩
      rw [batchLoop, hu]
      exact h
    · exact ⟨s, BatchEffect.refl s, .inr ⟨f, by rw [batchLoop, hf], hc⟩⟩

/-- BATCH: the resolve alone, or the resolve of two valid formats and then samples, with or without a fault at the end. -/
theorem batch_cases (s : State) :
    exec .batch s = .next (resolve s) ∧ resolveOk s = false ∨
      ∃ t, BatchEffect (resolve s) t ∧ resolveOk s = true ∧
        (exec .batch s = .next t ∨ ∃ f : BlockFault, exec .batch s = .next (t.raise f) ∧ f.ofCommand) := by
  simp only [exec, execBatch, resolveOk]
  cases hi : WireFormat.ofCode? s.inFmt with
  | none => exact .inl ⟨rfl, rfl⟩
  | some fi =>
    cases ho : WireFormat.ofCode? s.outFmt with
    | none => exact .inl ⟨rfl, rfl⟩
    | some fo =>
      obtain ⟨t, ht, h⟩ := batchLoop_cases fi fo s.n.toNat (batchStart (resolve s))
      have hs : BatchEffect (resolve s) (batchStart (resolve s)) := ⟨rfl, fun h => h⟩
      refine .inr ⟨t, hs.trans ht, rfl, ?_⟩
      obtain h | ⟨f, h, hf⟩ := h
      · exact .inl (congrArg Host.Outcome.next h)
      · exact .inr ⟨f, congrArg Host.Outcome.next h, hf⟩

/-- Every command answers a next state. -/
theorem exec_next (i : Instr) (s : State) : ∃ t, exec i s = .next t := by
  by_cases h1 : i = .rslv
  · exact ⟨_, by rw [h1]; rfl⟩
  · by_cases h2 : i = .batch
    · rw [h2]
      obtain ⟨h, -⟩ | ⟨t, -, -, h | ⟨f, h, -⟩⟩ := batch_cases s
      all_goals exact ⟨_, h⟩
    · obtain ⟨f, h, -⟩ | ⟨t, h, -⟩ := data_command_cases i s h1 h2
      all_goals exact ⟨_, h⟩

end Sys2Proof.Machine
end

