-- ==== Sys2Proof/Laws/Batch.lean ====
section
/-! SUPPORT. BATCH sample by sample: what one step does, what k steps have done, and how the loop ends (44_dispatch.md rules R224
to R234). -/

namespace Sys2Proof.Machine

/-! ## Samples on the wire -/

theorem numberOfBits_lt (bit : Nat → Bool) (w : Nat) : numberOfBits bit w < 2 ^ w := by
  induction w with
  | zero => simp [numberOfBits]
  | succ w ih =>
    simp only [numberOfBits, pow_succ]
    split <;> omega

theorem testBit_numberOfBits (bit : Nat → Bool) (w k : Nat) :
    (numberOfBits bit w).testBit k = (decide (k < w) && bit k) := by
  induction w with
  | zero => simp [numberOfBits]
  | succ w ih =>
    have hlt := numberOfBits_lt bit w
    simp only [numberOfBits]
    cases hb : bit w
    · simp only [Bool.false_eq_true, if_false, Nat.add_zero, ih]
      by_cases hk : k = w
      · subst hk
        simp [hb]
      · have : k < w + 1 ↔ k < w := by omega
        simp [this]
    · simp only [if_true]
      rw [Nat.add_comm]
      by_cases hk : k = w
      · subst hk
        rw [Nat.testBit_two_pow_add_eq, ih]
        simp [hb]
      · by_cases hk2 : k < w
        · rw [Nat.testBit_two_pow_add_gt hk2, ih]
          simp [hk2, show k < w + 1 by omega]
        · have h2 : 2 ^ w + numberOfBits bit w < 2 ^ k := by
            have : 2 ^ (w + 1) ≤ 2 ^ k := Nat.pow_le_pow_right (by omega) (by omega)
            rw [pow_succ] at this
            omega
          rw [Nat.testBit_lt_two_pow h2]
          simp [show ¬ k < w + 1 by omega]

theorem numberOfBits_congr (f g : Nat → Bool) (w : Nat) (h : ∀ k, k < w → f k = g k) : numberOfBits f w = numberOfBits g w := by
  apply Nat.eq_of_testBit_eq
  intro k
  rw [testBit_numberOfBits, testBit_numberOfBits]
  by_cases hk : k < w
  · rw [h k hk]
  · simp [hk]

/-- A number below `2^w` is the number of its own bits. -/
theorem numberOfBits_testBit (x w : Nat) (h : x < 2 ^ w) : numberOfBits (fun k => x.testBit k) w = x := by
  apply Nat.eq_of_testBit_eq
  intro k
  rw [testBit_numberOfBits]
  by_cases hk : k < w
  · simp [hk]
  · rw [Nat.testBit_lt_two_pow (lt_of_lt_of_le h (Nat.pow_le_pow_right (by omega) (by omega)))]
    simp

/-- A sample depends on the bits of its own span only. -/
theorem sampleIn_congr (f : WireFormat) (m n : Memory) (b c : Nat)
    (h : ∀ q, q < widthOf f.enc → m.bit (b + q) = n.bit (c + q)) : sampleIn f m b = sampleIn f n c := by
  unfold sampleIn
  congr 1
  exact numberOfBits_congr _ _ _ (fun k hk => h _ (wireOffset_lt _ _ _ hk))

/-- UNPK's function gives the sample on the wire. -/
theorem unpackSample_eq (f : WireFormat) (s : State) (ha : misaligned f.enc s.ibo = false)
    (hb : spanLeaves s.ibo.toNat (widthOf f.enc) s.ibLen.toNat = false) :
    unpackSample f s = .ok (sampleIn f s.ib s.ibo.toNat, s.setIbo (s.ibo + BitVec.ofNat 64 (widthOf f.enc))) := by
  obtain ⟨x, hx, hbit⟩ := unpackSample_ok f s ha hb
  rw [hx, sampleIn]
  congr 3
  apply Nat.eq_of_testBit_eq
  intro k
  rw [hbit, testBit_numberOfBits]

/-- A container that lies on the wire bit by bit is read back, extended. -/
theorem sampleIn_of_bits (f : WireFormat) (m : Memory) (b x : Nat) (hx : x < 2 ^ widthOf f.enc)
    (h : ∀ q, q < widthOf f.enc →
      m.bit (b + q) = x.testBit (wireOffset (widthOf f.enc) (resolveEndian f.endian) q)) :
    sampleIn f m b = extend f.enc x := by
  rw [sampleIn]
  congr 1
  rw [← numberOfBits_testBit x (widthOf f.enc) hx]
  refine numberOfBits_congr _ _ _ (fun k hk => ?_)
  rw [h _ (wireOffset_lt _ _ _ hk), wireOffset_wireOffset _ _ _ hk]

/-! ## One sample step -/

/-- Bit `p` of the output of a BATCH: the bit of sample `p / W_out` that lies there on the wire. -/
def batchBit (fi fo : WireFormat) (ib : Memory) (p : Nat) : Bool :=
  (uval (depthOf fo.enc) (convert fi.enc fo.enc (sampleIn fi ib (p / widthOf fo.enc * widthOf fi.enc)))).testBit
    (wireOffset (widthOf fo.enc) (resolveEndian fo.endian) (p % widthOf fo.enc))

/-- OB after the first `j` samples of a BATCH that found `ob0` there. -/
structure BatchOut (fi fo : WireFormat) (ib ob0 : Memory) (j : Nat) (m : Memory) : Prop where
  wf : ob0.wf = true → m.wf = true
  after : ∀ a, batchBytes j (widthOf fo.enc) ≤ a → m.read a = ob0.read a
  samples : ∀ p, p < j * widthOf fo.enc → m.bit p = batchBit fi fo ib p
  trailing : ∀ p, j * widthOf fo.enc ≤ p → p < 8 * batchBytes j (widthOf fo.enc) → m.bit p = false

/-- The state of a BATCH after `j` samples, its OB being `m`. -/
def batchState (fi fo : WireFormat) (s : State) (j : Nat) (m : Memory) : State :=
  (((s.setIbo (BitVec.ofNat 64 (j * widthOf fi.enc))).setObo (BitVec.ofNat 64 (j * widthOf fo.enc))).setCnt
    (BitVec.ofNat 32 j)).setOb m

theorem aligned_width (e : Encoding) (h : classOf e = .aligned) : widthOf e % 8 = 0 := by
  cases e <;> first | rfl | cases h

theorem cursor_toNat (j : Nat) (e : Encoding) (hj : j < 2 ^ 32) :
    (BitVec.ofNat 64 (j * widthOf e)).toNat = j * widthOf e := by
  have hw := widthOf_le e
  rw [BitVec.toNat_ofNat]
  apply Nat.mod_eq_of_lt
  calc j * widthOf e ≤ j * 64 := Nat.mul_le_mul_left _ hw
    _ < 2 ^ 64 := by omega

theorem batch_aligned (j : Nat) (e : Encoding) (hj : j < 2 ^ 32) :
    misaligned e (BitVec.ofNat 64 (j * widthOf e)) = false := by
  rw [misaligned_false, cursor_toNat j e hj]
  intro h
  rw [Nat.mul_mod, aligned_width e h]
  simp

theorem cursor_advance (j w : Nat) : BitVec.ofNat 64 (j * w) + BitVec.ofNat 64 w = BitVec.ofNat 64 ((j + 1) * w) := by
  rw [← BitVec.ofNat_add]
  congr 1
  ring

/-- The step for sample `j`, when it fits. -/
theorem batchStep_fits (fi fo : WireFormat) (s : State) (j : Nat) (m : Memory) (hj : j < 2 ^ 32)
    (hout : BatchOut fi fo s.ib s.ob j m) (hfit : s.sampleFits fi fo j) :
    ∃ m', BatchOut fi fo s.ib s.ob (j + 1) m' ∧
      batchStep fi fo (batchState fi fo s j m) =
        .ok (((batchState fi fo s j m).setIbo (BitVec.ofNat 64 ((j + 1) * widthOf fi.enc))).setOb m' |>.setObo
          (BitVec.ofNat 64 ((j + 1) * widthOf fo.enc))) := by
  have hi0 : 1 ≤ widthOf fi.enc := by have := widthOf_pos fi.enc; omega
  have ho0 : 1 ≤ widthOf fo.enc := by have := widthOf_pos fo.enc; omega
  have hci : (BitVec.ofNat 64 (j * widthOf fi.enc)).toNat = j * widthOf fi.enc := cursor_toNat j fi.enc hj
  have hco : (BitVec.ofNat 64 (j * widthOf fo.enc)).toNat = j * widthOf fo.enc := cursor_toNat j fo.enc hj
  obtain ⟨hf1, hf2⟩ := hfit
  have hl1 : spanLeaves (j * widthOf fi.enc) (widthOf fi.enc) s.ibLen.toNat = false := (spanLeaves_false_iff _ _ _ hi0).2 hf1
  have hl2 : spanLeaves (j * widthOf fo.enc) (widthOf fo.enc) s.obLen.toNat = false := (spanLeaves_false_iff _ _ _ ho0).2 hf2
  have hu := unpackSample_eq fi (batchState fi fo s j m) (batch_aligned j fi.enc hj)
    (by show spanLeaves (BitVec.ofNat 64 (j * widthOf fi.enc)).toNat (widthOf fi.enc) s.ibLen.toNat = false; rw [hci]; exact hl1)
  set v := convert fi.enc fo.enc (sampleIn fi s.ib (j * widthOf fi.enc)) with hv
  have hsi : sampleIn fi (batchState fi fo s j m).ib (batchState fi fo s j m).ibo.toNat = sampleIn fi s.ib (j * widthOf fi.enc) := by
    show sampleIn fi s.ib (BitVec.ofNat 64 (j * widthOf fi.enc)).toNat = _
    rw [hci]
  rw [hsi] at hu
  have hibo : (batchState fi fo s j m).ibo + BitVec.ofNat 64 (widthOf fi.enc) = BitVec.ofNat 64 ((j + 1) * widthOf fi.enc) :=
    cursor_advance j (widthOf fi.enc)
  rw [hibo] at hu
  set t := (batchState fi fo s j m).setIbo (BitVec.ofNat 64 ((j + 1) * widthOf fi.enc)) with ht
  obtain ⟨m', hp, hw, hfr, hbits⟩ := packSample_ok fo v t (batch_aligned j fo.enc hj)
    (by show spanLeaves (BitVec.ofNat 64 (j * widthOf fo.enc)).toNat (widthOf fo.enc) s.obLen.toNat = false; rw [hco]; exact hl2)
  have hto : t.obo.toNat = j * widthOf fo.enc := hco
  have htb : t.ob = m := rfl
  rw [hto, htb] at hfr hbits
  rw [htb] at hw
  have hobo : t.obo + BitVec.ofNat 64 (widthOf fo.enc) = BitVec.ofNat 64 ((j + 1) * widthOf fo.enc) := cursor_advance j (widthOf fo.enc)
  rw [hobo] at hp
  refine ⟨m', ?_, ?_⟩
  · have e1 : (j + 1) * widthOf fo.enc = j * widthOf fo.enc + widthOf fo.enc := by ring
    have hold : ∀ p, j * widthOf fo.enc ≤ p → p / 8 = j * widthOf fo.enc / 8 → j * widthOf fo.enc % 8 ≠ 0 → m.bit p = false := by
      intro p h1 h2 h3
      refine hout.trailing p h1 ?_
      unfold batchBytes
      omega
    refine ⟨fun h => hw (hout.wf h), ?_, ?_, ?_⟩
    · intro a ha
      unfold batchBytes at ha
      rw [hfr a (by omega)]
      exact hout.after a (by unfold batchBytes; omega)
    · intro p hp
      rw [e1] at hp
      by_cases hlo : p / 8 < j * widthOf fo.enc / 8
      · rw [Memory.bit_congr m' m p (hfr _ (by omega))]
        exact hout.samples p (by omega)
      · rw [hbits p (by omega) (by omega), sampleBit]
        by_cases hin : j * widthOf fo.enc ≤ p
        · have hq : p / widthOf fo.enc = j := by
            exact Nat.div_eq_of_lt_le hin (by rw [e1]; exact hp)
          have hr : p % widthOf fo.enc = p - j * widthOf fo.enc := by
            have := Nat.div_add_mod p (widthOf fo.enc)
            rw [hq, Nat.mul_comm] at this
            omega
          rw [batchBit, hq, hr]
          have hor : (decide (j * widthOf fo.enc % 8 ≠ 0 ∧ p / 8 = j * widthOf fo.enc / 8) && m.bit p) = false := by
            by_cases hc : j * widthOf fo.enc % 8 ≠ 0 ∧ p / 8 = j * widthOf fo.enc / 8
            · rw [hold p hin hc.2 hc.1]
              simp
            · simp [hc]
          rw [hor]
          simp [hin, hp, hv]
        · have hd : p / 8 = j * widthOf fo.enc / 8 := by omega
          have h3 : j * widthOf fo.enc % 8 ≠ 0 := by omega
          simp only [hin, false_and, decide_false, Bool.false_and, Bool.false_or, h3, hd, ne_eq, not_false_eq_true, and_self,
            decide_true, Bool.true_and]
          exact hout.samples p (by omega)
    · intro p h1 h2
      rw [e1] at h1
      unfold batchBytes at h2
      rw [e1] at h2
      rw [hbits p (by omega) (by omega), sampleBit]
      have hor : (decide (j * widthOf fo.enc % 8 ≠ 0 ∧ p / 8 = j * widthOf fo.enc / 8) && m.bit p) = false := by
        by_cases hc : j * widthOf fo.enc % 8 ≠ 0 ∧ p / 8 = j * widthOf fo.enc / 8
        · rw [hold p (by omega) hc.2 hc.1]
          simp
        · simp [hc]
      rw [hor]
      simp [show ¬ p < j * widthOf fo.enc + widthOf fo.enc by omega]
  · unfold batchStep
    have e1 : (batchState fi fo s j m).ibo.toNat = j * widthOf fi.enc := hci
    have e2 : (batchState fi fo s j m).obo.toNat = j * widthOf fo.enc := hco
    have e3 : (batchState fi fo s j m).ibLen = s.ibLen := rfl
    have e4 : (batchState fi fo s j m).obLen = s.obLen := rfl
    rw [e1, e2, e3, e4, hl1, hl2, hu]
    simp only [Bool.false_eq_true, if_false]
    exact hp

theorem batchStep_outside (fi fo : WireFormat) (s : State) (j : Nat) (m : Memory) (hj : j < 2 ^ 32) :
    (spanOutside (j * widthOf fi.enc) (widthOf fi.enc) s.ibLen.toNat →
      batchStep fi fo (batchState fi fo s j m) = .error (.boundsFaultIB (BitVec.ofNat 64 (j * widthOf fi.enc)))) ∧
    (¬ spanOutside (j * widthOf fi.enc) (widthOf fi.enc) s.ibLen.toNat →
      spanOutside (j * widthOf fo.enc) (widthOf fo.enc) s.obLen.toNat →
      batchStep fi fo (batchState fi fo s j m) = .error (.boundsFaultOB (BitVec.ofNat 64 (j * widthOf fo.enc)))) := by
  have hi0 : 1 ≤ widthOf fi.enc := by have := widthOf_pos fi.enc; omega
  have ho0 : 1 ≤ widthOf fo.enc := by have := widthOf_pos fo.enc; omega
  have e1 : (batchState fi fo s j m).ibo.toNat = j * widthOf fi.enc := cursor_toNat j fi.enc hj
  have e2 : (batchState fi fo s j m).obo.toNat = j * widthOf fo.enc := cursor_toNat j fo.enc hj
  have e3 : (batchState fi fo s j m).ibLen = s.ibLen := rfl
  have e4 : (batchState fi fo s j m).obLen = s.obLen := rfl
  unfold batchStep
  rw [e1, e2, e3, e4]
  constructor
  · intro h
    rw [(spanLeaves_iff_outside _ _ _ hi0).2 h]
    rfl
  · intro h h2
    rw [(spanLeaves_false_iff _ _ _ hi0).2 h, (spanLeaves_iff_outside _ _ _ ho0).2 h2]
    rfl

/-! ## The loop -/

theorem batchState_zero (fi fo : WireFormat) (s : State) : batchStart s = batchState fi fo s 0 s.ob := by
  simp only [batchState, Nat.zero_mul]
  rfl

theorem batchOut_zero (fi fo : WireFormat) (ib ob : Memory) : BatchOut fi fo ib ob 0 ob where
  wf := fun h => h
  after := fun _ _ => rfl
  samples := fun p h => by simp at h
  trailing := fun p _ h => by simp [batchBytes] at h

/-- The first `k` samples fit: the loop passes through the state after them. -/
theorem batchLoop_prefix (fi fo : WireFormat) (s : State) (k j : Nat) (m : Memory) (hkj : j + k < 2 ^ 32) (rest : Nat)
    (hout : BatchOut fi fo s.ib s.ob j m) (hfit : ∀ i, j ≤ i → i < j + k → s.sampleFits fi fo i) :
    ∃ m', BatchOut fi fo s.ib s.ob (j + k) m' ∧
      batchLoop fi fo (k + rest) (batchState fi fo s j m) = batchLoop fi fo rest (batchState fi fo s (j + k) m') := by
  induction k generalizing j m with
  | zero => exact ⟨m, hout, by simp⟩
  | succ k ih =>
    obtain ⟨m1, h1, hs⟩ := batchStep_fits fi fo s j m (by omega) hout (hfit j (le_refl _) (by omega))
    obtain ⟨m2, h2, hl⟩ := ih (j + 1) m1 (by omega) h1 (fun i hi hi2 => hfit i (by omega) (by omega))
    refine ⟨m2, by rw [show j + (k + 1) = j + 1 + k by omega]; exact h2, ?_⟩
    rw [show k + 1 + rest = (k + rest) + 1 by omega, batchLoop, hs]
    simp only
    rw [show j + (k + 1) = j + 1 + k by omega, ← hl]
    congr 1
    simp only [batchState, State.setIbo, State.setObo, State.setCnt, State.setOb]
    rw [← BitVec.ofNat_add]

/-- What `k` fitting samples leave, from the start of the command. -/
theorem batchLoop_start (fi fo : WireFormat) (s : State) (k rest : Nat) (hk : k < 2 ^ 32)
    (hfit : ∀ i, i < k → s.sampleFits fi fo i) :
    ∃ m, BatchOut fi fo s.ib s.ob k m ∧
      batchLoop fi fo (k + rest) (batchStart s) = batchLoop fi fo rest (batchState fi fo s k m) := by
  obtain ⟨m, h1, h2⟩ := batchLoop_prefix fi fo s k 0 s.ob (by omega) rest (batchOut_zero fi fo s.ib s.ob)
    (fun i _ h => hfit i (by omega))
  rw [Nat.zero_add] at h1 h2
  exact ⟨m, h1, by rw [batchState_zero fi fo s, h2]⟩

/-- The output samples are the conversions of the input samples. -/
theorem BatchOut.sample_eq {fi fo : WireFormat} {ib ob0 m : Memory} {j : Nat} (h : BatchOut fi fo ib ob0 j m) (i : Nat)
    (hi : i < j) :
    sampleIn fo m (i * widthOf fo.enc) = convert fi.enc fo.enc (sampleIn fi ib (i * widthOf fi.enc)) := by
  have hpos := widthOf_pos fo.enc
  have hdw := depthOf_le_widthOf fo.enc
  have hlt : uval (depthOf fo.enc) (convert fi.enc fo.enc (sampleIn fi ib (i * widthOf fi.enc))) < 2 ^ widthOf fo.enc :=
    lt_of_lt_of_le (uval_lt _ _) (Nat.pow_le_pow_right (by omega) hdw)
  rw [sampleIn_of_bits fo m _ _ hlt]
  · have hcan := canonical_convert fi.enc fo.enc (sampleIn fi ib (i * widthOf fi.enc))
    rw [canonical] at hcan
    conv => rhs; rw [← hcan]
    exact extend_congr _ _ _ (fun k hk => by rw [uval, Nat.testBit_mod_two_pow]; simp [hk])
  · intro q hq
    have hle : (i + 1) * widthOf fo.enc ≤ j * widthOf fo.enc := Nat.mul_le_mul_right _ hi
    rw [add_mul, one_mul] at hle
    rw [h.samples _ (by omega), batchBit]
    have hd : (i * widthOf fo.enc + q) / widthOf fo.enc = i := by
      rw [Nat.add_comm, Nat.add_mul_div_right _ _ (by omega), Nat.div_eq_of_lt hq, Nat.zero_add]
    have hm : (i * widthOf fo.enc + q) % widthOf fo.enc = q := by
      rw [Nat.add_comm, Nat.add_mul_mod_self_right, Nat.mod_eq_of_lt hq]
    rw [hd, hm]

/-- Two outputs of the same samples agree in the footprint. -/
theorem BatchOut.read_eq {fi fo : WireFormat} {ib ob1 ob2 m1 m2 : Memory} {j : Nat} (h1 : BatchOut fi fo ib ob1 j m1)
    (h2 : BatchOut fi fo ib ob2 j m2) (a : Nat) (ha : a < batchBytes j (widthOf fo.enc)) : m1.read a = m2.read a := by
  apply BitVec.eq_of_getLsbD_eq
  intro k hk
  have hb : ∀ m : Memory, (m.read a).getLsbD k = m.bit (8 * a + (7 - k)) := by
    intro m
    rw [Memory.bit, show (8 * a + (7 - k)) / 8 = a by omega, show 7 - (8 * a + (7 - k)) % 8 = k by omega]
  rw [hb, hb]
  by_cases hp : 8 * a + (7 - k) < j * widthOf fo.enc
  · rw [h1.samples _ hp, h2.samples _ hp]
  · rw [h1.trailing _ (by omega) (by omega), h2.trailing _ (by omega) (by omega)]

/-- The output depends on the input footprint only. -/
theorem BatchOut.ib_congr {fi fo : WireFormat} {ib ib' ob0 m : Memory} {j : Nat} (h : BatchOut fi fo ib ob0 j m)
    (hib : ∀ a, a < batchBytes j (widthOf fi.enc) → ib'.read a = ib.read a) : BatchOut fi fo ib' ob0 j m := by
  refine ⟨h.wf, h.after, ?_, h.trailing⟩
  intro p hp
  have hpos := widthOf_pos fo.enc
  have hq : p / widthOf fo.enc < j := by
    rw [Nat.div_lt_iff_lt_mul (by omega)]
    exact hp
  rw [h.samples p hp, batchBit, batchBit]
  rw [sampleIn_congr fi ib ib' _ _ (fun q hq2 => ?_)]
  have hle : (p / widthOf fo.enc + 1) * widthOf fi.enc ≤ j * widthOf fi.enc := Nat.mul_le_mul_right _ hq
  rw [add_mul, one_mul] at hle
  exact Memory.bit_congr _ _ _ (hib _ (by unfold batchBytes; omega)).symm

/-! ## The command -/

theorem resolve_valid (s : State) (fi fo : WireFormat) (h1 : s.inFmt = fi.code) (h2 : s.outFmt = fo.code) :
    resolve s = s.setStatus { s.status with resolved := true, cfgErr := false } := by
  simp [resolve, recordResolve, resolveOk, h1, h2, formatOfCode_code]

theorem exec_batch_valid (s : State) (fi fo : WireFormat) (h1 : s.inFmt = fi.code) (h2 : s.outFmt = fo.code) :
    exec .batch s = .next (batchLoop fi fo s.n.toNat (batchStart (resolve s))) := by
  simp only [exec, execBatch]
  rw [h1, h2, formatOfCode_code, formatOfCode_code]

/-- Every sample fits exactly when both buffers hold the bytes that N samples occupy (44_dispatch.md rule R230). -/
theorem all_fit_iff (s : State) (fi fo : WireFormat) (n : Nat) :
    (∀ i, i < n → s.sampleFits fi fo i) ↔
      batchBytes n (widthOf fi.enc) ≤ s.ibLen.toNat ∧ batchBytes n (widthOf fo.enc) ≤ s.obLen.toNat := by
  have hi := widthOf_pos fi.enc
  have ho := widthOf_pos fo.enc
  have aux : ∀ w len : Nat, 8 ≤ w → ((∀ i, i < n → (i * w + w - 1) / 8 < len) ↔ (n * w + 7) / 8 ≤ len) := by
    intro w len hw
    constructor
    · intro h
      rcases Nat.eq_zero_or_pos n with rfl | hn
      · simp
      · have h1 := h (n - 1) (by omega)
        have h2 : (n - 1) * w + w = n * w := by
          obtain ⟨k, rfl⟩ : ∃ k, n = k + 1 := ⟨n - 1, by omega⟩
          simp only [Nat.add_sub_cancel]
          ring
        omega
    · intro h i hi
      have h1 : (i + 1) * w ≤ n * w := Nat.mul_le_mul_right _ hi
      rw [add_mul, one_mul] at h1
      omega
  simp only [State.sampleFits, spanOutside_iff _ _ _ (show 1 ≤ widthOf fi.enc by omega),
    spanOutside_iff _ _ _ (show 1 ≤ widthOf fo.enc by omega), batchBytes, not_le]
  rw [← aux _ _ hi, ← aux _ _ ho]
  exact ⟨fun h => ⟨fun i hi => (h i hi).1, fun i hi => (h i hi).2⟩, fun h i hi => ⟨h.1 i hi, h.2 i hi⟩⟩

/-- BATCH when every sample fits. -/
theorem batch_all_fit (s : State) (fi fo : WireFormat) (h1 : s.inFmt = fi.code) (h2 : s.outFmt = fo.code)
    (hf : ∀ i, i < s.n.toNat → s.sampleFits fi fo i) :
    ∃ m, BatchOut fi fo s.ib s.ob s.n.toNat m ∧ exec .batch s = .next (batchState fi fo (resolve s) s.n.toNat m) := by
  obtain ⟨m, hm, hl⟩ := batchLoop_start fi fo (resolve s) s.n.toNat 0 s.n.isLt hf
  refine ⟨m, hm, ?_⟩
  rw [exec_batch_valid s fi fo h1 h2]
  exact congrArg Host.Outcome.next hl

/-- BATCH when sample `k` is the first that does not fit. -/
theorem batch_stops_at (s : State) (fi fo : WireFormat) (k : Nat) (h1 : s.inFmt = fi.code) (h2 : s.outFmt = fo.code)
    (hk : k < s.n.toNat) (hf : ∀ i, i < k → s.sampleFits fi fo i) (hn : ¬ s.sampleFits fi fo k) :
    ∃ m f, BatchOut fi fo s.ib s.ob k m ∧ exec .batch s = .next ((batchState fi fo (resolve s) k m).raise f) ∧
      (spanOutside (k * widthOf fi.enc) (widthOf fi.enc) s.ibLen.toNat →
        f = .boundsFaultIB (BitVec.ofNat 64 (k * widthOf fi.enc))) ∧
      (¬ spanOutside (k * widthOf fi.enc) (widthOf fi.enc) s.ibLen.toNat →
        f = .boundsFaultOB (BitVec.ofNat 64 (k * widthOf fo.enc))) := by
  have hlt := s.n.isLt
  obtain ⟨m, hm, hl⟩ := batchLoop_start fi fo (resolve s) k (s.n.toNat - k - 1 + 1) (by omega) hf
  have ho := batchStep_outside fi fo (resolve s) k m (by omega)
  rw [show k + (s.n.toNat - k - 1 + 1) = s.n.toNat by omega, batchLoop] at hl
  by_cases hs : spanOutside (k * widthOf fi.enc) (widthOf fi.enc) s.ibLen.toNat
  · rw [ho.1 hs] at hl
    exact ⟨m, _, hm, by rw [exec_batch_valid s fi fo h1 h2, hl], fun _ => rfl, fun h => absurd hs h⟩
  · have hs2 : spanOutside (k * widthOf fo.enc) (widthOf fo.enc) s.obLen.toNat := by
      by_contra h
      exact hn ⟨hs, h⟩
    rw [ho.2 hs hs2] at hl
    exact ⟨m, _, hm, by rw [exec_batch_valid s fi fo h1 h2, hl], fun h => absurd h hs, fun _ => rfl⟩

/-! ## The sample registers play no part -/

/-- `s` with other sample registers. -/
def State.withRegs (s : State) (g : SampleRegs) : State := { s with regs := g }

theorem alignedRead_regs (s : State) (g : SampleRegs) :
    alignedRead (s.withRegs g) = (alignedRead s).map (fun r => (r.1, r.2.withRegs g)) := by
  unfold alignedRead
  simp only [apply_ite (Except.map _)]
  rfl

theorem unalignedRead_regs (len : Nat) (s : State) (g : SampleRegs) :
    unalignedRead len (s.withRegs g) = (unalignedRead len s).map (fun r => (r.1, r.2.withRegs g)) := by
  unfold unalignedRead
  simp only [apply_ite (Except.map _)]
  rfl

theorem alignedWrite_regs (v : Nat) (s : State) (g : SampleRegs) :
    alignedWrite v (s.withRegs g) = (alignedWrite v s).map (fun t => t.withRegs g) := by
  unfold alignedWrite
  simp only [apply_ite (Except.map _)]
  rfl

theorem unalignedWrite_regs (len v : Nat) (s : State) (g : SampleRegs) :
    unalignedWrite len v (s.withRegs g) = (unalignedWrite len v s).map (fun t => t.withRegs g) := by
  unfold unalignedWrite
  simp only [apply_ite (Except.map _)]
  rfl

theorem packChunks_regs (cls : FormatClass) (x : Nat) (cs : List Chunk) (s : State) (g : SampleRegs) :
    packChunks cls x cs (s.withRegs g) = (packChunks cls x cs s).map (fun t => t.withRegs g) := by
  induction cs generalizing s with
  | nil => rfl
  | cons c rest ih =>
    have h : moveOut cls c.len (bitField x c.hi c.lo) (s.withRegs g) =
        (moveOut cls c.len (bitField x c.hi c.lo) s).map (fun t => t.withRegs g) := by
      cases cls
      · exact alignedWrite_regs _ s g
      · exact unalignedWrite_regs _ _ s g
    simp only [packChunks, h]
    cases moveOut cls c.len (bitField x c.hi c.lo) s with
    | error f => rfl
    | ok t => exact ih t

theorem unpackChunks_regs (cls : FormatClass) (cs : List Chunk) (x : Nat) (s : State) (g : SampleRegs) :
    unpackChunks cls cs x (s.withRegs g) = (unpackChunks cls cs x s).map (fun r => (r.1, r.2.withRegs g)) := by
  induction cs generalizing x s with
  | nil => rfl
  | cons c rest ih =>
    have h : moveIn cls c.len (s.withRegs g) = (moveIn cls c.len s).map (fun r => (r.1, r.2.withRegs g)) := by
      cases cls
      · exact alignedRead_regs s g
      · exact unalignedRead_regs _ s g
    simp only [unpackChunks, h]
    cases moveIn cls c.len s with
    | error f => rfl
    | ok r => exact ih _ r.2

theorem packSample_regs (f : WireFormat) (v : Word) (s : State) (g : SampleRegs) :
    packSample f v (s.withRegs g) = (packSample f v s).map (fun t => t.withRegs g) := by
  simp only [packSample]
  rw [show (s.withRegs g).obo = s.obo from rfl, show (s.withRegs g).obLen = s.obLen from rfl]
  split_ifs
  · rfl
  · rfl
  · exact packChunks_regs _ _ _ s g

theorem unpackSample_regs (f : WireFormat) (s : State) (g : SampleRegs) :
    unpackSample f (s.withRegs g) = (unpackSample f s).map (fun r => (r.1, r.2.withRegs g)) := by
  simp only [unpackSample]
  rw [show (s.withRegs g).ibo = s.ibo from rfl, show (s.withRegs g).ibLen = s.ibLen from rfl]
  split_ifs
  · rfl
  · rfl
  · rw [unpackChunks_regs]
    cases unpackChunks (classOf f.enc) (chunkList (widthOf f.enc) (resolveEndian f.endian)) 0 s <;> rfl

theorem batchStep_regs (fi fo : WireFormat) (s : State) (g : SampleRegs) :
    batchStep fi fo (s.withRegs g) = (batchStep fi fo s).map (fun t => t.withRegs g) := by
  simp only [batchStep]
  rw [show (s.withRegs g).ibo = s.ibo from rfl, show (s.withRegs g).ibLen = s.ibLen from rfl,
    show (s.withRegs g).obo = s.obo from rfl, show (s.withRegs g).obLen = s.obLen from rfl]
  split_ifs
  · rfl
  · rfl
  · rw [unpackSample_regs]
    cases unpackSample fi s with
    | error f => rfl
    | ok r => exact packSample_regs fo _ r.2 g

theorem batchLoop_regs (fi fo : WireFormat) (k : Nat) (s : State) (g : SampleRegs) :
    batchLoop fi fo k (s.withRegs g) = (batchLoop fi fo k s).withRegs g := by
  induction k generalizing s with
  | zero => rfl
  | succ k ih =>
    simp only [batchLoop, batchStep_regs]
    cases batchStep fi fo s with
    | error f => rfl
    | ok t => exact ih (t.setCnt (t.cnt + 1#32))

end Sys2Proof.Machine
end

