-- ==== Sys2Proof/Laws/FloatNearest.lean ====
section
/-! SUPPORT. Rounding gives the nearest float, ties to even, and overflows to infinity exactly from half a unit past the largest
finite float (00_scope.md rule R15). -/

namespace Sys2Proof.Machine

theorem signFactor_mul_self (neg : Bool) : signFactor neg * signFactor neg = 1 := by
  cases neg <;> norm_num [signFactor]

theorem abs_signFactor (neg : Bool) : |signFactor neg| = 1 := by
  cases neg <;> norm_num [signFactor]

/-- A finite float's number as an integer significand times a power of two. -/
theorem toRat_finite (neg : Bool) (m : Nat) (e : Int) :
    (FloatVal.finite neg m e).toRat = ((if neg then -(m : Int) else m : Int) : ℚ) * (2 : ℚ) ^ e := by
  cases neg <;> simp [FloatVal.toRat]

/-- The parity of a rounded pattern is that of its significand. -/
theorem round_even (f : FloatFormat) (neg : Bool) (m : Nat) (e : Int) (hm : m ≠ 0) (hF : 0 < f.fracBits)
    (hfin : f.roundMag m e < f.infMag) (h : roundToUnit m e (f.lastPlace m e) % 2 = 0) : f.round neg m e % 2 = 0 := by
  have h2 : ∀ k, 0 < k → 2 ^ k % 2 = 0 := fun k hk => by
    obtain ⟨j, rfl⟩ : ∃ j, k = j + 1 := ⟨k - 1, by omega⟩
    rw [pow_succ, Nat.mul_mod_left]
  have hmag := roundMag_eq f m e hm
  have hmod : f.roundMag m e % 2 = 0 := by
    rw [hmag, min_eq_left (by omega), Nat.add_mod, Nat.mul_mod, h2 _ hF, h]
    simp
  unfold FloatFormat.round FloatFormat.withSign
  rw [Nat.add_mod, hmod]
  cases neg
  · rfl
  · simp [h2 (f.expBits + f.fracBits) (by omega)]

/-- The rounded number is at least as near as every other finite float of the format, and on a tie its pattern is even. -/
theorem round_nearest (f : FloatFormat) (neg : Bool) (m : Nat) (e : Int) (hm : m ≠ 0) (hF : 0 < f.fracBits)
    (hfin : f.roundMag m e < f.infMag) (b : Nat) (hb : (f.value b).isFinite = true) :
    |(f.value (f.round neg m e)).toRat - signFactor neg * ((m : ℚ) * (2 : ℚ) ^ e)| ≤
        |(f.value b).toRat - signFactor neg * ((m : ℚ) * (2 : ℚ) ^ e)| ∧
      (|(f.value b).toRat - signFactor neg * ((m : ℚ) * (2 : ℚ) ^ e)| =
          |(f.value (f.round neg m e)).toRat - signFactor neg * ((m : ℚ) * (2 : ℚ) ^ e)| →
        (f.value b).toRat = (f.value (f.round neg m e)).toRat ∨ f.round neg m e % 2 = 0) := by
  obtain ⟨-, hy⟩ := value_round f neg m e hm hfin
  have hev := round_even f neg m e hm hF hfin
  rw [hy]
  have hup := two_zpow_pos (f.lastPlace m e)
  have hx : (m : ℚ) * (2 : ℚ) ^ e = (m : ℚ) * (2 : ℚ) ^ (e - f.lastPlace m e) * (2 : ℚ) ^ f.lastPlace m e := by
    rw [mul_assoc, ← zpow_add₀ (by norm_num)]
    congr 2
    ring
  obtain ⟨zn, zm, ze, hz⟩ : ∃ zn zm ze, f.value b = .finite zn zm ze := by
    cases h : f.value b with
    | nan => rw [h] at hb; cases hb
    | inf s => rw [h] at hb; cases hb
    | finite a c d => exact ⟨a, c, d, rfl⟩
  obtain ⟨hzm, hze⟩ := value_finite_form f b zn zm ze hz
  rw [hz, toRat_finite]
  -- the other float, seen from the side of the rounded number's sign
  obtain ⟨i, hi, hilt⟩ : ∃ i : Int, signFactor neg * (((if zn then -(zm : Int) else zm : Int) : ℚ) * (2 : ℚ) ^ ze) =
      (i : ℚ) * (2 : ℚ) ^ ze ∧ i < 2 ^ (f.fracBits + 1) := by
    have hzm' : (zm : Int) < 2 ^ (f.fracBits + 1) := by exact_mod_cast hzm
    cases neg <;> cases zn
    · exact ⟨zm, by simp [signFactor], hzm'⟩
    · exact ⟨-zm, by simp [signFactor], by omega⟩
    · exact ⟨-zm, by simp [signFactor], by omega⟩
    · exact ⟨zm, by simp [signFactor], hzm'⟩
  have hback : ((if zn then -(zm : Int) else zm : Int) : ℚ) * (2 : ℚ) ^ ze = signFactor neg * ((i : ℚ) * (2 : ℚ) ^ ze) := by
    rw [← hi, ← mul_assoc, signFactor_mul_self, one_mul]
  rw [hback]
  have hdist : ∀ a : ℚ, |signFactor neg * a - signFactor neg * ((m : ℚ) * (2 : ℚ) ^ e)| = |a - (m : ℚ) * (2 : ℚ) ^ e| := by
    intro a
    rw [← mul_sub, abs_mul, abs_signFactor, one_mul]
  rw [hdist, hdist, hx]
  set u := f.lastPlace m e with hu
  set q := (m : ℚ) * (2 : ℚ) ^ (e - u) with hq
  have hfac : ∀ a : ℚ, |a * (2 : ℚ) ^ u - q * (2 : ℚ) ^ u| = |a - q| * (2 : ℚ) ^ u := by
    intro a
    rw [← sub_mul, abs_mul, abs_of_pos hup]
  by_cases hcase : u ≤ ze
  · -- a multiple of the last place
    have hj : (i : ℚ) * (2 : ℚ) ^ ze = ((i * 2 ^ (ze - u).toNat : Int) : ℚ) * (2 : ℚ) ^ u := by
      push_cast
      rw [mul_assoc, ← zpow_natCast (2 : ℚ) (ze - u).toNat, ← zpow_add₀ (by norm_num)]
      congr 2
      omega
    rw [hj, hfac, hfac]
    obtain ⟨h1, h2⟩ := roundToUnit_nearest m e u (i * 2 ^ (ze - u).toNat)
    rw [← hq] at h1 h2
    refine ⟨mul_le_mul_of_nonneg_right h1 hup.le, fun h => ?_⟩
    rcases h2 (mul_right_cancel₀ hup.ne' h) with h3 | h3
    · left
      rw [h3]
      push_cast
      rfl
    · exact Or.inr (hev h3)
  · -- a float below the binade of the number
    have hmin : f.minExp < u := by omega
    have hge := le_scaled f m e hm hmin
    rw [← hu, ← hq] at hge
    have hzlt : (i : ℚ) * (2 : ℚ) ^ ze < (2 : ℚ) ^ f.fracBits * (2 : ℚ) ^ u := by
      have h1 : (i : ℚ) < (2 : ℚ) ^ (f.fracBits + 1) := by exact_mod_cast hilt
      have h2 : (2 : ℚ) ^ (f.fracBits + 1) * (2 : ℚ) ^ ze ≤ (2 : ℚ) ^ f.fracBits * (2 : ℚ) ^ u := by
        rw [← zpow_natCast, ← zpow_natCast, ← zpow_add₀ (by norm_num), ← zpow_add₀ (by norm_num)]
        apply zpow_le_zpow_right₀ (by norm_num)
        push_cast
        omega
      have h3 := two_zpow_pos ze
      calc (i : ℚ) * (2 : ℚ) ^ ze < (2 : ℚ) ^ (f.fracBits + 1) * (2 : ℚ) ^ ze := by gcongr
        _ ≤ _ := h2
    have h1 := (roundToUnit_nearest m e u (2 ^ f.fracBits)).1
    rw [← hq] at h1
    push_cast at h1
    have h2 : |(2 : ℚ) ^ f.fracBits - q| = q - 2 ^ f.fracBits := by
      rw [abs_sub_comm, abs_of_nonneg (by linarith)]
    have h3 : |(i : ℚ) * (2 : ℚ) ^ ze - q * (2 : ℚ) ^ u| = q * (2 : ℚ) ^ u - (i : ℚ) * (2 : ℚ) ^ ze := by
      rw [abs_sub_comm, abs_of_nonneg]
      have : (2 : ℚ) ^ f.fracBits * (2 : ℚ) ^ u ≤ q * (2 : ℚ) ^ u := by gcongr
      linarith
    have h4 : |(roundToUnit m e u : ℚ) - q| * (2 : ℚ) ^ u ≤ (q - 2 ^ f.fracBits) * (2 : ℚ) ^ u := by
      apply mul_le_mul_of_nonneg_right _ hup.le
      linarith
    rw [sub_mul] at h4
    rw [hfac, h3]
    exact ⟨by linarith, fun h => absurd h (by linarith)⟩

/-- A number overflows exactly from half a unit past the largest finite float. -/
theorem round_overflow (f : FloatFormat) (m : Nat) (e : Int) (hm : m ≠ 0) (hE : 2 ≤ f.expBits) :
    f.roundMag m e = f.infMag ↔
      ((2 : ℚ) ^ (f.fracBits + 1) - 1 / 2) * (2 : ℚ) ^ (f.minExp + (2 ^ f.expBits - 3)) ≤ (m : ℚ) * (2 : ℚ) ^ e := by
  have hE4 : (2 : Nat) ^ 2 ≤ 2 ^ f.expBits := Nat.pow_le_pow_right (by omega) hE
  have hP : 0 < 2 ^ f.fracBits := by positivity
  have hmin := minExp_le_lastPlace f m e
  have hle := roundToUnit_le f m e hm
  have hlow := le_roundToUnit f m e hm
  have hsc := le_scaled f m e hm
  have hlt := scaled_lt f m e hm
  obtain ⟨hr1, hr2⟩ := roundToUnit_spec m e (f.lastPlace m e)
  have hup := two_zpow_pos (f.lastPlace m e)
  have hx : (m : ℚ) * (2 : ℚ) ^ e =
      (m : ℚ) * (2 : ℚ) ^ (e - f.lastPlace m e) * (2 : ℚ) ^ f.lastPlace m e := by
    rw [mul_assoc, ← zpow_add₀ (by norm_num)]
    congr 2
    ring
  rw [roundMag_eq f m e hm, hx, min_eq_right_iff]
  set u := f.lastPlace m e with hu
  set q := (m : ℚ) * (2 : ℚ) ^ (e - u) with hq
  set n := roundToUnit m e u with hn
  obtain ⟨k, hk⟩ : ∃ k : ℕ, u - f.minExp = k := ⟨(u - f.minExp).toNat, by omega⟩
  have huk : u = f.minExp + k := by omega
  rw [hk, Int.toNat_natCast]
  have hinf : f.infMag = (2 ^ f.expBits - 1) * 2 ^ f.fracBits := rfl
  rw [hinf]
  have h2F : (2 : ℚ) ^ (f.fracBits + 1) = 2 * 2 ^ f.fracBits := by rw [pow_succ]; ring
  have h2Fn : 2 ^ (f.fracBits + 1) = 2 * 2 ^ f.fracBits := by rw [pow_succ]; ring
  have hPq : (1 : ℚ) ≤ 2 ^ f.fracBits := by exact_mod_cast hP
  rcases Nat.lt_trichotomy k (2 ^ f.expBits - 3) with hk1 | hk1 | hk1
  · -- below the last binade
    have hleft : ¬ (2 ^ f.expBits - 1) * 2 ^ f.fracBits ≤ k * 2 ^ f.fracBits + n := by
      rw [not_le]
      calc k * 2 ^ f.fracBits + n ≤ (2 ^ f.expBits - 4) * 2 ^ f.fracBits + 2 * 2 ^ f.fracBits := by
            rw [← h2Fn]
            exact Nat.add_le_add (Nat.mul_le_mul_right _ (by omega)) hle
        _ = (2 ^ f.expBits - 2) * 2 ^ f.fracBits := by
            rw [← Nat.add_mul]
            congr 1
            omega
        _ < _ := Nat.mul_lt_mul_of_pos_right (by omega) hP
    refine iff_of_false hleft ?_
    rw [not_le]
    have hstep : (2 : ℚ) ^ u * 2 ≤ (2 : ℚ) ^ (f.minExp + (2 ^ f.expBits - 3)) := by
      rw [← zpow_add_one₀ (by norm_num)]
      apply zpow_le_zpow_right₀ (by norm_num)
      have : (k : Int) < 2 ^ f.expBits - 3 := by
        have h3 : ((2 ^ f.expBits - 3 : Nat) : Int) = 2 ^ f.expBits - 3 := by push_cast [show 3 ≤ 2 ^ f.expBits by omega]; ring
        rw [← h3]
        exact_mod_cast hk1
      omega
    rw [h2F] at hlt ⊢
    calc q * (2 : ℚ) ^ u < 2 * 2 ^ f.fracBits * (2 : ℚ) ^ u := by gcongr
      _ = 2 ^ f.fracBits * ((2 : ℚ) ^ u * 2) := by ring
      _ ≤ 2 ^ f.fracBits * (2 : ℚ) ^ (f.minExp + (2 ^ f.expBits - 3)) := by gcongr
      _ ≤ _ := by
          gcongr
          linarith
  · -- the last binade
    have hexp : f.minExp + (2 ^ f.expBits - 3) = u := by
      have h3 : ((2 ^ f.expBits - 3 : Nat) : Int) = 2 ^ f.expBits - 3 := by push_cast [show 3 ≤ 2 ^ f.expBits by omega]; ring
      rw [huk, hk1, h3]
    rw [hexp, mul_le_mul_iff_of_pos_right hup]
    have hleft : (2 ^ f.expBits - 1) * 2 ^ f.fracBits ≤ k * 2 ^ f.fracBits + n ↔ 2 * 2 ^ f.fracBits ≤ n := by
      rw [show 2 ^ f.expBits - 1 = k + 2 by omega, Nat.add_mul]
      omega
    rw [hleft, h2F]
    constructor
    · intro h
      have h1 : (2 : ℚ) * 2 ^ f.fracBits ≤ n := by exact_mod_cast h
      have := (abs_le.1 hr1).2
      linarith
    · intro h
      by_contra hc
      have h1 : n + 1 ≤ 2 * 2 ^ f.fracBits := by omega
      have h1q : (n : ℚ) + 1 ≤ 2 * 2 ^ f.fracBits := by exact_mod_cast h1
      have h2 := (abs_le.1 hr1).1
      have heq : (n : ℚ) - q = -(1 / 2) := by linarith
      have heven := hr2 (by rw [heq]; norm_num)
      have hnq : (n : ℚ) + 1 = 2 * 2 ^ f.fracBits := by linarith
      have hnn : n + 1 = 2 * 2 ^ f.fracBits := by exact_mod_cast hnq
      omega
  · -- past the last binade
    have hkpos : f.minExp < u := by omega
    have hleft : (2 ^ f.expBits - 1) * 2 ^ f.fracBits ≤ k * 2 ^ f.fracBits + n := by
      calc (2 ^ f.expBits - 1) * 2 ^ f.fracBits = (2 ^ f.expBits - 2) * 2 ^ f.fracBits + 2 ^ f.fracBits := by
            rw [← Nat.succ_mul]
            congr 1
            omega
        _ ≤ _ := Nat.add_le_add (Nat.mul_le_mul_right _ (by omega)) (hlow hkpos)
    refine iff_of_true hleft ?_
    have hstep : (2 : ℚ) ^ (f.minExp + (2 ^ f.expBits - 3)) * 2 ≤ (2 : ℚ) ^ u := by
      rw [← zpow_add_one₀ (by norm_num)]
      apply zpow_le_zpow_right₀ (by norm_num)
      have : (2 : Int) ^ f.expBits - 3 < k := by
        have h3 : ((2 ^ f.expBits - 3 : Nat) : Int) = 2 ^ f.expBits - 3 := by push_cast [show 3 ≤ 2 ^ f.expBits by omega]; ring
        rw [← h3]
        exact_mod_cast hk1
      omega
    have hge := hsc hkpos
    have hpos := two_zpow_pos (f.minExp + (2 ^ f.expBits - 3))
    calc ((2 : ℚ) ^ (f.fracBits + 1) - 1 / 2) * (2 : ℚ) ^ (f.minExp + (2 ^ f.expBits - 3))
        ≤ 2 ^ f.fracBits * ((2 : ℚ) ^ (f.minExp + (2 ^ f.expBits - 3)) * 2) := by
          rw [h2F]
          nlinarith
      _ ≤ 2 ^ f.fracBits * (2 : ℚ) ^ u := by gcongr
      _ ≤ q * (2 : ℚ) ^ u := by gcongr

/-- `FloatFormat.round` gives the pattern that rule R15 asks for. -/
theorem round_rounds (f : FloatFormat) (neg : Bool) (m : Nat) (e : Int) (hE : 2 ≤ f.expBits) (hF : 0 < f.fracBits) :
    f.Rounds (signFactor neg * ((m : ℚ) * (2 : ℚ) ^ e)) (f.round neg m e) := by
  have he := two_zpow_pos e
  have hov : 0 < f.overflow := by
    unfold FloatFormat.overflow
    have h1 : (1 : ℚ) ≤ (2 : ℚ) ^ (f.fracBits + 1) := one_le_pow₀ (by norm_num)
    exact mul_pos (by linarith) (two_zpow_pos _)
  have habs : |signFactor neg * ((m : ℚ) * (2 : ℚ) ^ e)| = (m : ℚ) * (2 : ℚ) ^ e := by
    rw [abs_mul, abs_signFactor, one_mul, abs_of_nonneg (by positivity)]
  have hM : 0 ≤ (m : ℚ) * (2 : ℚ) ^ e := by positivity
  by_cases hm : m = 0
  · subst hm
    have hv := value_round_zero f neg e (by omega)
    have hr : (f.value (f.round neg 0 e)).toRat = 0 := by rw [hv]; simp [FloatVal.toRat]
    simp only [Nat.cast_zero, zero_mul, mul_zero] at habs ⊢
    refine ⟨fun h => absurd h (by linarith), fun h => absurd h (by linarith), fun _ => by rw [hv]; rfl, ?_, ?_⟩
    · intro _ c _
      rw [hr]
      simp
    · intro _ c _ hne h
      rw [hr] at h hne
      simp only [sub_zero, abs_zero, abs_eq_zero] at h
      exact absurd h hne
  · have hmpos : 0 < (m : ℚ) * (2 : ℚ) ^ e := by
      have : 0 < (m : ℚ) := by exact_mod_cast Nat.pos_of_ne_zero hm
      positivity
    have hiff := round_overflow f m e hm hE
    by_cases hfin : f.roundMag m e = f.infMag
    · have hbig : f.overflow ≤ (m : ℚ) * (2 : ℚ) ^ e := hiff.1 hfin
      have hinf := value_round_inf f neg m e hfin
      refine ⟨fun h => ?_, fun h => ?_, fun h => absurd h (by rw [habs]; linarith), fun h => absurd h (by rw [habs]; linarith),
        fun h => absurd h (by rw [habs]; linarith)⟩
      · cases neg
        · exact hinf
        · simp only [signFactor, if_true] at h
          linarith
      · cases neg
        · simp only [signFactor, Bool.false_eq_true, if_false] at h
          linarith
        · exact hinf
    · have hlt : f.roundMag m e < f.infMag := lt_of_le_of_ne (roundMag_le f m e) hfin
      have hsmall : (m : ℚ) * (2 : ℚ) ^ e < f.overflow := not_le.1 (fun h => hfin (hiff.2 h))
      refine ⟨fun h => ?_, fun h => ?_, fun _ => (value_round f neg m e hm hlt).1, fun _ c hc =>
        (round_nearest f neg m e hm hF hlt c hc).1, fun _ c hc hne h =>
        ((round_nearest f neg m e hm hF hlt c hc).2 h).resolve_left hne⟩
      · have := le_abs_self (signFactor neg * ((m : ℚ) * (2 : ℚ) ^ e))
        rw [habs] at this
        linarith
      · have := neg_abs_le (signFactor neg * ((m : ℚ) * (2 : ℚ) ^ e))
        rw [habs] at this
        linarith

end Sys2Proof.Machine
end

