-- ==== Sys2Proof/Laws/IntFloat.lean ====
section
/-! SUPPORT. Integers as floats and changes of float width: the ranges that make the exact steps of 43_convert.md rules R189
and R190 exact. -/

namespace Sys2Proof.Machine

/-- The exponent of a finite float has an upper end. -/
theorem value_exp_le (f : FloatFormat) (b : Nat) (neg : Bool) (m : Nat) (e : Int) (hE : 2 ≤ f.expBits)
    (h : f.value b = .finite neg m e) : e + f.fracBits ≤ 2 ^ (f.expBits - 1) - 1 := by
  have h2 : (2 : Nat) ^ f.expBits = 2 * 2 ^ (f.expBits - 1) := by
    rw [← pow_succ']
    congr 1
    omega
  have h4 : (2 : Nat) ^ 1 ≤ 2 ^ (f.expBits - 1) := Nat.pow_le_pow_right (by omega) (by omega)
  have hlt : b / 2 ^ f.fracBits % 2 ^ f.expBits < 2 ^ f.expBits := Nat.mod_lt _ (by positivity)
  have hz : ((2 ^ (f.expBits - 1) : Nat) : Int) = (2 : Int) ^ (f.expBits - 1) := by push_cast; rfl
  unfold FloatFormat.value at h
  simp only at h
  split at h
  · split at h <;> cases h
  · split at h
    · cases h
      unfold FloatFormat.minExp
      omega
    · rename_i h1 h3
      cases h
      unfold FloatFormat.expMax at h1
      unfold FloatFormat.minExp
      omega

/-- The number of a finite float, with its sign apart. -/
theorem toRat_signed (neg : Bool) (m : Nat) (e : Int) :
    (FloatVal.finite neg m e).toRat = signFactor neg * ((m : ℚ) * (2 : ℚ) ^ e) := rfl

/-- A positive integer rounds to a number that is at least 1. -/
theorem one_le_round_int (f : FloatFormat) (neg : Bool) (n : Nat) (hn : n ≠ 0) (hmin : f.minExp < -f.fracBits)
    (hfin : f.roundMag n 0 < f.infMag) : 1 ≤ |(f.value (f.round neg n 0)).toRat| := by
  have hl : -(f.fracBits : Int) ≤ f.lastPlace n 0 := by
    unfold FloatFormat.lastPlace
    exact le_trans (by omega) (le_max_right _ _)
  have hr := le_roundToUnit f n 0 hn (by omega)
  rw [(value_round f neg n 0 hn hfin).2, abs_mul, abs_signFactor, one_mul, abs_of_nonneg (by positivity)]
  have h1 : (2 : ℚ) ^ f.fracBits ≤ (roundToUnit n 0 (f.lastPlace n 0) : ℚ) := by exact_mod_cast hr
  have h2 : (2 : ℚ) ^ (-(f.fracBits : Int)) ≤ (2 : ℚ) ^ f.lastPlace n 0 := zpow_le_zpow_right₀ (by norm_num) hl
  calc (1 : ℚ) = (2 : ℚ) ^ f.fracBits * (2 : ℚ) ^ (-(f.fracBits : Int)) := by
        rw [zpow_neg, zpow_natCast, mul_inv_cancel₀ (by positivity)]
    _ ≤ _ := mul_le_mul h1 h2 (by positivity) (by positivity)

/-- A finite float that is at least 1 keeps its significand's last place from falling low. -/
theorem exp_of_one_le (f : FloatFormat) (m : Nat) (e : Int) (hm : m < 2 ^ (f.fracBits + 1))
    (h : 1 ≤ (m : ℚ) * (2 : ℚ) ^ e) : -(f.fracBits : Int) ≤ e := by
  by_contra hc
  have h1 : (m : ℚ) < 2 ^ (f.fracBits + 1) := by exact_mod_cast hm
  have h2 : (2 : ℚ) ^ e ≤ (2 : ℚ) ^ (-((f.fracBits : Int) + 1)) := zpow_le_zpow_right₀ (by norm_num) (by omega)
  have h3 : (m : ℚ) * (2 : ℚ) ^ e < 1 := by
    calc (m : ℚ) * (2 : ℚ) ^ e < 2 ^ (f.fracBits + 1) * (2 : ℚ) ^ e := by
          exact mul_lt_mul_of_pos_right h1 (two_zpow_pos e)
      _ ≤ 2 ^ (f.fracBits + 1) * (2 : ℚ) ^ (-((f.fracBits : Int) + 1)) := by gcongr
      _ = 1 := by
          rw [show -((f.fracBits : Int) + 1) = -((f.fracBits + 1 : Nat) : Int) by push_cast; ring, zpow_neg, zpow_natCast,
            mul_inv_cancel₀ (by positivity)]
  linarith

/-- An integer up to 64 bits does not overflow binary64. -/
theorem int_roundMag_lt (n : Nat) (hn : n ≠ 0) (h : n ≤ 2 ^ 63) : binary64.roundMag n 0 < binary64.infMag := by
  refine lt_of_le_of_ne (roundMag_le _ _ _) (fun he => ?_)
  have h1 := (round_overflow binary64 n 0 hn (by decide)).1 he
  have h2 : (n : ℚ) ≤ 9223372036854775808 := by exact_mod_cast h
  have h4 : (2 : ℚ) ^ (20 : Int) ≤ (2 : ℚ) ^ (binary64.minExp + (2 ^ binary64.expBits - 3)) :=
    zpow_le_zpow_right₀ (by norm_num) (by decide)
  simp only [show binary64.fracBits = 52 from rfl, zpow_zero, mul_one] at h1
  norm_num at h1 h4
  linarith

/-- `rnd64` of an integer up to 64 bits: a finite binary64 number, from which every scaling by `2^-k`, `k < 64`, is exact. -/
theorem intRound64_spec (x : Int) (h : |x| ≤ 2 ^ 63) :
    binary64.Rounds x (binary64.round (decide (x < 0)) x.natAbs 0) ∧
      ∃ neg m e, intRound64 x = .finite neg m e ∧ ∀ k : Nat, k < 64 →
        (binary64.value (binary64.round neg m (e - k))).isFinite = true ∧
        (binary64.value (binary64.round neg m (e - k))).toRat = (intRound64 x).toRat / 2 ^ k := by
  have hsign : signFactor (decide (x < 0)) * (((x.natAbs : Nat) : ℚ) * (2 : ℚ) ^ (0 : Int)) = x := by
    have hc : ((x.natAbs : Nat) : ℚ) = ((|x| : Int) : ℚ) := by rw [← Int.natCast_natAbs, Int.cast_natCast]
    rw [hc, zpow_zero, mul_one]
    by_cases hx : x < 0
    · rw [abs_of_neg hx]
      simp [signFactor, hx]
    · rw [abs_of_nonneg (by omega)]
      simp [signFactor, hx]
  refine ⟨hsign ▸ round_rounds binary64 _ _ 0 (by decide) (by decide), ?_⟩
  by_cases hx : x = 0
  · subst hx
    refine ⟨false, 0, binary64.minExp, by rw [intRound64]; exact value_round_zero binary64 false 0 (by decide), ?_⟩
    intro k _
    rw [value_round_zero binary64 false _ (by decide)]
    rw [intRound64]
    rw [show binary64.round (decide ((0 : Int) < 0)) (Int.natAbs 0) 0 = binary64.round false 0 0 from rfl,
      value_round_zero binary64 false _ (by decide)]
    simp [FloatVal.isFinite, FloatVal.toRat]
  · have hn : x.natAbs ≠ 0 := by omega
    have hfin := int_roundMag_lt x.natAbs hn (by zify; exact h)
    obtain ⟨hf, -⟩ := value_round binary64 (decide (x < 0)) x.natAbs 0 hn hfin
    have hone := one_le_round_int binary64 (decide (x < 0)) x.natAbs hn (by decide) hfin
    rw [intRound64]
    generalize hb : binary64.round (decide (x < 0)) x.natAbs 0 = b at *
    cases hv : binary64.value b with
    | nan => rw [hv] at hf; cases hf
    | inf neg => rw [hv] at hf; cases hf
    | finite neg m e =>
      refine ⟨neg, m, e, rfl, ?_⟩
      intro k hk
      obtain ⟨hm, -⟩ := value_finite_form binary64 b neg m e hv
      have hup := value_exp_le binary64 b neg m e (by decide) hv
      rw [hv, toRat_signed, abs_mul, abs_signFactor, one_mul, abs_of_nonneg (by positivity)] at hone
      have hlow := exp_of_one_le binary64 m e hm hone
      have hmin : binary64.minExp = -1074 := by decide
      have hfb : (binary64.fracBits : Int) = 52 := rfl
      obtain ⟨h1, h2⟩ := value_round_exact binary64 neg m (e - k) m (e - k) (by decide) hm (by rw [hmin]; omega)
        (by omega) rfl
      refine ⟨h1, ?_⟩
      rw [h2, toRat_signed, zpow_sub₀ (by norm_num), zpow_natCast]
      ring

end Sys2Proof.Machine
end

