-- ==== Sys2Proof/Laws/Invariant.lean ====
section
/-! SUPPORT. What each kind of state change does to the invariant of Safety.lean: one lemma per change, for the proof that a step
keeps it. -/

namespace Sys2Proof.Machine

theorem resolveOk_formats (s t : State) (h1 : t.inFmt = s.inFmt) (h2 : t.outFmt = s.outFmt) : resolveOk t = resolveOk s := by
  rw [resolveOk, resolveOk, h1, h2]

theorem raise_inv (s : State) (f : BlockFault) (h : s.Inv) (hf : f.code ∈ [1, 2, 3, 4, 5]) : (s.raise f).Inv where
  ibWf := h.ibWf
  obWf := h.obWf
  inFmtLegal := h.inFmtLegal
  outFmtLegal := h.outFmtLegal
  fcodeClear := fun h => by cases h
  finfoClear := fun h => by cases h
  fcodeNamed := fun _ => hf
  resolvedValid := h.resolvedValid
  resolvedOrErr := h.resolvedOrErr

theorem ofCommand_code {f : BlockFault} (h : f.ofCommand) : f.code ∈ [1, 2, 3, 4, 5] := List.mem_cons_of_mem _ h

/-- A change of registers, cursors, counters, lengths, pending actions or canonical buffers. -/
theorem inv_of_same_config (s t : State) (h : s.Inv) (hib : t.ib.wf = true) (hob : t.ob.wf = true) (h1 : t.inFmt = s.inFmt)
    (h2 : t.outFmt = s.outFmt) (h3 : t.status = s.status) (h4 : t.finfo = s.finfo) : t.Inv where
  ibWf := hib
  obWf := hob
  inFmtLegal := by rw [h1]; exact h.inFmtLegal
  outFmtLegal := by rw [h2]; exact h.outFmtLegal
  fcodeClear := by rw [h3]; exact h.fcodeClear
  finfoClear := by rw [h3, h4]; exact h.finfoClear
  fcodeNamed := by rw [h3]; exact h.fcodeNamed
  resolvedValid := by rw [h3, resolveOk_formats s t h1 h2]; exact h.resolvedValid
  resolvedOrErr := by rw [h3]; exact h.resolvedOrErr

theorem dataEffect_inv (s t : State) (h : s.Inv) (he : DataEffect s t) : t.Inv :=
  inv_of_same_config s t h (by rw [he.eq]; exact h.ibWf) (he.wf h.obWf) (by rw [he.eq]) (by rw [he.eq]) (by rw [he.eq])
    (by rw [he.eq])

theorem batchEffect_inv (s t : State) (h : s.Inv) (he : BatchEffect s t) : t.Inv :=
  inv_of_same_config s t h (by rw [he.eq]; exact h.ibWf) (he.wf h.obWf) (by rw [he.eq]) (by rw [he.eq]) (by rw [he.eq])
    (by rw [he.eq])

theorem resolve_inv (s : State) (h : s.Inv) : (resolve s).Inv where
  ibWf := h.ibWf
  obWf := h.obWf
  inFmtLegal := h.inFmtLegal
  outFmtLegal := h.outFmtLegal
  fcodeClear := h.fcodeClear
  finfoClear := h.finfoClear
  fcodeNamed := h.fcodeNamed
  resolvedValid := fun hr => hr
  resolvedOrErr := fun hr => by
    show (!resolveOk s) = false
    rw [show resolveOk s = true from hr]
    rfl

/-- A command keeps the invariant. -/
theorem exec_inv (i : Instr) (s t : State) (h : s.Inv) (he : exec i s = .next t) : t.Inv := by
  by_cases h1 : i = .rslv
  · subst h1
    cases he
    exact resolve_inv s h
  · by_cases h2 : i = .batch
    · subst h2
      obtain ⟨hb, -⟩ | ⟨u, hu, -, hb | ⟨f, hb, hf⟩⟩ := batch_cases s
      · rw [hb] at he
        cases he
        exact resolve_inv s h
      · rw [hb] at he
        cases he
        exact batchEffect_inv _ _ (resolve_inv s h) hu
      · rw [hb] at he
        cases he
        exact raise_inv _ f (batchEffect_inv _ _ (resolve_inv s h) hu) (ofCommand_code hf)
    · obtain ⟨f, hb, hf⟩ | ⟨u, hb, hu⟩ := data_command_cases i s h1 h2
      · rw [hb] at he
        cases he
        exact raise_inv _ f h (ofCommand_code hf)
      · rw [hb] at he
        cases he
        exact dataEffect_inv s _ h hu

/-! ## Host actions -/

theorem legalFormat_legal (v : Word) : legalFormatCode (legalFormat v) = true := by
  have key : ∀ c : BitVec 7, legalFormatCode (formatCode (WireFormat.ofCode? c)) = true := by decide
  exact key _

theorem clearResolved_inv (s t : State) (h : s.Inv) (hib : t.ib = s.ib) (hob : t.ob = s.ob) (h1 : legalFormatCode t.inFmt = true)
    (h2 : legalFormatCode t.outFmt = true) (h3 : t.status = { s.status with resolved := false }) (h4 : t.finfo = s.finfo) :
    t.Inv where
  ibWf := by rw [hib]; exact h.ibWf
  obWf := by rw [hob]; exact h.obWf
  inFmtLegal := h1
  outFmtLegal := h2
  fcodeClear := by rw [h3]; exact h.fcodeClear
  finfoClear := by rw [h3, h4]; exact h.finfoClear
  fcodeNamed := by rw [h3]; exact h.fcodeNamed
  resolvedValid := fun hr => by rw [h3] at hr; cases hr
  resolvedOrErr := fun hr => by rw [h3] at hr; cases hr

theorem hostWrite_inv (s : State) (v : Word) (r : HostReg) (h : s.Inv) : (hostWrite s v r).Inv := by
  cases r with
  | inFmt => exact clearResolved_inv s _ h rfl rfl (legalFormat_legal v) h.outFmtLegal rfl rfl
  | outFmt => exact clearResolved_inv s _ h rfl rfl h.inFmtLegal (legalFormat_legal v) rfl rfl
  | _ => exact inv_of_same_config s _ h h.ibWf h.obWf rfl rfl rfl rfl

theorem platformReset_inv (s : State) (h : s.Inv) : s.platformReset.Inv where
  ibWf := h.ibWf
  obWf := h.obWf
  inFmtLegal := rfl
  outFmtLegal := rfl
  fcodeClear := fun _ => rfl
  finfoClear := fun _ => rfl
  fcodeNamed := fun hr => by cases hr
  resolvedValid := fun hr => by cases hr
  resolvedOrErr := fun hr => by cases hr

theorem hostRegAt_cmd (o : BitVec 8) : hostRegAt o = .cmd ↔ o = 0 := by
  revert o
  decide

/-- What a host register write does, by register: the command port runs the engine, every other register is written. -/
theorem hostWriteAt_cases (o : BitVec 8) (v : Word) (s : State) :
    (o = 0 ∧ hostWriteAt o v s = writeCmd v s) ∨
      (o ≠ 0 ∧ hostWriteAt o v s = .next (hostWrite s v (hostRegAt o))) := by
  by_cases h0 : o = 0
  · subst h0
    exact .inl ⟨rfl, rfl⟩
  · have hr : hostRegAt o ≠ .cmd := fun h => h0 ((hostRegAt_cmd o).1 h)
    exact .inr ⟨h0, by simp only [hostWriteAt]⟩

/-- No host register write enters or leaves the halted state (60_exceptions.md rule R253). -/
@[simp] theorem hostWrite_halted (s : State) (v : Word) (r : HostReg) : (hostWrite s v r).halted = s.halted := by
  cases r <;> rfl

/-- A host access to an offset outside the register map: a read gives 0 and a write is ignored (10_state.md rule R39). -/
theorem hostAccess_reserved (o : BitVec 8) (v : Word) (s : State) (h : hostRegAt o = .reserved) :
    hostReadAt o s = .next (s.setHostData 0) ∧ hostWriteAt o v s = .next s := by
  simp only [hostReadAt, hostWriteAt, h, hostRead, hostWrite, and_self]

/-- What a CMD write does: nothing while halted, a recorded IllegalCommand, or the decoded instruction. -/
theorem writeCmd_cases (v : Word) (s : State) :
    (s.halted = true ∧ writeCmd v s = .next s) ∨
      (s.halted = false ∧ (∃ e, decode (v.setWidth 32) = .error e) ∧
        writeCmd v s = .next (s.raise (.illegalCommand (v.setWidth 32)))) ∨
      (s.halted = false ∧ ∃ i, decode (v.setWidth 32) = .ok i ∧ writeCmd v s = exec i s) := by
  cases h : s.halted
  · refine .inr ?_
    cases hd : decode (v.setWidth 32) with
    | error e => exact .inl ⟨rfl, ⟨e, rfl⟩, by simp [writeCmd, h, runCommand, hd]⟩
    | ok i => exact .inr ⟨rfl, i, rfl, by simp [writeCmd, h, runCommand, hd]⟩
  · exact .inl ⟨rfl, by simp [writeCmd, h]⟩

theorem writeCmd_inv (v : Word) (s t : State) (h : s.Inv) (hw : writeCmd v s = .next t) : t.Inv := by
  obtain ⟨-, e⟩ | ⟨-, -, e⟩ | ⟨-, i, -, e⟩ := writeCmd_cases v s
  · rw [e] at hw
    cases hw
    exact h
  · rw [e] at hw
    cases hw
    exact raise_inv _ _ h (by simp [BlockFault.code])
  · exact exec_inv i s t h (e ▸ hw)

end Sys2Proof.Machine
end

