-- ==== Sys2Proof/Laws/PerInstr.lean ====
section
/-! SUPPORT. Per-instruction family EncodedRow: the word of a well-formed instruction decodes by the operand fields of the
instruction's own row of the opcode table (30_encoding.md rule R91). -/

namespace Sys2Proof.Laws.EncodedRow

/-- The word of `i` selects the row of `i`, and no other row before it. -/
def Statement (i : Instr) : Prop := i.wellFormed = true → decode (encode i) = decodeOperands i.op (encode i)

theorem ard (rd : VReg) : Statement (.ard rd) := fun _ =>
  have := rd.code.isLt
  decode_of_fields .ard _ (by simp only [encode, toNat_formA, rowSpan, Op.opcode]; norm_num; omega)
    (by simp only [encode, toNat_formA, rowSpan, Op.opcode]; norm_num; omega)

theorem awr (rs : VReg) : Statement (.awr rs) := fun _ =>
  have := rs.code.isLt
  decode_of_fields .awr _ (by simp only [encode, toNat_formA, rowSpan, Op.opcode]; norm_num; omega)
    (by simp only [encode, toNat_formA, rowSpan, Op.opcode]; norm_num; omega)

theorem urd (len : Nat) (rd : VReg) : Statement (.urd len rd) := fun h =>
  have := rd.code.isLt
  have hl : len ≤ 8 := (legalLength_iff len).1 h
  decode_of_fields .urd _ (by simp only [encode, toNat_formU _ _ _ (show len < 16 by omega), rowSpan, Op.opcode]; norm_num; omega)
    (by simp only [encode, toNat_formU _ _ _ (show len < 16 by omega), rowSpan, Op.opcode]; norm_num; omega)

theorem uwr (len : Nat) (rs : VReg) : Statement (.uwr len rs) := fun h =>
  have := rs.code.isLt
  have hl : len ≤ 8 := (legalLength_iff len).1 h
  decode_of_fields .uwr _ (by simp only [encode, toNat_formU _ _ _ (show len < 16 by omega), rowSpan, Op.opcode]; norm_num; omega)
    (by simp only [encode, toNat_formU _ _ _ (show len < 16 by omega), rowSpan, Op.opcode]; norm_num; omega)

theorem s2u (depth : Nat) (rd rs : VReg) : Statement (.s2u depth rd rs) := fun h =>
  have := rd.code.isLt
  have := rs.code.isLt
  have hd : 8 ≤ depth ∧ depth ≤ 64 := legalDepth_lt h
  decode_of_fields .s2u _ (by simp only [encode, toNat_formS _ _ _ _ (show depth < 128 by omega), rowSpan, Op.opcode]; norm_num; omega)
    (by simp only [encode, toNat_formS _ _ _ _ (show depth < 128 by omega), rowSpan, Op.opcode]; norm_num; omega)

theorem u2s (depth : Nat) (rd rs : VReg) : Statement (.u2s depth rd rs) := fun h =>
  have := rd.code.isLt
  have := rs.code.isLt
  have hd : 8 ≤ depth ∧ depth ≤ 64 := legalDepth_lt h
  decode_of_fields .u2s _ (by simp only [encode, toNat_formS _ _ _ _ (show depth < 128 by omega), rowSpan, Op.opcode]; norm_num; omega)
    (by simp only [encode, toNat_formS _ _ _ _ (show depth < 128 by omega), rowSpan, Op.opcode]; norm_num; omega)

theorem unpk (fmt : WireFormat) (rd : VReg) : Statement (.unpk fmt rd) := fun _ =>
  have := rd.code.isLt
  have := fmt.code.isLt
  decode_of_fields .unpk _ (by simp only [encode, toNat_formP, rowSpan, Op.opcode]; norm_num; omega)
    (by simp only [encode, toNat_formP, rowSpan, Op.opcode]; norm_num; omega)

theorem pack (fmt : WireFormat) (rs : VReg) : Statement (.pack fmt rs) := fun _ =>
  have := rs.code.isLt
  have := fmt.code.isLt
  decode_of_fields .pack _ (by simp only [encode, toNat_formP, rowSpan, Op.opcode]; norm_num; omega)
    (by simp only [encode, toNat_formP, rowSpan, Op.opcode]; norm_num; omega)

theorem cvt (src dst : Encoding) (rd rs : VReg) : Statement (.cvt src dst rd rs) := fun _ =>
  have := rd.code.isLt
  have := rs.code.isLt
  have := src.code.isLt
  have := dst.code.isLt
  decode_of_fields .cvt _ (by simp only [encode, toNat_formV, rowSpan, Op.opcode]; norm_num; omega)
    (by simp only [encode, toNat_formV, rowSpan, Op.opcode]; norm_num; omega)

theorem rslv : Statement .rslv := fun _ => decode_of_fields .rslv _ (by decide) (by decide)

theorem batch : Statement .batch := fun _ => decode_of_fields .batch _ (by decide) (by decide)

end Sys2Proof.Laws.EncodedRow
end

