-- ==== Sys2Proof/Tests/Slice0.lean ====
section
/-! SUPPORT. Tests: ill-formed terms refused, every constructor decoded from a word written out from the spec's encoding, one
or two steps per command with the results the spec's examples give, and for every statement of
Certificates/Slice0/Obligations.lean that has hypotheses a witness that meets them. -/

namespace Sys2Proof.Tests
open Sys2Proof.Machine

/-! ## Well-formedness -/

/-- `len` is at most 8 (rule R94). -/
theorem test_length_nine_refused :
    (Instr.urd 9 .v0).wellFormed = false ∧ (Instr.uwr 9 .v0).wellFormed = false := by decide

/-- A depth outside the set is illegal (rule R94). -/
theorem test_depth_seventeen_refused :
    (Instr.s2u 17 .v0 .v1).wellFormed = false ∧ (Instr.u2s 17 .v0 .v1).wellFormed = false := by decide

/-- The ends of the legal ranges. -/
theorem test_range_ends_well_formed :
    (Instr.urd 0 .v0).wellFormed = true ∧ (Instr.uwr 8 .v3).wellFormed = true ∧
      (Instr.s2u 8 .v0 .v1).wellFormed = true ∧ (Instr.u2s 64 .v3 .v3).wellFormed = true := by decide

/-! ## Decoding: words written out bit by bit from rules R80 to R91 -/

/-- `00001 0000 01` and 21 zeros: ARD v1. -/
theorem test_decode_ard : decode 0b00001000001000000000000000000000 = .ok (.ard .v1) := rfl

/-- `00010 0000 11` and 21 zeros: AWR v3. -/
theorem test_decode_awr : decode 0b00010000011000000000000000000000 = .ok (.awr .v3) := rfl

/-- `00011 0100 10` and 21 zeros: URD 4, v2. -/
theorem test_decode_urd : decode 0b00011010010000000000000000000000 = .ok (.urd 4 .v2) := rfl

/-- `00100 0011 10` and 21 zeros: UWR 3, v2. -/
theorem test_decode_uwr : decode 0b00100001110000000000000000000000 = .ok (.uwr 3 .v2) := rfl

/-- `00101 0010000 01 00` and 16 zeros: S2U 16, v1, v0. -/
theorem test_decode_s2u : decode 0b00101001000001000000000000000000 = .ok (.s2u 16 .v1 .v0) := rfl

/-- `00110 0001000 01 00` and 16 zeros: U2S 8, v1, v0. -/
theorem test_decode_u2s : decode 0b00110000100001000000000000000000 = .ok (.u2s 8 .v1 .v0) := rfl

/-- `00111 00101 01 00` and 18 zeros: UNPK s18_be, v0. -/
theorem test_decode_unpk : decode 0b00111001010100000000000000000000 = .ok (.unpk ⟨.s18, .big⟩ .v0) := rfl

/-- `01000 00101 01 00` and 18 zeros: PACK s18_be, v0. -/
theorem test_decode_pack : decode 0b01000001010100000000000000000000 = .ok (.pack ⟨.s18, .big⟩ .v0) := rfl

/-- `01001 11001 00011 01 00` and 13 zeros: CVT f32, s16, v1, v0. -/
theorem test_decode_cvt : decode 0b01001110010001101000000000000000 = .ok (.cvt .f32 .s16 .v1 .v0) := rfl

/-- `01010` and 27 zeros: RSLV. -/
theorem test_decode_rslv : decode 0b01010000000000000000000000000000 = .ok .rslv := rfl

/-- `01011` and 27 zeros: BATCH. -/
theorem test_decode_batch : decode 0b01011000000000000000000000000000 = .ok .batch := rfl

/-- The rejections of rules R92 to R94, by name. -/
theorem test_decode_rejects :
    decode 0x00000000 = .error (.reservedOpcode 0) ∧ decode 0x60000000 = .error (.reservedOpcode 12) ∧
      decode 0x08000001 = .error .reservedBits ∧ decode 0x1C800000 = .error (.badLength 9) ∧
      decode 0x29100000 = .error (.badDepth 17) ∧ decode 0x38700000 = .error (.badFormat 7) ∧
      decode 0x48760000 = .error (.badEncoding 1 27) := ⟨rfl, rfl, rfl, rfl, rfl, rfl, rfl⟩

/-- The numbering of the opcode table is the word's own. -/
theorem test_decode_table_word :
    decodeTableWord 32 0x41500000 = some (.pack ⟨.s18, .big⟩ .v0) ∧ decodeTableWord 32 0 = none := by decide

/-- The syntax of rule R98 with the words of its examples. -/
theorem test_assemble :
    assemble "URD" ["4", "v2"] = some 0x1A400000 ∧
      assemble "CVT" ["f32", "s16", "v1", "v0"] = some 0x4E468000 ∧
      assemble "URD" ["9", "v2"] = none ∧ parseFormat "s24_4le" = some ⟨.s24_4, .little⟩ := by decide

/-! ## One step -/

/-- Bytes from index `a` on, as a buffer in canonical form. -/
def bytesFrom : Nat → List Nat → Memory
  | _, [] => []
  | a, b :: rest => if b = 0 then bytesFrom (a + 1) rest else (a, BitVec.ofNat 8 b) :: bytesFrom (a + 1) rest

/-- The first `n` bytes of a buffer. -/
def firstBytes (m : Memory) (n : Nat) : List Nat := (List.range n).map (fun a => (m.read a).toNat)

/-- A block with the given buffers, V0 and V1 written, V2 and V3 not. -/
def block (ib ob : List Nat) (v0 v1 : Word) : State where
  regs := ⟨⟨v0, true⟩, ⟨v1, true⟩, ⟨0, false⟩, ⟨0, false⟩⟩
  ibo := 0
  obo := 0
  n := 0
  cnt := 0
  ibLen := BitVec.ofNat 61 ib.length
  obLen := BitVec.ofNat 61 ob.length
  inFmt := 0
  outFmt := 0
  status := ⟨false, false, false, 0⟩
  finfo := 0
  ib := bytesFrom 0 ib
  ob := bytesFrom 0 ob
  pending := []
  hostData := 0
  resets := 0

/-- The next state of an outcome. -/
def after (o : Host.Outcome State Fault Refusal) : Option State :=
  match o with
  | .next t => some t
  | .fault _ => none
  | .refused _ => none

/-- Two steps. -/
def andThen (o : Option State) (i : Instr) : Option State :=
  match o with
  | some s => after (exec i s)
  | none => none

/-- The example of rule R124. -/
theorem test_ard : (after (exec (.ard .v0) { block [0xA5, 0x3C] [] 0 0 with ibo := 8 })).map
    (fun t => (t.v .v0, t.ibo)) = some (0x3C, 16) := by decide

/-- The example of rule R125. -/
theorem test_awr : (after (exec (.awr .v1) (block [] [0xFF, 0xFF] 0 0x1234))).map
    (fun t => (firstBytes t.ob 2, t.obo)) = some ([0x34, 0xFF], 8) := by decide

/-- The example of rule R126: a field over two bytes. -/
theorem test_urd : (after (exec (.urd 4 .v2) { block [0xB4, 0x80] [] 0 0 with ibo := 6 })).map
    (fun t => (t.v .v2, t.ibo)) = some (2, 10) := by decide

/-- The example of rule R127, its first command. -/
theorem test_uwr : (after (exec (.uwr 3 .v0) (block [] [0xFF, 0xFF] 5 0x1F))).map
    (fun t => (firstBytes t.ob 2, t.obo)) = some ([0xA0, 0xFF], 3) := by decide

/-- The example of rule R127, its second command: an entered byte is ORed into, a spill byte is assigned whole. -/
theorem test_uwr_spill : (andThen (after (exec (.uwr 3 .v0) (block [] [0xFF, 0xFF] 5 0x1F))) (.uwr 7 .v1)).map
    (fun t => (firstBytes t.ob 2, t.obo)) = some ([0xA7, 0xC0], 10) := by decide

/-- The example of rule R143. -/
theorem test_s2u : (after (exec (.s2u 16 .v1 .v0) (block [] [] (-2) 0))).map (fun t => t.v .v1) = some 0x7FFE := by
  decide

/-- The example of rule R144, with 0x7F beside it. -/
theorem test_u2s :
    (after (exec (.u2s 8 .v2 .v0) (block [] [] 0x80 0x7F))).map (fun t => t.v .v2) = some 0 ∧
      (after (exec (.u2s 8 .v2 .v1) (block [] [] 0x80 0x7F))).map (fun t => t.v .v2) = some (-1) := by decide

/-- The example of rule R158: -2 in s18_3be. -/
theorem test_unpk : (after (exec (.unpk ⟨.s18_3, .big⟩ .v0) (block [0x03, 0xFF, 0xFE] [] 0 0))).map
    (fun t => (t.v .v0, t.ibo)) = some (-2, 24) := by decide

/-- The example of rule R159, big-endian. -/
theorem test_pack_big :
    (after (exec (.pack ⟨.s18, .big⟩ .v0) (block [] [0xAA, 0xAA, 0xAA, 0xAA] 0x12345 0))).map
      (fun t => (firstBytes t.ob 4, t.obo)) = some ([0x48, 0xD1, 0x40, 0xAA], 18) := by decide

/-- The example of rule R159, little-endian. -/
theorem test_pack_little :
    (after (exec (.pack ⟨.s18, .little⟩ .v0) (block [] [0xAA, 0xAA, 0xAA, 0xAA] 0x12345 0))).map
      (fun t => firstBytes t.ob 4) = some [0x45, 0x23, 0x40, 0xAA] := by decide

/-- 1.0 clips to the largest s16 (rule R187). -/
theorem test_cvt_clips : (after (exec (.cvt .f32 .s16 .v1 .v0) (block [] [] 0x3F800000 0))).map
    (fun t => t.v .v1) = some 0x7FFF := by decide

/-- The double rounding of rule R189 (95_test_vectors.md). -/
theorem test_cvt_rounds_twice :
    (after (exec (.cvt .s64 .f32 .v1 .v0) (block [] [] 0x4000004000000001 0))).map (fun t => t.v .v1) =
      some 0x3F000000 := by decide

/-- f32_le to s16_be, both valid (rule R221). -/
theorem test_rslv : (after (exec .rslv { block [] [] 0 0 with inFmt := 0x66, outFmt := 0x0D })).map
    (fun t => t.status.word) = some 2 := by decide

/-- Program P3 of 95_test_vectors.md. -/
theorem test_batch :
    (after (exec .batch { block [0, 0, 0x80, 0x3F, 0, 0, 0x80, 0xBF, 0, 0, 0, 0x3F] [0, 0, 0, 0, 0, 0] 0 0 with
      inFmt := 0x66, outFmt := 0x0D, n := 3 })).map (fun t => (firstBytes t.ob 6, t.cnt, t.ibo, t.obo)) =
      some ([0x7F, 0xFF, 0x80, 0x00, 0x40, 0x00], 3, 96, 48) := by decide

/-- s16_be to f32_le with room for one sample (95_test_vectors.md): BoundsFaultOB at sample 1. -/
theorem test_batch_fault :
    (after (exec .batch { block [0x40, 0, 0xC0, 0] [0, 0, 0, 0, 0, 0] 0 0 with
      inFmt := 0x0D, outFmt := 0x66, n := 2 })).map (fun t => (t.status.word, t.finfo, t.cnt, t.ibo)) =
      some (0x53, 32, 1, 16) := by decide

/-- A command placed from reset runs in the next step (log 1). -/
theorem test_first_command :
    (after (step (State.reset.withFetchWord 32 0x50000000))).map (fun t => t.status.word) = some 4 := by decide

/-- The all-zero word raises IllegalCommand (rule R92). -/
theorem test_illegal_command :
    (after (step (State.reset.withFetchWord 32 0))).map (fun t => (t.status.word, t.finfo)) = some (0x11, 0) := by
  decide

/-- An offset that is no multiple of 8 is outside the map: it reads 0 and a write is ignored (rule R39). -/
theorem test_unmapped_offset :
    (after (perform (.readReg 0xA1) { block [] [] 7 0 with hostData := 5 })).map (fun t => t.hostData) = some 0 ∧
      after (perform (.writeReg 0x81 9) (block [] [] 7 0)) = some (block [] [] 7 0) := by decide

/-! ## Witnesses: for every statement with hypotheses, states and operands that meet all of them, each clause at a boundary of
its range -/

theorem not_outside (b len bytes : Nat) (h : 1 ≤ len) (hb : (b + len - 1) / 8 < bytes) : ¬ spanOutside b len bytes := by
  rw [spanOutside_iff b len bytes h]
  omega

theorem is_outside (b len bytes : Nat) (h : 1 ≤ len) (hb : bytes ≤ (b + len - 1) / 8) : spanOutside b len bytes :=
  (spanOutside_iff b len bytes h).mpr hb

/-- Four bytes in each buffer, V0 and V1 written. -/
def four : State := block [0x80, 0x01, 0xFF, 0x7F] [0xFF, 0x00, 0xA0, 0x00] 0xFFFFFFFFFFFFFF80 0x7F

theorem witness_DecodeInvertsEncode :
    (Instr.urd 0 .v0).wellFormed = true ∧ (Instr.uwr 8 .v3).wellFormed = true ∧
      (Instr.s2u 8 .v0 .v3).wellFormed = true ∧ (Instr.u2s 64 .v3 .v0).wellFormed = true ∧
      (Instr.cvt .s8 .f64 .v0 .v3).wellFormed = true := by decide

theorem witness_EncodeInvertsDecode : decode 0x22600000 = .ok (.uwr 4 .v3) ∧ decode 0x4E800000 ≠ .ok .rslv :=
  ⟨rfl, by intro h; cases h⟩

/-- One word for each condition of rules R92 to R94, at the edge of its range. -/
theorem witness_DecodeRejectsExactlyIllegalWords :
    reservedOpcode 0x00000000 ∧ reservedOpcode 0x60000000 ∧ reservedOpcode 0xF8000000 ∧
      reservedBitSet 0x08000001 ∧ reservedBitSet 0x14000000 ∧ reservedBitSet 0x18100000 ∧ reservedBitSet 0x28008000 ∧
      reservedBitSet 0x40D20000 ∧ reservedBitSet 0x48421000 ∧ reservedBitSet 0x54000000 ∧
      illegalField 0x1C800000 ∧ illegalField 0x28700000 ∧ illegalField 0x3EC00000 ∧ illegalField 0x38700000 ∧
      illegalField 0x48020000 ∧ illegalField 0x48760000 ∧ ¬ illegalWord 0x1C000000 ∧ ¬ illegalWord 0x3EA00000 := by
  refine ⟨?_, ?_, ?_, ?_, ?_, ?_, ?_, ?_, ?_, ?_, ?_, ?_, ?_, ?_, ?_, ?_, ?_, ?_⟩ <;>
    (try unfold illegalWord) <;> (try unfold reservedOpcode) <;> (try unfold reservedBitSet) <;>
    (try unfold illegalField) <;> (try unfold badEncodingCode) <;> decide

theorem witness_IllegalWordRaisesIllegalCommand :
    four.halted = false ∧ illegalWord ((0xFFFFFFFF60000000 : Word).setWidth 32) := by
  refine ⟨rfl, .inl ?_⟩
  simp only [reservedOpcode]
  decide

theorem witness_OpcodeAloneSelectsCommand : decode 0x58000000 = .ok .batch := rfl

theorem witness_StepRunsDecodedCommand :
    let s := { four with pending := [.writeReg 0x00 0x08200000] }
    s.pending = .writeReg 0x00 0x08200000 :: [] ∧ s.halted = false ∧
      decode ((0x08200000 : Word).setWidth 32) = .ok (.ard .v1) := ⟨rfl, rfl, rfl⟩

theorem witness_PlacedCommandRunsNext : (Instr.urd 8 .v3).wellFormed = true ∧ four.halted = false := by decide

theorem witness_HaltedBlockIgnoresCommands :
    let h : State := { four with status := ⟨true, false, false, 1⟩ }
    h.halted = true ∧ (0x01 : BitVec 8) ≠ 0 ∧ (0xFF : BitVec 8) ≠ 0 ∧
      (∃ t, perform (.writeReg 0x00 0x58000000) h = .next t) ∧ ∃ t, perform .reset h = .next t :=
  ⟨rfl, by decide, by decide, ⟨_, rfl⟩, ⟨_, rfl⟩⟩

theorem witness_HostWriteStoresTruncatedValue :
    ∀ o ∈ [(0x01 : BitVec 8), 0x08, 0x10, 0x30, 0x58, 0x78, 0x99, 0xA0, 0xA1, 0xFF],
      o.toNat ∉ [0x00, 0x18, 0x20, 0x28, 0x38, 0x40, 0x48, 0x50, 0x80, 0x88, 0x90, 0x98] := by decide

theorem witness_FormatWriteStoresOnlyLegalCodes :
    let legal (w : Word) := (1 ≤ bitField w.toNat 6 2 ∧ bitField w.toNat 6 2 ≤ 26) ∧ bitField w.toNat 1 0 ≤ 2
    legal 0x04 ∧ legal 0x6A ∧ legal 0xFFFFFFFFFFFFFFEA ∧ ¬ legal 0x03 ∧ ¬ legal 0x6B ∧ ¬ legal 0x6C := by decide

theorem witness_HostReadReturnsRegister :
    ∀ o ∈ [(0x01 : BitVec 8), 0x07, 0x61, 0x68, 0x78, 0x7F, 0x81, 0x99, 0xA0, 0xA1, 0xFF],
      o.toNat ∉ [0x00, 0x08, 0x10, 0x18, 0x20, 0x28, 0x30, 0x38, 0x40, 0x48, 0x50, 0x58, 0x60, 0x80, 0x88, 0x90, 0x98] := by
  decide

theorem witness_EveryStepAnswersNext : four.pending = [] := rfl

theorem witness_HostSetsOneBufferByte : (1 : Nat) ≠ (0 : BitVec 61).toNat ∧ 0 ≠ (0x1FFFFFFFFFFFFFFF : BitVec 61).toNat := by
  decide

theorem witness_TraitsWordFields :
    WireFormat.ofCode? 0x00 = none ∧ WireFormat.ofCode? 0x03 = none ∧ WireFormat.ofCode? 0x6B = none ∧
      WireFormat.ofCode? 0x6C = none ∧ WireFormat.ofCode? 0x7F = none := by decide

theorem witness_inv : State.Inv { four with pending := [.writeReg 0x28 7] } where
  ibWf := by decide
  obWf := by decide
  inFmtLegal := by decide
  outFmtLegal := by decide
  fcodeClear := by decide
  finfoClear := by decide
  fcodeNamed := by decide
  resolvedValid := by decide
  resolvedOrErr := by decide

theorem witness_StepKeepsInvariant :
    let s := { four with pending := [.writeReg 0x28 7] }
    s.Inv ∧ ∃ t, step s = .next t ∧ t.n = 7 := ⟨witness_inv, _, rfl, by decide⟩

theorem witness_OnlyResetClearsFaultAndWrittenFlags :
    let s := { four with status := ⟨true, false, false, 1⟩, finfo := 5 }
    (∃ t, perform (.writeReg 0x28 7) s = .next t) ∧ HostAction.writeReg 0x28 7 ≠ .reset ∧ s.status.fault = true ∧
      s.vw .v0 = true := ⟨⟨_, rfl⟩, by decide, rfl, rfl⟩

theorem witness_CommandsLeaveHostStateAlone : (∃ t, exec (.ard .v0) four = .next t) ∧ Instr.ard .v0 ≠ .batch :=
  ⟨⟨_, rfl⟩, by decide⟩

/-- Each of the four codes is raised somewhere. -/
theorem witness_FaultingCommandChangesOnlyFaultFields :
    ∀ p ∈ [(Instr.awr .v2, four, (2 : BitVec 4)), (.ard .v0, { four with ibo := 1 }, 3),
        (.ard .v0, { four with ibo := 32 }, 4), (.awr .v0, { four with obo := 32 }, 5)],
      p.1 ≠ .batch ∧ p.2.1.halted = false ∧
        (after (exec p.1 p.2.1)).map (fun t => (t.halted, t.status.fcode)) = some (true, p.2.2) := by decide

theorem witness_UnwrittenSourceRaises :
    four.vw .v2 = false ∧
      ∀ i ∈ [Instr.awr .v2, .uwr 0 .v2, .s2u 8 .v0 .v2, .u2s 64 .v0 .v2, .pack ⟨.s18, .big⟩ .v2, .cvt .s8 .f64 .v0 .v2],
        (after (exec i four)).map (fun t => t.finfo) = some 2 := by decide

theorem witness_UnalignedCursorRaisesAlignFault :
    classOf .s16 = .aligned ∧ { four with ibo := 1 }.ibo.toNat % 8 ≠ 0 ∧ { four with obo := 7 }.obo.toNat % 8 ≠ 0 ∧
      { four with obo := 7 }.vw .v0 = true := by decide

theorem witness_ReadOutsideBufferRaises :
    { four with ibo := 32 }.ibo.toNat % 8 = 0 ∧ spanOutside { four with ibo := 32 }.ibo.toNat 8 four.ibLen.toNat ∧
      spanOutside { four with ibo := 32 }.ibo.toNat 1 four.ibLen.toNat ∧
      spanOutside { four with ibo := 25 }.ibo.toNat 8 four.ibLen.toNat ∧
      spanOutside { four with ibo := 24 }.ibo.toNat (widthOf .s16) four.ibLen.toNat ∧
      classOf .s18 ≠ .aligned ∧ spanOutside { four with ibo := 15 }.ibo.toNat (widthOf .s18) four.ibLen.toNat :=
  ⟨by decide, is_outside _ _ _ (by decide) (by decide), is_outside _ _ _ (by decide) (by decide),
    is_outside _ _ _ (by decide) (by decide), is_outside _ _ _ (by decide) (by decide), by decide,
    is_outside _ _ _ (by decide) (by decide)⟩

theorem witness_WriteOutsideBufferRaises :
    four.vw .v0 = true ∧
      { four with obo := 32 }.obo.toNat % 8 = 0 ∧ spanOutside { four with obo := 32 }.obo.toNat 8 four.obLen.toNat ∧
      spanOutside { four with obo := 32 }.obo.toNat 1 four.obLen.toNat ∧
      spanOutside { four with obo := 25 }.obo.toNat 8 four.obLen.toNat ∧
      spanOutside { four with obo := 24 }.obo.toNat (widthOf .s16) four.obLen.toNat ∧
      classOf .s18 ≠ .aligned ∧ spanOutside { four with obo := 15 }.obo.toNat (widthOf .s18) four.obLen.toNat :=
  ⟨by decide, by decide, is_outside _ _ _ (by decide) (by decide), is_outside _ _ _ (by decide) (by decide),
    is_outside _ _ _ (by decide) (by decide), is_outside _ _ _ (by decide) (by decide), by decide,
    is_outside _ _ _ (by decide) (by decide)⟩

theorem witness_ArdReadsOctet :
    { four with ibo := 24 }.ibo.toNat % 8 = 0 ∧ { four with ibo := 24 }.ibo.toNat / 8 < four.ibLen.toNat := by decide

theorem witness_AwrWritesOctet :
    four.vw .v0 = true ∧ { four with obo := 24 }.obo.toNat % 8 = 0 ∧
      { four with obo := 24 }.obo.toNat / 8 < four.obLen.toNat := by decide

/-- The empty field at the end of IB, and a full one that ends there. -/
theorem witness_UrdReadsField :
    0 ≤ 8 ∧ (0 ≠ 0 → ¬ spanOutside { four with ibo := 32 }.ibo.toNat 0 four.ibLen.toNat) ∧
      8 ≤ 8 ∧ ¬ spanOutside { four with ibo := 24 }.ibo.toNat 8 four.ibLen.toNat :=
  ⟨by decide, fun h => absurd rfl h, le_refl _, not_outside _ _ _ (by decide) (by decide)⟩

theorem witness_UwrWritesField :
    four.vw .v0 = true ∧ 0 ≤ 8 ∧ (0 ≠ 0 → ¬ spanOutside { four with obo := 32 }.obo.toNat 0 four.obLen.toNat) ∧
      8 ≤ 8 ∧ ¬ spanOutside { four with obo := 24 }.obo.toNat 8 four.obLen.toNat ∧
      ¬ spanOutside { four with obo := 7 }.obo.toNat 8 four.obLen.toNat :=
  ⟨by decide, by decide, fun h => absurd rfl h, le_refl _, not_outside _ _ _ (by decide) (by decide),
    not_outside _ _ _ (by decide) (by decide)⟩

theorem witness_AlignedAndUnalignedPrimitivesAgree :
    four.obo.toNat % 8 = 0 ∧ four.ibo.toNat % 8 = 0 ∧ { four with obo := 23 }.obo.toNat % 8 ≠ 0 ∧
      ¬ spanOutside { four with obo := 23 }.obo.toNat 8 four.obLen.toNat ∧ { four with ibo := 1 }.ibo.toNat % 8 ≠ 0 ∧
      ¬ spanOutside { four with ibo := 1 }.ibo.toNat 8 four.ibLen.toNat :=
  ⟨by decide, by decide, by decide, not_outside _ _ _ (by decide) (by decide), by decide,
    not_outside _ _ _ (by decide) (by decide)⟩

/-- OBO = 19 stands inside byte 2 of OB, 0xA0, whose bits from there on are 0. -/
def inside : State := { block [] [0xFF, 0x00, 0xA0, 0x00, 0x00] 0xFFFFFFFFFFFFFF80 0x7F with obo := 19 }

theorem inside_passClean : inside.passClean := by
  intro _ p h1 h2
  have h1' : 19 ≤ p := h1
  have h2' : p / 8 = 2 := h2
  have h3 : p ≤ 23 := by omega
  clear h1 h2 h2'
  interval_cases p <;> decide

theorem witness_PassKeepsUnwrittenBitsZero :
    four.obo.toNat % 8 = 0 ∧ inside.passClean ∧ 8 ≤ 8 ∧
      (∃ t, exec (.uwr 8 .v0) inside = .next t ∧ t.halted = false) ∧
      (∃ t, exec (.pack ⟨.s18, .big⟩ .v0) inside = .next t ∧ t.halted = false) ∧
      ∃ t, exec (.awr .v0) four = .next t ∧ t.halted = false :=
  ⟨by decide, inside_passClean, le_refl _, ⟨_, rfl, by decide⟩, ⟨_, rfl, by decide⟩, ⟨_, rfl, by decide⟩⟩

/-- Both ends of the signed and the unsigned range of depth 8. -/
theorem witness_OffsetBinaryCode :
    8 ∈ [8, 16, 18, 20, 24, 32, 64] ∧ 64 ∈ [8, 16, 18, 20, 24, 32, 64] ∧
      (-2 ^ (8 - 1) ≤ (-128 : Int) ∧ (-128 : Int) ≤ 2 ^ (8 - 1) - 1) ∧
      (-2 ^ (8 - 1) ≤ (127 : Int) ∧ (127 : Int) ≤ 2 ^ (8 - 1) - 1) ∧ 0 ≤ 2 ^ 8 - 1 ∧ 255 ≤ 2 ^ 8 - 1 := by decide

theorem witness_SignConverterInvertsTopBit :
    8 ∈ [8, 16, 18, 20, 24, 32, 64] ∧ 64 ∈ [8, 16, 18, 20, 24, 32, 64] ∧ four.vw .v0 = true ∧ 63 < 64 := by decide

theorem witness_ExtendMasksAndExtends : 17 < depthOf .s18 ∧ ¬ 18 < depthOf .s18 ∧ 63 < 64 := by decide

theorem witness_UnpkReadsSample :
    (classOf .s32 = .aligned → four.ibo.toNat % 8 = 0) ∧ ¬ spanOutside four.ibo.toNat (widthOf .s32) four.ibLen.toNat ∧
      (classOf .s18 = .aligned → { four with ibo := 14 }.ibo.toNat % 8 = 0) ∧
      ¬ spanOutside { four with ibo := 14 }.ibo.toNat (widthOf .s18) four.ibLen.toNat :=
  ⟨by decide, not_outside _ _ _ (by decide) (by decide), by decide, not_outside _ _ _ (by decide) (by decide)⟩

theorem witness_PackWritesSample :
    four.vw .v0 = true ∧ (classOf .s18 = .aligned → { four with obo := 14 }.obo.toNat % 8 = 0) ∧
      ¬ spanOutside { four with obo := 14 }.obo.toNat (widthOf .s18) four.obLen.toNat ∧ 17 < widthOf .s18 ∧
      (13 < 14 ∧ 14 / 8 ≤ 13 / 8 ∧ 13 / 8 ≤ (14 + 18 - 1) / 8) ∧
      (14 + 20 ≤ 34 ∧ 14 / 8 ≤ 34 / 8 ∧ 34 / 8 ≤ (14 + 20 - 1) / 8) ∧ 0 < 14 / 8 ∧ (14 + 18 - 1) / 8 < 4 :=
  ⟨by decide, by decide, not_outside _ _ _ (by decide) (by decide), by decide, by decide, by decide, by decide, by decide⟩

/-- The most negative s8 value, packed as s18_be inside a byte, and an IB that holds the packed bytes. -/
theorem witness_PackUnpackRoundTrip :
    ∃ t, exec (.pack ⟨.s18, .big⟩ .v0) inside = .next t ∧
      inside.vw .v0 = true ∧ canonical .s18 (inside.v .v0) ∧ inside.passClean ∧
      (classOf .s18 = .aligned → inside.obo.toNat % 8 = 0) ∧
      ¬ spanOutside inside.obo.toNat (widthOf .s18) inside.obLen.toNat ∧
      let u := { inside with ibo := 19, ibLen := 5, ib := t.ob }
      u.ibo = inside.obo ∧ ¬ spanOutside u.ibo.toNat (widthOf .s18) u.ibLen.toNat ∧
        ∀ a, 19 / 8 ≤ a → a ≤ (19 + 18 - 1) / 8 → u.ib.read a = t.ob.read a :=
  ⟨_, rfl, by decide, by unfold canonical; decide, inside_passClean, by decide,
    not_outside _ _ _ (by decide) (by decide), rfl, not_outside _ _ _ (by decide) (by decide), fun _ _ _ => rfl⟩

theorem witness_PaddingIsZeroOnTheWire :
    depthOf .s24_4 < widthOf .s24_4 ∧ (∃ t, exec (.pack ⟨.s24_4, .little⟩ .v0) four = .next t ∧ t.halted = false) ∧
      four.halted = false ∧ depthOf .s24_4 ≤ 24 ∧ 31 < widthOf .s24_4 :=
  ⟨by decide, ⟨_, rfl, by decide⟩, by decide, by decide, by decide⟩

theorem witness_EndianSwapReversesOctets :
    classOf .s24_4 = .aligned ∧ classOf .s8 = .aligned ∧ four.ibo.toNat % 8 = 0 ∧ four.obo.toNat % 8 = 0 ∧
      ¬ spanOutside four.ibo.toNat (widthOf .s24_4) four.ibLen.toNat ∧
      ¬ spanOutside four.obo.toNat (widthOf .s24_4) four.obLen.toNat ∧ 3 < widthOf .s24_4 / 8 ∧ 7 < 8 :=
  ⟨by decide, by decide, by decide, by decide, not_outside _ _ _ (by decide) (by decide),
    not_outside _ _ _ (by decide) (by decide), by decide, by decide⟩

theorem witness_CvtWritesConvertedValue :
    four.vw .v1 = true ∧ (0xFF7F : Word).toNat % 2 ^ depthOf .s8 = (four.v .v1).toNat % 2 ^ depthOf .s8 := by decide

theorem witness_IntegerConversionRescales :
    isInteger .s24 = true ∧ isInteger .u24_4 = true ∧ isInteger .s8 = true ∧ depthOf .s24 ≤ depthOf .u24_4 ∧
      depthOf .s8 < depthOf .s24 := by decide

theorem witness_RescaleEquivalences :
    8 ∈ signDepths ∧ 16 ∈ signDepths ∧ (-2 ^ (8 - 1) ≤ (-128 : Int) ∧ (127 : Int) ≤ 2 ^ (8 - 1) - 1) ∧ 8 ≤ 8 ∧ 8 < 16 ∧
      isInteger .s18 = true ∧ kindOf .s18 = kindOf .s18_4 ∧ depthOf .s18 = depthOf .s18_4 := by decide

/-- The most negative s8 against u16. -/
theorem witness_WideningIsLossless :
    isInteger .s8 = true ∧ isInteger .u16 = true ∧ depthOf .s8 < depthOf .u16 ∧ canonical .s8 0xFFFFFFFFFFFFFF80 := by
  unfold canonical
  decide

/-- A NaN, both infinities, and finite values that clip at either end and that do not. -/
theorem witness_FloatToIntegerClipsAndTruncates :
    isInteger .f32 = false ∧ isInteger .s16 = true ∧ binary32.value 0x7FC00000 = .nan ∧
      binary32.value 0x7F800000 = .inf false ∧ binary32.value 0xFF800000 = .inf true ∧
      (binary32.value 0x3F800000).isFinite = true ∧ (binary32.value 0x3F800000).toRat = 1 ∧
      (binary32.value 0xBF800000).toRat = -1 ∧ (binary32.value 0x00000000).toRat = 0 := by
  have h1 : binary32.value 0x3F800000 = .finite false 8388608 (-23) := by decide
  have h2 : binary32.value 0xBF800000 = .finite true 8388608 (-23) := by decide
  have h3 : binary32.value 0x00000000 = .finite false 0 (-149) := by decide
  rw [h1, h2, h3]
  refine ⟨by decide, by decide, by decide, by decide, by decide, rfl, ?_, ?_, ?_⟩ <;> norm_num [FloatVal.toRat]

theorem witness_IntegerToFloatRoundsTwice :
    isInteger .s64 = true ∧ isInteger .u32 = true ∧ depthOf .u32 ≤ 53 ∧ ¬ depthOf .s64 ≤ 53 := by decide

/-- Of either width: a NaN, an infinity and a zero. -/
theorem witness_FloatWidthChange :
    binary32.value ((0x7FC00000 : Word).toNat % 2 ^ 32) = .nan ∧
      binary32.value ((0xFF800000 : Word).toNat % 2 ^ 32) = .inf true ∧
      binary32.value ((0x80000000 : Word).toNat % 2 ^ 32) = .finite true 0 (-149) ∧
      binary64.value (0x7FF8000000000000 : Word).toNat = .nan ∧
      binary64.value (0x7FF0000000000000 : Word).toNat = .inf false ∧
      binary64.value (0x8000000000000000 : Word).toNat = .finite true 0 (-1074) := by decide

theorem witness_SameEncodingIsIdentity : isInteger .s18 = true ∧ canonical .s18 0xFFFFFFFFFFFE0000 := by
  unfold canonical
  decide

theorem witness_RslvRecordsValidity :
    legalFormatCode four.inFmt = true ∧ legalFormatCode { four with outFmt := 0x6A }.outFmt = true := by decide

theorem witness_BatchWithInvalidFormat :
    four.inFmt = 0 ∧ { four with inFmt := 0x06 }.outFmt = 0 := by decide

/-- s8 to s16_be, two samples, with room for both in the four bytes of OB. -/
def batchable : State := { four with inFmt := 0x05, outFmt := 0x0D, n := 2 }

theorem batchable_fits : ∀ i, i < batchable.n.toNat → batchable.sampleFits ⟨.s8, .big⟩ ⟨.s16, .big⟩ i := by
  intro i hi
  have hi' : i < 2 := hi
  clear hi
  interval_cases i <;>
    exact ⟨not_outside _ _ _ (by decide) (by decide), not_outside _ _ _ (by decide) (by decide)⟩

theorem witness_BatchConvertsEverySample :
    batchable.inFmt = WireFormat.code ⟨.s8, .big⟩ ∧ batchable.outFmt = WireFormat.code ⟨.s16, .big⟩ ∧
      (∀ i, i < batchable.n.toNat → batchable.sampleFits ⟨.s8, .big⟩ ⟨.s16, .big⟩ i) ∧ 1 < batchable.n.toNat :=
  ⟨by decide, by decide, batchable_fits, by decide⟩

/-- Room for both samples, and for one less than three. -/
theorem witness_BatchFaultsExactlyWhenUndersized :
    batchable.halted = false ∧ batchable.inFmt = WireFormat.code ⟨.s8, .big⟩ ∧
      batchable.outFmt = WireFormat.code ⟨.s16, .big⟩ ∧
      (batchBytes 2 (widthOf .s16) ≤ batchable.obLen.toNat ∧ ¬ batchBytes 3 (widthOf .s16) ≤ batchable.obLen.toNat) := by
  decide

/-- The footprint's clauses: a byte past it, the trailing bits of three s18 samples, and an IB with another byte 2. -/
theorem witness_BatchFootprint :
    (∃ t, exec .batch batchable = .next t ∧ t.halted = false) ∧ batchBytes 2 (widthOf .s16) ≤ 4 ∧
      (3 * widthOf .s18 ≤ 54 ∧ 55 < 8 * batchBytes 3 (widthOf .s18)) ∧
      ∀ a, a < batchBytes 2 (widthOf .s8) → (batchable.ib.write 2 0).read a = batchable.ib.read a := by
  refine ⟨⟨_, rfl, by decide⟩, by decide, by decide, fun a ha => ?_⟩
  have ha' : a < 2 := ha
  clear ha
  interval_cases a <;> decide

/-- Sample 2 of three is the first that does not fit: past OB, and past IB. -/
theorem witness_BatchFaultIsPrecise :
    let s := { batchable with n := 3 }
    let r := { batchable with n := 3, ibLen := 2 }
    2 < s.n.toNat ∧ (∀ i, i < 2 → s.sampleFits ⟨.s8, .big⟩ ⟨.s16, .big⟩ i) ∧
      ¬ s.sampleFits ⟨.s8, .big⟩ ⟨.s16, .big⟩ 2 ∧ ¬ spanOutside (2 * widthOf .s8) (widthOf .s8) s.ibLen.toNat ∧
      (∀ i, i < 2 → r.sampleFits ⟨.s8, .big⟩ ⟨.s16, .big⟩ i) ∧
      spanOutside (2 * widthOf .s8) (widthOf .s8) r.ibLen.toNat ∧ batchBytes 2 (widthOf .s16) ≤ 4 := by
  refine ⟨by decide, ?_, ?_, not_outside _ _ _ (by decide) (by decide), ?_, is_outside _ _ _ (by decide) (by decide),
    by decide⟩
  · intro i hi
    interval_cases i <;>
      exact ⟨not_outside _ _ _ (by decide) (by decide), not_outside _ _ _ (by decide) (by decide)⟩
  · exact fun h => h.2 (is_outside _ _ _ (by decide) (by decide))
  · intro i hi
    interval_cases i <;>
      exact ⟨not_outside _ _ _ (by decide) (by decide), not_outside _ _ _ (by decide) (by decide)⟩

/-- Two blocks that differ in V0, OB and the cursors. -/
theorem witness_BatchIsStateless :
    let s' := { batchable with ob := [(0, 9)], ibo := 5, obo := 7, regs := (block [] [] 1 2).regs }
    s'.inFmt = batchable.inFmt ∧ s'.outFmt = batchable.outFmt ∧ s'.n = batchable.n ∧ batchable.halted = false ∧
      s'.halted = false ∧ (∀ a, s'.ib.read a = batchable.ib.read a) ∧
      (∃ t, exec .batch batchable = .next t ∧ t.halted = false) ∧ ∃ t, exec .batch s' = .next t ∧ t.halted = false :=
  ⟨rfl, rfl, rfl, by decide, by decide, fun _ => rfl, ⟨_, rfl, by decide⟩, ⟨_, rfl, by decide⟩⟩

theorem witness_BatchIgnoresSampleRegisters : ∃ t, exec .batch batchable = .next t := ⟨_, rfl⟩

theorem witness_BatchOfNoSamples :
    let s := { batchable with n := 0, ibLen := 0, obLen := 0 }
    s.inFmt = WireFormat.code ⟨.s8, .big⟩ ∧ s.outFmt = WireFormat.code ⟨.s16, .big⟩ ∧ s.n = 0 := by decide

end Sys2Proof.Tests
end

section
/-! PROOFS. One step of the machine, and the machine invariant: every host action keeps it, so every step does
(10_state.md rules R26 to R28). -/

namespace Sys2Proof.Machine

theorem step_idle (s : State) (h : s.pending = []) : step s = .next s := by
  rw [step, nextAction, h]

theorem step_pending (s : State) (a : HostAction) (rest : List HostAction) (h : s.pending = a :: rest) :
    step s = perform a (s.setPending rest) := by
  rw [step, nextAction, h]

theorem hostWriteAt_inv (o : BitVec 8) (v : Word) (s t : State) (h : s.Inv) (hw : hostWriteAt o v s = .next t) : t.Inv := by
  obtain ⟨-, e⟩ | ⟨-, e⟩ := hostWriteAt_cases o v s
  · exact writeCmd_inv v s t h (e ▸ hw)
  · rw [e] at hw
    cases hw
    exact hostWrite_inv s v _ h

theorem setPending_inv (s : State) (l : List HostAction) (h : s.Inv) : (s.setPending l).Inv :=
  inv_of_same_config s _ h h.ibWf h.obWf rfl rfl rfl rfl

/-- Every host action keeps the invariant. -/
theorem perform_inv (a : HostAction) (s t : State) (h : s.Inv) (hp : perform a s = .next t) : t.Inv := by
  cases a with
  | writeReg o v => exact hostWriteAt_inv o v s t h hp
  | readReg o =>
    cases hp
    exact inv_of_same_config s _ h h.ibWf h.obWf rfl rfl rfl rfl
  | writeIB i b =>
    cases hp
    exact inv_of_same_config s _ h (Memory.wf_write _ _ _ h.ibWf) h.obWf rfl rfl rfl rfl
  | writeOB i b =>
    cases hp
    exact inv_of_same_config s _ h h.ibWf (Memory.wf_write _ _ _ h.obWf) rfl rfl rfl rfl
  | reset =>
    cases hp
    exact platformReset_inv s h

/-- Settles O21: a step is idle or performs one host action, and every host action keeps the invariant. -/
theorem stepKeepsInvariant : Obligations.StepKeepsInvariant := by
  unfold Obligations.StepKeepsInvariant
  intro s t h hs
  cases hp : s.pending with
  | nil =>
    rw [step_idle s hp] at hs
    cases hs
    exact h
  | cons a rest =>
    rw [step_pending s a rest hp] at hs
    exact perform_inv a _ t (setPending_inv s rest h) hs

end Sys2Proof.Machine
end

section
/-! PROOFS. Decoding of encoded words: every operand field of a well-formed instruction's word is read back
(30_encoding.md rules R85 to R91). -/

namespace Sys2Proof

/-- Every instruction's word selects the instruction's own row. -/
theorem encodedRow (i : Instr) : Laws.EncodedRow.Statement i := by
  cases i with
  | ard rd => exact Laws.EncodedRow.ard rd
  | awr rs => exact Laws.EncodedRow.awr rs
  | urd len rd => exact Laws.EncodedRow.urd len rd
  | uwr len rs => exact Laws.EncodedRow.uwr len rs
  | s2u depth rd rs => exact Laws.EncodedRow.s2u depth rd rs
  | u2s depth rd rs => exact Laws.EncodedRow.u2s depth rd rs
  | unpk fmt rd => exact Laws.EncodedRow.unpk fmt rd
  | pack fmt rs => exact Laws.EncodedRow.pack fmt rs
  | cvt src dst rd rs => exact Laws.EncodedRow.cvt src dst rd rs
  | rslv => exact Laws.EncodedRow.rslv
  | batch => exact Laws.EncodedRow.batch

theorem formA_reg (op : Op) (r : VReg) : VReg.ofCode ((encodeFormA op r).extractLsb' 21 2) = r :=
  ofCode_extract _ _ _ (by have := r.code.isLt; rw [toNat_formA]; omega)

theorem decodeFormU_formU (mk : Nat → VReg → Instr) (op : Op) (len : Nat) (r : VReg) (h : legalLength len = true) :
    decodeFormU mk (encodeFormU op len r) = .ok (mk len r) := by
  have hl := (legalLength_iff len).1 h
  have hr := r.code.isLt
  have hlen : ((encodeFormU op len r).extractLsb' 23 4).toNat = len := by
    rw [extract_toNat, toNat_formU _ _ _ (by omega)]
    omega
  have hreg : VReg.ofCode ((encodeFormU op len r).extractLsb' 21 2) = r :=
    ofCode_extract _ _ _ (by rw [toNat_formU _ _ _ (by omega)]; omega)
  rw [decodeFormU, hlen, hreg, if_pos h]

theorem decodeFormS_formS (mk : Nat → VReg → VReg → Instr) (op : Op) (d : Nat) (rd rs : VReg) (h : legalDepth d = true) :
    decodeFormS mk (encodeFormS op d rd rs) = .ok (mk d rd rs) := by
  have hd := legalDepth_lt h
  have h1 := rd.code.isLt
  have h2 := rs.code.isLt
  have hdep : ((encodeFormS op d rd rs).extractLsb' 20 7).toNat = d := by
    rw [extract_toNat, toNat_formS _ _ _ _ (by omega)]
    omega
  have hrd : VReg.ofCode ((encodeFormS op d rd rs).extractLsb' 18 2) = rd :=
    ofCode_extract _ _ _ (by rw [toNat_formS _ _ _ _ (by omega)]; omega)
  have hrs : VReg.ofCode ((encodeFormS op d rd rs).extractLsb' 16 2) = rs :=
    ofCode_extract _ _ _ (by rw [toNat_formS _ _ _ _ (by omega)]; omega)
  rw [decodeFormS, hdep, hrd, hrs, if_pos h]

theorem decodeFormP_formP (mk : WireFormat → VReg → Instr) (op : Op) (f : WireFormat) (r : VReg) :
    decodeFormP mk (encodeFormP op f r) = .ok (mk f r) := by
  have h1 := f.code.isLt
  have h2 := r.code.isLt
  have hfmt : (encodeFormP op f r).extractLsb' 20 7 = f.code :=
    BitVec.eq_of_toNat_eq (by rw [extract_toNat, toNat_formP]; omega)
  have hreg : VReg.ofCode ((encodeFormP op f r).extractLsb' 18 2) = r :=
    ofCode_extract _ _ _ (by rw [toNat_formP]; omega)
  rw [decodeFormP, hfmt, formatOfCode_code, hreg]

theorem decodeFormV_formV (mk : Encoding → Encoding → VReg → VReg → Instr) (op : Op) (src dst : Encoding) (rd rs : VReg) :
    decodeFormV mk (encodeFormV op src dst rd rs) = .ok (mk src dst rd rs) := by
  have h1 := src.code.isLt
  have h2 := dst.code.isLt
  have h3 := rd.code.isLt
  have h4 := rs.code.isLt
  have hsrc : (encodeFormV op src dst rd rs).extractLsb' 22 5 = src.code :=
    BitVec.eq_of_toNat_eq (by rw [extract_toNat, toNat_formV]; omega)
  have hdst : (encodeFormV op src dst rd rs).extractLsb' 17 5 = dst.code :=
    BitVec.eq_of_toNat_eq (by rw [extract_toNat, toNat_formV]; omega)
  have hrd : VReg.ofCode ((encodeFormV op src dst rd rs).extractLsb' 15 2) = rd :=
    ofCode_extract _ _ _ (by rw [toNat_formV]; omega)
  have hrs : VReg.ofCode ((encodeFormV op src dst rd rs).extractLsb' 13 2) = rs :=
    ofCode_extract _ _ _ (by rw [toNat_formV]; omega)
  rw [decodeFormV, hsrc, hdst, encodingOfCode_code, encodingOfCode_code, hrd, hrs]

theorem decodeOperands_encode (i : Instr) (h : i.wellFormed = true) : decodeOperands i.op (encode i) = .ok i := by
  cases i with
  | ard rd => exact congrArg (fun r => Except.ok (Instr.ard r)) (formA_reg .ard rd)
  | awr rs => exact congrArg (fun r => Except.ok (Instr.awr r)) (formA_reg .awr rs)
  | urd len rd => exact decodeFormU_formU .urd .urd len rd h
  | uwr len rs => exact decodeFormU_formU .uwr .uwr len rs h
  | s2u depth rd rs => exact decodeFormS_formS .s2u .s2u depth rd rs h
  | u2s depth rd rs => exact decodeFormS_formS .u2s .u2s depth rd rs h
  | unpk fmt rd => exact decodeFormP_formP .unpk .unpk fmt rd
  | pack fmt rs => exact decodeFormP_formP .pack .pack fmt rs
  | cvt src dst rd rs => exact decodeFormV_formV .cvt .cvt src dst rd rs
  | rslv => rfl
  | batch => rfl

/-- The decoder reads every well-formed instruction back from its word (30_encoding.md rules R85 to R91). -/
theorem decode_encode (i : Instr) (h : i.wellFormed = true) : decode (encode i) = .ok i := by
  rw [encodedRow i h, decodeOperands_encode i h]

end Sys2Proof
end

section
/-! PROOFS. The way of a command word from the host's list through the CMD port to the engine (10_state.md rule R29). -/

namespace Sys2Proof.Machine

theorem perform_cmd_decoded (s : State) (v : Word) (i : Instr) (h : s.halted = false) (hd : decode (v.setWidth 32) = .ok i) :
    perform (.writeReg 0x00 v) s = exec i s := by
  show writeCmd v s = exec i s
  simp [writeCmd, h, runCommand, hd]

/-- Settles O10: the step lemma for a pending action, and the command port for a CMD write. -/
theorem stepRunsDecodedCommand : Obligations.StepRunsDecodedCommand := by
  unfold Obligations.StepRunsDecodedCommand
  intro s a rest hp
  refine ⟨step_pending s a rest hp, fun v i ha hh hd => ?_⟩
  rw [step_pending s a rest hp, ha]
  exact perform_cmd_decoded (s.setPending rest) v i hh hd

/-- A placed word is what the CMD write carries in its low 32 bits. -/
theorem placed_word (w : Command) : ((BitVec.ofNat 32 (w.toNat % 2 ^ 32)).setWidth 64).setWidth 32 = w := by
  apply BitVec.eq_of_toNat_eq
  have := w.isLt
  simp only [BitVec.toNat_setWidth, BitVec.toNat_ofNat]
  omega

/-- Settles O11: the placed CMD write is the next action, and the decoder reads the instruction back. -/
theorem placedCommandRunsNext : Obligations.PlacedCommandRunsNext := by
  unfold Obligations.PlacedCommandRunsNext
  intro s i hi hh
  rw [step_pending (s.withFetchWord 32 (encode i).toNat) _ _ rfl]
  exact perform_cmd_decoded s _ i hh (by rw [placed_word, decode_encode i hi])

end Sys2Proof.Machine
end

section
/-! PROOFS. The register map: what a host write stores at each offset, what a host read returns, and which codes a format register
takes (10_state.md rules R26 to R29, R39 and R40). -/

namespace Sys2Proof.Machine

/-! ## Format registers -/

/-- The valid format codes by their two fields (30_encoding.md rules R81 to R83). -/
theorem formatOfCode_isSome_iff (c : BitVec 7) :
    (WireFormat.ofCode? c).isSome = true ↔ (1 ≤ c.toNat / 4 ∧ c.toNat / 4 ≤ 26) ∧ c.toNat % 4 ≤ 2 := by
  revert c
  decide

theorem legalFormat_of_valid (v : Word) (h : (WireFormat.ofCode? (v.setWidth 7)).isSome = true) :
    legalFormat v = v.setWidth 7 := by
  obtain ⟨f, hf⟩ := Option.isSome_iff_exists.1 h
  rw [legalFormat, hf, formatCode, formatCode_of hf]

theorem legalFormat_of_invalid (v : Word) (h : ¬ (WireFormat.ofCode? (v.setWidth 7)).isSome = true) : legalFormat v = 0 := by
  rw [legalFormat, Option.not_isSome_iff_eq_none.1 h, formatCode]

/-- Settles O14: the stored code is `legalFormat w`, whose test on the low seven bits is the rule's test on the fields of `w`. -/
theorem formatWriteStoresOnlyLegalCodes : Obligations.FormatWriteStoresOnlyLegalCodes := by
  unfold Obligations.FormatWriteStoresOnlyLegalCodes
  intro s w
  have hlow : (w.setWidth 7).toNat = w.toNat % 2 ^ 7 := BitVec.toNat_setWidth 7 w
  have hlegal : (WireFormat.ofCode? (w.setWidth 7)).isSome = true ↔
      (1 ≤ bitField w.toNat 6 2 ∧ bitField w.toNat 6 2 ≤ 26) ∧ bitField w.toNat 1 0 ≤ 2 := by
    rw [formatOfCode_isSome_iff, hlow, bitField, bitField]
    omega
  refine ⟨legalFormat w, fun h => ?_, fun h => legalFormat_of_invalid w (mt hlegal.1 h), rfl, rfl⟩
  rw [legalFormat_of_valid w (hlegal.2 h), hlow, bitField]
  omega

/-! ## Host writes and reads -/

/-- The registers whose writes are ignored: the read-only ones and the reserved offsets (10_state.md rules R39 and R40). -/
def HostReg.writeIgnored : HostReg → Bool
  | .status | .finfo | .cnt | .traitsIn | .traitsOut | .reserved => true
  | .cmd | .inFmt | .outFmt | .n | .ibo | .obo | .ibLen | .obLen | .v _ => false

theorem hostWrite_ignored (s : State) (v : Word) (r : HostReg) (h : r.writeIgnored = true) : hostWrite s v r = s := by
  cases r with
  | status | finfo | cnt | traitsIn | traitsOut | reserved => rfl
  | cmd | inFmt | outFmt | n | ibo | obo | ibLen | obLen | v _ => cases h

theorem hostRegAt_writeIgnored (o : BitVec 8)
    (h : o.toNat ∉ [0x00, 0x18, 0x20, 0x28, 0x38, 0x40, 0x48, 0x50, 0x80, 0x88, 0x90, 0x98]) :
    (hostRegAt o).writeIgnored = true := by
  revert o
  decide

theorem hostWriteAt_ignored (o : BitVec 8) (v : Word) (s : State) (h : (hostRegAt o).writeIgnored = true) :
    hostWriteAt o v s = .next s := by
  obtain ⟨rfl, -⟩ | ⟨-, e⟩ := hostWriteAt_cases o v s
  · cases h
  · rw [e, hostWrite_ignored s v _ h]

/-- Settles O13: each listed offset is its register's own update, and every other one is ignored. -/
theorem hostWriteStoresTruncatedValue : Obligations.HostWriteStoresTruncatedValue := by
  unfold Obligations.HostWriteStoresTruncatedValue
  intro s v
  exact ⟨rfl, rfl, rfl, rfl, rfl, rfl, rfl, rfl, rfl, fun o h => hostWriteAt_ignored o v s (hostRegAt_writeIgnored o h)⟩

theorem hostRegAt_reserved (o : BitVec 8)
    (h : o.toNat ∉ [0x00, 0x08, 0x10, 0x18, 0x20, 0x28, 0x30, 0x38, 0x40, 0x48, 0x50, 0x58, 0x60, 0x80, 0x88, 0x90, 0x98]) :
    hostRegAt o = .reserved := by
  revert o
  decide

/-- The bits of STATUS (10_state.md rule R27). -/
theorem statusWord_fields (t : Status) :
    t.word.getLsbD 0 = t.fault ∧ t.word.getLsbD 1 = t.resolved ∧ t.word.getLsbD 2 = t.cfgErr ∧
      t.word.extractLsb' 4 4 = t.fcode ∧ t.word.getLsbD 3 = false ∧ t.word.extractLsb' 8 56 = 0 := by
  simp (disch := omega) only [Status.word, bit1, BitVec.getLsbD_append, BitVec.extractLsb'_append_eq_of_add_le,
    BitVec.extractLsb'_append_eq_of_le]
  simp

/-- Settles O15: the register at each offset read by `hostRead`, and the bits of STATUS by its layout. -/
theorem hostReadReturnsRegister : Obligations.HostReadReturnsRegister := by
  unfold Obligations.HostReadReturnsRegister
  intro s
  exact ⟨rfl, rfl, rfl, rfl, rfl, rfl, rfl, rfl, rfl, rfl, rfl, rfl, rfl, rfl, rfl, rfl, rfl,
    fun o h => (hostAccess_reserved o 0 s (hostRegAt_reserved o h)).1, statusWord_fields s.status⟩

end Sys2Proof.Machine
end

section
/-! PROOFS. The traits of a wire format (10_state.md rules R30 to R38). -/

namespace Sys2Proof.Machine

/-! ## The layout of the word (rule R30) -/

theorem traitsWord_flags (t : Traits) :
    t.word.getLsbD 0 = t.isValid ∧ t.word.getLsbD 1 = t.isInteger ∧ t.word.getLsbD 2 = t.isSigned ∧
      t.word.getLsbD 3 = t.isLittle ∧ t.word.getLsbD 4 = t.isNative ∧ t.word.getLsbD 31 = false := by
  simp only [Traits.word, bit1, BitVec.getLsbD_append]
  simp

theorem traitsWord_numbers (t : Traits) :
    t.word.extractLsb' 5 3 = 0 ∧ t.word.extractLsb' 8 8 = BitVec.ofNat 8 t.bitDepth ∧
      t.word.extractLsb' 16 8 = BitVec.ofNat 8 t.bitWidth ∧ t.word.extractLsb' 24 7 = formatCode t.nativeAlias ∧
      t.word.extractLsb' 32 7 = formatCode t.portableAlias ∧ t.word.extractLsb' 39 25 = 0 := by
  simp (disch := omega) only [Traits.word, bit1, BitVec.extractLsb'_append_eq_of_add_le,
    BitVec.extractLsb'_append_eq_of_le]
  simp

/-! ## Traits of a format -/

theorem traitsWordAt_code (host : ByteOrder) (f : WireFormat) : traitsWordAt host f.code = (traitsAt host (some f)).word := by
  rw [traitsWordAt, formatOfCode_code]

theorem kindIsInteger_iff_code (e : Encoding) : kindIsInteger (kindOf e) = decide (e.code.toNat ≤ 24) := by
  cases e <;> rfl

theorem kindIsSigned_iff_code (e : Encoding) :
    kindIsSigned (kindOf e) = (decide (e.code.toNat % 2 = 1) || decide (25 ≤ e.code.toNat)) := by
  cases e <;> rfl

theorem toNat_explicitEndian_code (o : ByteOrder) : (explicitEndian o).code.toNat = if o = .big then 1 else 2 := by
  cases o <;> rfl

theorem toNat_nativeAlias (host : ByteOrder) (f : WireFormat) :
    (formatCode (traitsAt host (some f)).nativeAlias).toNat =
      if resolveEndianAt host f.endian = host then f.enc.code.toNat * 4 else 0 := by
  by_cases h : resolveEndianAt host f.endian = host
  · simp only [traitsAt, h, if_true, formatCode, toNat_formatCode]
    rfl
  · simp only [traitsAt, h, if_false, formatCode]
    rfl

theorem toNat_portableAlias (host : ByteOrder) (f : WireFormat) :
    (formatCode (traitsAt host (some f)).portableAlias).toNat =
      f.enc.code.toNat * 4 + if resolveEndianAt host f.endian = .big then 1 else 2 := by
  simp only [traitsAt, formatCode, toNat_formatCode, toNat_explicitEndian_code]

theorem traitsWordAt_invalid (host : ByteOrder) (c : BitVec 7) (h : WireFormat.ofCode? c = none) : traitsWordAt host c = 0 := by
  rw [traitsWordAt, h]
  cases host <;> decide

/-- Settles O18: the layout of the traits word, and each trait of a format in the terms of its codes. -/
theorem traitsWordFields : Obligations.TraitsWordFields := by
  unfold Obligations.TraitsWordFields
  refine ⟨fun host f => ?_, traitsWordAt_invalid, fun host => ⟨rfl, rfl, rfl⟩⟩
  have hd := depthOf_le f.enc
  have hw := widthOf_le f.enc
  obtain ⟨hvalid, hint, hsigned, hlittle, hnative, h31⟩ := traitsWord_flags (traitsAt host (some f))
  obtain ⟨h5, hdepth, hwidth, hnat, hport, h39⟩ := traitsWord_numbers (traitsAt host (some f))
  simp only [traitsWordAt_code]
  refine ⟨hvalid, ?_, ?_, hlittle, hnative, h5, ?_, ?_, ?_, h31, ?_, h39⟩
  · rw [hint, ← kindIsInteger_iff_code]
    rfl
  · rw [hsigned, ← kindIsSigned_iff_code]
    rfl
  · rw [hdepth]
    exact Nat.mod_eq_of_lt (show depthOf f.enc < 2 ^ 8 by omega)
  · rw [hwidth]
    exact Nat.mod_eq_of_lt (show widthOf f.enc < 2 ^ 8 by omega)
  · rw [hnat, toNat_nativeAlias]
  · rw [hport, toNat_portableAlias]

end Sys2Proof.Machine
end

section
/-! PROOFS. The frame of every command: what belongs to the host (10_state.md rules R24 to R26, 20_memory.md rule R60). -/

namespace Sys2Proof.Machine

/-- The state that only the host and the platform change: IB, N, the lengths, the formats and the model's own fields. -/
def hostSide (s : State) :
    Memory × BitVec 32 × BitVec 61 × BitVec 61 × BitVec 7 × BitVec 7 × List HostAction × Word × Nat :=
  (s.ib, s.n, s.ibLen, s.obLen, s.inFmt, s.outFmt, s.pending, s.hostData, s.resets)

@[simp] theorem hostSide_raise (s : State) (f : BlockFault) : hostSide (s.raise f) = hostSide s := rfl

@[simp] theorem hostSide_resolve (s : State) : hostSide (resolve s) = hostSide s := rfl

theorem hostSide_dataEffect {s t : State} (h : DataEffect s t) : hostSide t = hostSide s := by
  rw [h.eq]
  rfl

theorem hostSide_batchEffect {s t : State} (h : BatchEffect s t) : hostSide t = hostSide s := by
  rw [h.eq]
  rfl

theorem batch_hostSide (s t : State) (h : exec .batch s = .next t) : hostSide t = hostSide s := by
  obtain ⟨e, -⟩ | ⟨u, hu, -, e | ⟨f, e, -⟩⟩ := batch_cases s
  all_goals
    rw [e] at h
    cases h
  · rfl
  · exact (hostSide_batchEffect hu).trans (hostSide_resolve s)
  · exact (hostSide_raise u f).trans ((hostSide_batchEffect hu).trans (hostSide_resolve s))

/-- A command other than BATCH writes neither what belongs to the host nor CNT. -/
theorem exec_hostSide_cnt (i : Instr) (s t : State) (hb : i ≠ .batch) (h : exec i s = .next t) :
    hostSide t = hostSide s ∧ t.cnt = s.cnt := by
  by_cases hr : i = .rslv
  · subst hr
    cases h
    exact ⟨rfl, rfl⟩
  · obtain ⟨f, e, -⟩ | ⟨u, e, hu⟩ := data_command_cases i s hr hb
    all_goals
      rw [e] at h
      cases h
    · exact ⟨rfl, rfl⟩
    · exact ⟨hostSide_dataEffect hu, by rw [hu.eq]⟩

theorem exec_hostSide (i : Instr) (s t : State) (h : exec i s = .next t) : hostSide t = hostSide s := by
  by_cases hb : i = .batch
  · exact batch_hostSide s t (hb ▸ h)
  · exact (exec_hostSide_cnt i s t hb h).1

/-- Settles O23: the frame of every command, and CNT for all but BATCH. -/
theorem commandsLeaveHostStateAlone : Obligations.CommandsLeaveHostStateAlone := by
  unfold Obligations.CommandsLeaveHostStateAlone
  intro i s t h
  have hk := exec_hostSide i s t h
  simp only [hostSide, Prod.mk.injEq] at hk
  obtain ⟨hib, hn, hil, hol, hif, hof, hp, hd, hr⟩ := hk
  exact ⟨hib, hn, hil, hol, hif, hof, hp, hd, hr, fun hb => (exec_hostSide_cnt i s t hb h).2⟩

end Sys2Proof.Machine
end

section
/-! PROOFS. A command with an unwritten source register (10_state.md rule R21, 60_exceptions.md rules R251 to R254). -/

namespace Sys2Proof.Machine

/-- The commands that read a sample register, with the register each reads (10_state.md rule R21). -/
def sourceOf : Instr → Option VReg
  | .awr rs | .uwr _ rs | .s2u _ _ rs | .u2s _ _ rs | .pack _ rs | .cvt _ _ _ rs => some rs
  | .ard _ | .urd _ _ | .unpk _ _ | .rslv | .batch => none

/-- The written check comes before every other check of a command (60_exceptions.md rule R254). -/
theorem exec_unwritten (i : Instr) (r : VReg) (s : State) (hi : sourceOf i = some r) (h : s.vw r = false) :
    exec i s = .next (s.raise (.unwrittenRegister r)) := by
  cases i with
  | awr rs | uwr _ rs | s2u _ _ rs | u2s _ _ rs | pack _ rs | cvt _ _ _ rs =>
    cases hi
    simp only [exec, execAwr, execUwr, execS2u, execU2s, execPack, execCvt, readSource_error s r h, finish_error]
  | ard _ | urd _ _ | unpk _ _ | rslv | batch => cases hi

/-- Settles O25: each of the six commands names `r` as its source, and the recorded fault is spelt out. -/
theorem unwrittenSourceRaises : Obligations.UnwrittenSourceRaises := by
  unfold Obligations.UnwrittenSourceRaises
  intro s r rd k f a b h i hi
  have hsrc : sourceOf i = some r := by
    simp only [List.mem_cons, List.not_mem_nil, or_false] at hi
    obtain rfl | rfl | rfl | rfl | rfl | rfl := hi <;> rfl
  rw [exec_unwritten i r s hsrc h, BitVec.ofNat_toNat]
  rfl

end Sys2Proof.Machine
end

section
/-! PROOFS. Buffer bytes that the host sets, and the accesses that raise AlignFault or a bounds fault (20_memory.md rules R60, R61,
R64 and R65; 60_exceptions.md rules R251 to R254). -/

namespace Sys2Proof.Machine

/-! ## Host bytes -/

/-- Settles O17: the next buffer is the one byte written, read back by `Memory.read_write_same` and `Memory.read_write_ne`. -/
theorem hostSetsOneBufferByte : Obligations.HostSetsOneBufferByte := by
  unfold Obligations.HostSetsOneBufferByte
  exact fun s k b =>
    ⟨⟨s.ib.write k.toNat b, rfl, Memory.read_write_same _ _ _, fun a ha => Memory.read_write_ne _ _ a b ha⟩,
      ⟨s.ob.write k.toNat b, rfl, Memory.read_write_same _ _ _, fun a ha => Memory.read_write_ne _ _ a b ha⟩⟩

/-! ## Commands through their primitives -/

section primitives
variable {s : State} {r : VReg} {len : Nat} {f : WireFormat} {g : BlockFault}

theorem exec_ard_of_error (h : alignedRead s = .error g) : exec (.ard r) s = .next (s.raise g) := by
  simp only [exec, execArd, h, finish_error]

theorem exec_urd_of_error (h : unalignedRead len s = .error g) : exec (.urd len r) s = .next (s.raise g) := by
  simp only [exec, execUrd, h, finish_error]

theorem exec_unpk_of_error (h : unpackSample f s = .error g) : exec (.unpk f r) s = .next (s.raise g) := by
  simp only [exec, execUnpk, h, finish_error]

theorem exec_awr_of_written (h : s.vw r = true) : exec (.awr r) s = finish s (alignedWrite (s.v r).toNat s) := by
  simp only [exec, execAwr, readSource_ok s r h]

theorem exec_uwr_of_written (h : s.vw r = true) :
    exec (.uwr len r) s = finish s (unalignedWrite len (s.v r).toNat s) := by
  simp only [exec, execUwr, readSource_ok s r h]

theorem exec_pack_of_written (h : s.vw r = true) : exec (.pack f r) s = finish s (packSample f (s.v r) s) := by
  simp only [exec, execPack, readSource_ok s r h]

end primitives

/-! ## Alignment -/

/-- Settles O26: the alignment check is the first check of each of the four commands, the written check of the writers apart. -/
theorem unalignedCursorRaisesAlignFault : Obligations.UnalignedCursorRaisesAlignFault := by
  unfold Obligations.UnalignedCursorRaisesAlignFault
  intro s r f hf
  simp only [List.forall_mem_cons, List.not_mem_nil, false_imp_iff, implies_true, and_true]
  constructor
  · intro hib
    exact ⟨exec_ard_of_error (alignedRead_misaligned s hib),
      exec_unpk_of_error (unpackSample_misaligned f s (misaligned_true.mpr ⟨hf, hib⟩))⟩
  · intro hob hw
    rw [exec_awr_of_written hw, exec_pack_of_written hw, alignedWrite_misaligned _ s hob,
      packSample_misaligned f _ s (misaligned_true.mpr ⟨hf, hob⟩)]
    exact ⟨rfl, rfl⟩

/-! ## Bounds -/

/-- At a byte boundary an octet's span is the one byte at the cursor. -/
theorem spanOutside_octet_iff (b bytes : Nat) (h : b % 8 = 0) : spanOutside b 8 bytes ↔ bytes ≤ b / 8 := by
  rw [spanOutside_iff b 8 bytes (by decide)]
  omega

/-- A sample's span always has a bit, so the check of `packSample` and `unpackSample` is the condition of rule R65. -/
theorem spanLeaves_widthOf_iff (b bytes : Nat) (e : Encoding) :
    spanLeaves b (widthOf e) bytes = true ↔ spanOutside b (widthOf e) bytes :=
  spanLeaves_iff_outside b (widthOf e) bytes (le_trans (by decide) (widthOf_pos e))

/-- Settles O27: each of the three reads fails in its primitive, which ends the command. -/
theorem readOutsideBufferRaises : Obligations.ReadOutsideBufferRaises := by
  unfold Obligations.ReadOutsideBufferRaises
  intro s r k f raised
  refine ⟨fun ha hs => ?_, fun h1 h8 hs => ?_, fun ha hs => ?_⟩
  · exact exec_ard_of_error (alignedRead_outside s ha ((spanOutside_octet_iff _ _ ha).mp hs))
  · exact exec_urd_of_error (unalignedRead_outside k s h1 h8 ((spanOutside_iff _ _ _ h1).mp hs))
  · exact exec_unpk_of_error
      (unpackSample_outside f s (misaligned_false.mpr ha) ((spanLeaves_widthOf_iff _ _ f.enc).mpr hs))

/-- Settles O28: with the source written, each of the three writes fails in its primitive. -/
theorem writeOutsideBufferRaises : Obligations.WriteOutsideBufferRaises := by
  unfold Obligations.WriteOutsideBufferRaises
  intro s r k f hw raised
  refine ⟨fun ha hs => ?_, fun h1 h8 hs => ?_, fun ha hs => ?_⟩
  · rw [exec_awr_of_written hw, alignedWrite_outside _ s ha ((spanOutside_octet_iff _ _ ha).mp hs)]
    rfl
  · rw [exec_uwr_of_written hw, unalignedWrite_outside k _ s h1 h8 ((spanOutside_iff _ _ _ h1).mp hs)]
    rfl
  · rw [exec_pack_of_written hw,
      packSample_outside f _ s (misaligned_false.mpr ha) ((spanLeaves_widthOf_iff _ _ f.enc).mpr hs)]
    rfl

end Sys2Proof.Machine
end

section
/-! PROOFS. The command words that decode: what selecting a row and reading its operands ask of the word's bit fields, and the
instruction that comes of it, whose encoding is the word again (30_encoding.md rules R80 to R94). -/

namespace Sys2Proof.Machine

/-- Settles O1: the word selects its instruction's own row, whose fields hold the operands. -/
theorem decodeInvertsEncode : Obligations.DecodeInvertsEncode := by
  unfold Obligations.DecodeInvertsEncode
  exact decode_encode

/-- Settles O5: each word is the encoding of the well-formed instruction it stands for. -/
theorem writtenOutWordsDecode : Obligations.WrittenOutWordsDecode := by
  unfold Obligations.WrittenOutWordsDecode
  exact ⟨decode_encode (.ard .v1) rfl, decode_encode (.awr .v3) rfl, decode_encode (.urd 4 .v2) rfl,
    decode_encode (.uwr 3 .v2) rfl, decode_encode (.s2u 16 .v1 .v0) rfl, decode_encode (.u2s 8 .v1 .v0) rfl,
    decode_encode (.unpk ⟨.s18, .big⟩ .v0) rfl, decode_encode (.pack ⟨.s18, .big⟩ .v0) rfl,
    decode_encode (.cvt .f32 .s16 .v1 .v0) rfl, decode_encode .rslv rfl, decode_encode .batch rfl⟩

/-- Settles O7: the valid codes by their two fields, and the code of each format read back. -/
theorem formatCodeValidity : Obligations.FormatCodeValidity := by
  unfold Obligations.FormatCodeValidity
  refine ⟨fun c => ?_, fun f => ⟨toNat_formatCode f, formatOfCode_code f⟩, rfl⟩
  rw [← Option.isSome_iff_exists, formatOfCode_isSome_iff]

/-! ## Rows and fields -/

theorem wordField_eq (w : Command) (hi lo : Nat) : wordField w hi lo = w.toNat / 2 ^ lo % 2 ^ (hi - lo + 1) := rfl

/-- The decoder's field of `n + 1` bits is the field of the rules. -/
theorem extract_eq_wordField (w : Command) (lo n : Nat) :
    (w.extractLsb' lo (n + 1)).toNat = wordField w (lo + n) lo := by
  rw [extract_toNat, wordField_eq, Nat.add_sub_cancel_left]

theorem opcodeField_eq (w : Command) : wordField w 31 27 = w.toNat / 2 ^ 27 := by
  have := w.isLt
  rw [wordField_eq]
  omega

/-- The rows of the table are those of the opcodes. -/
theorem eq_rowOf {r : OpcodeRow} (hr : r ∈ opcodeTable) : r = rowOf r.op := by
  have rows : ∀ r ∈ opcodeTable, r = rowOf r.op := by decide
  exact rows r hr

/-- A word decodes iff it selects the row of some command and has legal operands for it. -/
theorem decode_ok_iff (w : Command) (i : Instr) :
    decode w = .ok i ↔ ∃ op, (rowOf op).selects w = true ∧ decodeOperands op w = .ok i := by
  constructor
  · intro h
    obtain ⟨r, hr, hsel, hops⟩ := decode_ok_row h
    exact ⟨r.op, eq_rowOf hr ▸ hsel, hops⟩
  · rintro ⟨op, hsel, hops⟩
    rw [decode_of_selects (rowOf op) (rowOf_mem op) w hsel, rowOf_op, hops]

theorem opcode_of_selects_rowOf {op : Op} {w : Command} (h : (rowOf op).selects w = true) :
    w.toNat / 2 ^ 27 = op.opcode.toNat := by
  rw [opcode_of_selects _ (rowOf_mem op) w h, rowOf_op]

theorem span_of_selects_rowOf {op : Op} {w : Command} (h : (rowOf op).selects w = true) :
    w.toNat / 2 ^ (rowSpan op).1 = op.opcode.toNat * 2 ^ (27 - (rowSpan op).1) ∧ w.toNat % 2 ^ (rowSpan op).2 = 0 := by
  rwa [selects_iff _ (rowOf_mem op), rowOf_op] at h

/-! ## Operands -/

theorem decodeFormU_ok_iff (mk : Nat → VReg → Instr) (w : Command) (i : Instr) :
    decodeFormU mk w = .ok i ↔ legalLength (w.extractLsb' 23 4).toNat = true ∧
      mk (w.extractLsb' 23 4).toNat (VReg.ofCode (w.extractLsb' 21 2)) = i := by
  simp only [decodeFormU]
  generalize (w.extractLsb' 23 4).toNat = len
  cases legalLength len <;> simp

theorem decodeFormS_ok_iff (mk : Nat → VReg → VReg → Instr) (w : Command) (i : Instr) :
    decodeFormS mk w = .ok i ↔ legalDepth (w.extractLsb' 20 7).toNat = true ∧
      mk (w.extractLsb' 20 7).toNat (VReg.ofCode (w.extractLsb' 18 2)) (VReg.ofCode (w.extractLsb' 16 2)) = i := by
  simp only [decodeFormS]
  generalize (w.extractLsb' 20 7).toNat = depth
  cases legalDepth depth <;> simp

theorem decodeFormP_ok_iff (mk : WireFormat → VReg → Instr) (w : Command) (i : Instr) :
    decodeFormP mk w = .ok i ↔ ∃ f, WireFormat.ofCode? (w.extractLsb' 20 7) = some f ∧
      mk f (VReg.ofCode (w.extractLsb' 18 2)) = i := by
  unfold decodeFormP
  cases WireFormat.ofCode? (w.extractLsb' 20 7) <;> simp

theorem decodeFormV_ok_iff (mk : Encoding → Encoding → VReg → VReg → Instr) (w : Command) (i : Instr) :
    decodeFormV mk w = .ok i ↔ ∃ src dst, Encoding.ofCode? (w.extractLsb' 22 5) = some src ∧
      Encoding.ofCode? (w.extractLsb' 17 5) = some dst ∧
      mk src dst (VReg.ofCode (w.extractLsb' 15 2)) (VReg.ofCode (w.extractLsb' 13 2)) = i := by
  unfold decodeFormV
  cases Encoding.ofCode? (w.extractLsb' 22 5) <;> cases Encoding.ofCode? (w.extractLsb' 17 5) <;> simp

/-! ## The encoding of the fields that were read -/

theorem formA_of_fields (op : Op) (w : Command) (hop : w.toNat / 2 ^ 23 = op.opcode.toNat * 2 ^ (27 - 23))
    (hz : w.toNat % 2 ^ 21 = 0) : encodeFormA op (VReg.ofCode (w.extractLsb' 21 2)) = w := by
  apply BitVec.eq_of_toNat_eq
  rw [toNat_formA, code_ofCode, extract_toNat]
  omega

theorem formU_of_fields (op : Op) (w : Command) (hop : w.toNat / 2 ^ 27 = op.opcode.toNat) (hz : w.toNat % 2 ^ 21 = 0) :
    encodeFormU op (w.extractLsb' 23 4).toNat (VReg.ofCode (w.extractLsb' 21 2)) = w := by
  apply BitVec.eq_of_toNat_eq
  rw [toNat_formU _ _ _ (BitVec.isLt _), code_ofCode, extract_toNat, extract_toNat]
  omega

theorem formS_of_fields (op : Op) (w : Command) (hop : w.toNat / 2 ^ 27 = op.opcode.toNat) (hz : w.toNat % 2 ^ 16 = 0) :
    encodeFormS op (w.extractLsb' 20 7).toNat (VReg.ofCode (w.extractLsb' 18 2)) (VReg.ofCode (w.extractLsb' 16 2)) = w := by
  apply BitVec.eq_of_toNat_eq
  rw [toNat_formS _ _ _ _ (BitVec.isLt _), code_ofCode, code_ofCode, extract_toNat, extract_toNat, extract_toNat]
  omega

theorem formP_of_fields (op : Op) (f : WireFormat) (w : Command) (hop : w.toNat / 2 ^ 27 = op.opcode.toNat)
    (hz : w.toNat % 2 ^ 18 = 0) (hf : WireFormat.ofCode? (w.extractLsb' 20 7) = some f) :
    encodeFormP op f (VReg.ofCode (w.extractLsb' 18 2)) = w := by
  apply BitVec.eq_of_toNat_eq
  rw [toNat_formP, formatCode_of hf, code_ofCode, extract_toNat, extract_toNat]
  omega

theorem formV_of_fields (op : Op) (src dst : Encoding) (w : Command) (hop : w.toNat / 2 ^ 27 = op.opcode.toNat)
    (hz : w.toNat % 2 ^ 13 = 0) (hs : Encoding.ofCode? (w.extractLsb' 22 5) = some src)
    (hd : Encoding.ofCode? (w.extractLsb' 17 5) = some dst) :
    encodeFormV op src dst (VReg.ofCode (w.extractLsb' 15 2)) (VReg.ofCode (w.extractLsb' 13 2)) = w := by
  apply BitVec.eq_of_toNat_eq
  rw [toNat_formV, encodingCode_of hs, encodingCode_of hd, code_ofCode, code_ofCode, extract_toNat, extract_toNat,
    extract_toNat, extract_toNat]
  omega

theorem formN_of_fields (op : Op) (w : Command) (hop : w.toNat / 2 ^ 27 = op.opcode.toNat) (hz : w.toNat % 2 ^ 27 = 0) :
    encodeFormN op = w := by
  apply BitVec.eq_of_toNat_eq
  rw [toNat_formN]
  omega

/-- What the operands of a selected row give is a well-formed instruction of that row, and the word is its encoding. -/
theorem decodeOperands_sound {op : Op} {w : Command} {i : Instr} (hsel : (rowOf op).selects w = true)
    (h : decodeOperands op w = .ok i) : i.op = op ∧ i.wellFormed = true ∧ encode i = w := by
  have hop := opcode_of_selects_rowOf hsel
  obtain ⟨hspan, hz⟩ := span_of_selects_rowOf hsel
  cases op with
  | ard =>
    cases h
    exact ⟨rfl, rfl, formA_of_fields .ard w hspan hz⟩
  | awr =>
    cases h
    exact ⟨rfl, rfl, formA_of_fields .awr w hspan hz⟩
  | urd =>
    obtain ⟨hl, rfl⟩ := (decodeFormU_ok_iff _ w i).1 h
    exact ⟨rfl, hl, formU_of_fields .urd w hop hz⟩
  | uwr =>
    obtain ⟨hl, rfl⟩ := (decodeFormU_ok_iff _ w i).1 h
    exact ⟨rfl, hl, formU_of_fields .uwr w hop hz⟩
  | s2u =>
    obtain ⟨hd, rfl⟩ := (decodeFormS_ok_iff _ w i).1 h
    exact ⟨rfl, hd, formS_of_fields .s2u w hop hz⟩
  | u2s =>
    obtain ⟨hd, rfl⟩ := (decodeFormS_ok_iff _ w i).1 h
    exact ⟨rfl, hd, formS_of_fields .u2s w hop hz⟩
  | unpk =>
    obtain ⟨f, hf, rfl⟩ := (decodeFormP_ok_iff _ w i).1 h
    exact ⟨rfl, rfl, formP_of_fields .unpk f w hop hz hf⟩
  | pack =>
    obtain ⟨f, hf, rfl⟩ := (decodeFormP_ok_iff _ w i).1 h
    exact ⟨rfl, rfl, formP_of_fields .pack f w hop hz hf⟩
  | cvt =>
    obtain ⟨src, dst, hs, hd, rfl⟩ := (decodeFormV_ok_iff _ w i).1 h
    exact ⟨rfl, rfl, formV_of_fields .cvt src dst w hop hz hs hd⟩
  | rslv =>
    cases h
    exact ⟨rfl, rfl, formN_of_fields .rslv w hop hz⟩
  | batch =>
    cases h
    exact ⟨rfl, rfl, formN_of_fields .batch w hop hz⟩

/-- Settles O2: the word selects a row, and the fields of that row are all its bits. -/
theorem encodeInvertsDecode : Obligations.EncodeInvertsDecode := by
  unfold Obligations.EncodeInvertsDecode
  intro w i h
  obtain ⟨op, hsel, hops⟩ := (decode_ok_iff w i).1 h
  exact (decodeOperands_sound hsel hops).2

/-- Settles O6: the selected row is the instruction's own, and rows are told apart by the opcode field. -/
theorem opcodeAloneSelectsCommand : Obligations.OpcodeAloneSelectsCommand := by
  unfold Obligations.OpcodeAloneSelectsCommand
  intro w i h
  obtain ⟨op, hsel, hops⟩ := (decode_ok_iff w i).1 h
  obtain ⟨rfl, -⟩ := decodeOperands_sound hsel hops
  refine ⟨(opcodeField_eq w).trans (opcode_of_selects_rowOf hsel), fun r hr h' => ?_⟩
  rw [row_unique r _ hr (rowOf_mem _) w h' hsel, rowOf_op]

/-! ## Illegal words -/

/-- The defined opcodes are 1 to 11. -/
theorem not_reservedOpcode_iff (w : Command) : ¬ reservedOpcode w ↔ ∃ op : Op, wordField w 31 27 = op.opcode.toNat := by
  constructor
  · intro h
    have opcodes : ∀ k < 12, k ≠ 0 → ∃ r ∈ opcodeTable, k = r.op.opcode.toNat := by decide
    obtain ⟨h0, h12⟩ := not_or.1 h
    obtain ⟨r, -, hr⟩ := opcodes _ (not_le.1 h12) h0
    exact ⟨r.op, hr⟩
  · rintro ⟨op, h⟩
    have defined : 1 ≤ op.opcode.toNat ∧ op.opcode.toNat ≤ 11 := by cases op <;> decide
    rw [reservedOpcode, h]
    omega

/-- A word selects the row of its opcode iff the reserved-zero fields of that row are zero. -/
theorem selects_rowOf_iff (op : Op) (w : Command) :
    (rowOf op).selects w = true ↔ wordField w 31 27 = op.opcode.toNat ∧ ¬ reservedBitSet w := by
  by_cases hop : wordField w 31 27 = op.opcode.toNat
  · have hdiv := (opcodeField_eq w).symm.trans hop
    rw [selects_iff _ (rowOf_mem op), rowOf_op, and_iff_right hop]
    cases op <;> simp [rowSpan, reservedBitSet, hop, Op.opcode, wordField_eq] at hdiv ⊢ <;> omega
  · exact iff_of_false (fun h => hop ((opcodeField_eq w).trans (opcode_of_selects_rowOf h))) fun h => hop h.1

theorem encodingOfCode_exists_iff (c : BitVec 5) : (∃ e, Encoding.ofCode? c = some e) ↔ ¬ badEncodingCode c.toNat := by
  rw [← Option.isSome_iff_exists, badEncodingCode]
  revert c
  decide

/-- The format field of a word names a format iff its encoding part and its endian part are legal. -/
theorem formatField_exists_iff (w : Command) : (∃ f, WireFormat.ofCode? (w.extractLsb' 20 7) = some f) ↔
    ¬ (badEncodingCode (wordField w 26 22) ∨ wordField w 21 20 = 3) := by
  rw [← Option.isSome_iff_exists, formatOfCode_isSome_iff, extract_toNat, badEncodingCode, wordField_eq, wordField_eq]
  omega

theorem decodeFormU_exists_iff (mk : Nat → VReg → Instr) (w : Command) :
    (∃ i, decodeFormU mk w = .ok i) ↔ ¬ 8 < wordField w 26 23 := by
  simp only [decodeFormU_ok_iff, exists_and_left, exists_eq', and_true]
  rw [extract_eq_wordField w 23 3, legalLength_iff, not_lt]

theorem decodeFormS_exists_iff (mk : Nat → VReg → VReg → Instr) (w : Command) :
    (∃ i, decodeFormS mk w = .ok i) ↔ ¬ wordField w 26 20 ∉ [8, 16, 18, 20, 24, 32, 64] := by
  simp only [decodeFormS_ok_iff, exists_and_left, exists_eq', and_true]
  rw [extract_eq_wordField w 20 6, legalDepth_iff, not_not]

theorem decodeFormP_exists_iff (mk : WireFormat → VReg → Instr) (w : Command) :
    (∃ i, decodeFormP mk w = .ok i) ↔ ¬ (badEncodingCode (wordField w 26 22) ∨ wordField w 21 20 = 3) := by
  rw [← formatField_exists_iff]
  simp only [decodeFormP_ok_iff]
  exact ⟨fun ⟨_, f, hf, _⟩ => ⟨f, hf⟩, fun ⟨f, hf⟩ => ⟨_, f, hf, rfl⟩⟩

theorem decodeFormV_exists_iff (mk : Encoding → Encoding → VReg → VReg → Instr) (w : Command) :
    (∃ i, decodeFormV mk w = .ok i) ↔
      ¬ (badEncodingCode (wordField w 26 22) ∨ badEncodingCode (wordField w 21 17)) := by
  rw [not_or, ← extract_eq_wordField w 22 4, ← extract_eq_wordField w 17 4, ← encodingOfCode_exists_iff,
    ← encodingOfCode_exists_iff]
  simp only [decodeFormV_ok_iff]
  exact ⟨fun ⟨_, src, dst, hs, hd, _⟩ => ⟨⟨src, hs⟩, dst, hd⟩, fun ⟨⟨src, hs⟩, dst, hd⟩ => ⟨_, src, dst, hs, hd, rfl⟩⟩

/-- The operands of a defined opcode give an instruction iff the fields that its format checks are legal. -/
theorem decodeOperands_exists_iff (op : Op) (w : Command) (h : wordField w 31 27 = op.opcode.toNat) :
    (∃ i, decodeOperands op w = .ok i) ↔ ¬ illegalField w := by
  cases op with
  | ard | awr | rslv | batch => simp [decodeOperands, illegalField, h, Op.opcode]
  | urd | uwr => simp [decodeOperands, decodeFormU_exists_iff, illegalField, h, Op.opcode]
  | s2u | u2s => simp [decodeOperands, decodeFormS_exists_iff, illegalField, h, Op.opcode]
  | unpk | pack => simp [decodeOperands, decodeFormP_exists_iff, illegalField, h, Op.opcode]
  | cvt => simp [decodeOperands, decodeFormV_exists_iff, illegalField, h, Op.opcode]

/-- The words that decode are those that no rule calls illegal. -/
theorem decode_exists_iff (w : Command) : (∃ i, decode w = .ok i) ↔ ¬ illegalWord w := by
  have hops : ∀ op, (rowOf op).selects w = true → ((∃ i, decodeOperands op w = .ok i) ↔ ¬ illegalField w) :=
    fun op h => decodeOperands_exists_iff op w ((selects_rowOf_iff op w).1 h).1
  rw [illegalWord, not_or, not_or, not_reservedOpcode_iff]
  constructor
  · rintro ⟨i, h⟩
    obtain ⟨op, hsel, hi⟩ := (decode_ok_iff w i).1 h
    obtain ⟨hop, hz⟩ := (selects_rowOf_iff op w).1 hsel
    exact ⟨⟨op, hop⟩, hz, (hops op hsel).1 ⟨i, hi⟩⟩
  · rintro ⟨⟨op, hop⟩, hz, hf⟩
    have hsel := (selects_rowOf_iff op w).2 ⟨hop, hz⟩
    obtain ⟨i, hi⟩ := (hops op hsel).2 hf
    exact ⟨i, (decode_ok_iff w i).2 ⟨op, hsel, hi⟩⟩

/-- Settles O3: row selection is the conditions on opcode and reserved bits, the operands that on field values. -/
theorem decodeRejectsExactlyIllegalWords : Obligations.DecodeRejectsExactlyIllegalWords := by
  unfold Obligations.DecodeRejectsExactlyIllegalWords
  intro w
  rw [← not_exists, decode_exists_iff, not_not]

/-- Settles O4: the command port on a word that does not decode. -/
theorem illegalWordRaisesIllegalCommand : Obligations.IllegalWordRaisesIllegalCommand := by
  unfold Obligations.IllegalWordRaisesIllegalCommand
  refine ⟨.inl (.inl rfl), fun s v hs hw => ?_⟩
  show writeCmd v s = _
  obtain ⟨hh, -⟩ | ⟨-, -, h⟩ | ⟨-, i, hi, -⟩ := writeCmd_cases v s
  · rw [hs] at hh
    cases hh
  · exact h
  · exact absurd hw ((decode_exists_iff _).1 ⟨i, hi⟩)

end Sys2Proof.Machine
end

section
/-! PROOFS. The assembler read both ways: each parser finds exactly the value that prints as its string
(30_encoding.md rules R96 to R98). -/

namespace Sys2Proof.Machine

/-! ## Names -/

/-- Looking a name up in a list finds the one listed value that has it, where names differ. -/
theorem find?_name_iff {α : Type} (key : α → String) (l : List α) (hinj : ∀ x ∈ l, ∀ y ∈ l, key x = key y → x = y)
    (name : String) (a : α) : l.find? (fun x => key x = name) = some a ↔ a ∈ l ∧ key a = name := by
  constructor
  · intro h
    exact ⟨List.mem_of_find?_eq_some h, by simpa using List.find?_some h⟩
  · rintro ⟨ha, rfl⟩
    obtain ⟨b, hb⟩ := Option.isSome_iff_exists.1
      (List.find?_isSome.2 ⟨a, ha, decide_eq_true rfl⟩ : (l.find? fun x => key x = key a).isSome = true)
    rw [hb, hinj b (List.mem_of_find?_eq_some hb) a ha (by simpa using List.find?_some hb)]

theorem encoding_mem_all (e : Encoding) : e ∈ Encoding.all := by
  cases e <;> decide

theorem mem_allFormats (f : WireFormat) : f ∈ allFormats := by
  obtain ⟨e, d⟩ := f
  refine List.mem_flatMap.2 ⟨e, encoding_mem_all e, ?_⟩
  cases d <;> simp

theorem parseEncoding_iff (name : String) (e : Encoding) : parseEncoding name = some e ↔ encodingName e = name := by
  have distinct : (Encoding.all.map encodingName).Nodup := by decide
  rw [parseEncoding, find?_name_iff _ _ (fun _ hx _ hy => List.inj_on_of_nodup_map distinct hx hy),
    and_iff_right (encoding_mem_all e)]

theorem parseFormat_iff (name : String) (f : WireFormat) : parseFormat name = some f ↔ formatName f = name := by
  have distinct : (allFormats.map formatName).Nodup := by decide
  rw [parseFormat, find?_name_iff _ _ (fun _ hx _ hy => List.inj_on_of_nodup_map distinct hx hy),
    and_iff_right (mem_allFormats f)]

theorem parseReg_iff (name : String) (r : VReg) : parseReg name = some r ↔ regName r = name := by
  have distinct : ([VReg.v0, .v1, .v2, .v3].map regName).Nodup := by decide
  rw [parseReg, find?_name_iff _ _ (fun _ hx _ hy => List.inj_on_of_nodup_map distinct hx hy),
    and_iff_right (by cases r <;> decide)]

theorem parseCount_iff (legal : List Nat) (digits : String) (k : Nat) :
    parseCount legal digits = some k ↔ k ∈ legal ∧ toString k = digits :=
  find?_name_iff _ _ (fun _ _ _ _ h => Nat.repr_inj.1 h) _ _

theorem parseLength_iff (digits : String) (k : Nat) :
    parseLength digits = some k ↔ legalLength k = true ∧ toString k = digits := by
  rw [parseLength, parseCount_iff, legalLength_iff, show [0, 1, 2, 3, 4, 5, 6, 7, 8] = List.range 9 from rfl, List.mem_range,
    Nat.lt_succ_iff]

theorem parseDepth_iff (digits : String) (k : Nat) :
    parseDepth digits = some k ↔ legalDepth k = true ∧ toString k = digits := by
  rw [parseDepth, parseCount_iff, legalDepth, List.contains_iff_mem]

/-- Settles O8: the formats have 78 different names. -/
theorem formatNamesRoundTrip : Obligations.FormatNamesRoundTrip := by
  unfold Obligations.FormatNamesRoundTrip
  exact parseFormat_iff

/-! ## Operands -/

theorem parseA_iff (mk : VReg → Instr) (ops : List String) (i : Instr) :
    parseA mk ops = some i ↔ ∃ r, [regName r] = ops ∧ mk r = i := by
  match ops with
  | [] | _ :: _ :: _ => simp [parseA]
  | [_] => simp [parseA, parseReg_iff]

theorem parseU_iff (mk : Nat → VReg → Instr) (ops : List String) (i : Instr) :
    parseU mk ops = some i ↔ ∃ len, legalLength len = true ∧ ∃ r, [toString len, regName r] = ops ∧ mk len r = i := by
  match ops with
  | [] | [_] | _ :: _ :: _ :: _ => simp [parseU]
  | [k, r] =>
    have hbind : parseU mk [k, r] = (parseLength k).bind fun len => (parseReg r).map (mk len) := by
      simp only [parseU]
      cases parseLength k <;> cases parseReg r <;> rfl
    simp [hbind, Option.bind_eq_some_iff, parseLength_iff, parseReg_iff, and_assoc]

theorem parseS_iff (mk : Nat → VReg → VReg → Instr) (ops : List String) (i : Instr) :
    parseS mk ops = some i ↔
      ∃ d, legalDepth d = true ∧ ∃ rd rs, [toString d, regName rd, regName rs] = ops ∧ mk d rd rs = i := by
  match ops with
  | [] | [_] | [_, _] | _ :: _ :: _ :: _ :: _ => simp [parseS]
  | [d, a, b] =>
    have hbind : parseS mk [d, a, b] =
        (parseDepth d).bind fun depth => (parseReg a).bind fun rd => (parseReg b).map (mk depth rd) := by
      simp only [parseS]
      cases parseDepth d <;> cases parseReg a <;> cases parseReg b <;> rfl
    simp [hbind, Option.bind_eq_some_iff, parseDepth_iff, parseReg_iff, and_assoc]

theorem parseP_iff (mk : WireFormat → VReg → Instr) (ops : List String) (i : Instr) :
    parseP mk ops = some i ↔ ∃ f r, [formatName f, regName r] = ops ∧ mk f r = i := by
  match ops with
  | [] | [_] | _ :: _ :: _ :: _ => simp [parseP]
  | [f, r] =>
    have hbind : parseP mk [f, r] = (parseFormat f).bind fun fmt => (parseReg r).map (mk fmt) := by
      simp only [parseP]
      cases parseFormat f <;> cases parseReg r <;> rfl
    simp [hbind, Option.bind_eq_some_iff, parseFormat_iff, parseReg_iff, and_assoc]

theorem parseV_iff (mk : Encoding → Encoding → VReg → VReg → Instr) (ops : List String) (i : Instr) :
    parseV mk ops = some i ↔ ∃ src dst rd rs,
      [encodingName src, encodingName dst, regName rd, regName rs] = ops ∧ mk src dst rd rs = i := by
  match ops with
  | [] | [_] | [_, _] | [_, _, _] | _ :: _ :: _ :: _ :: _ :: _ => simp [parseV]
  | [s, d, a, b] =>
    have hbind : parseV mk [s, d, a, b] = (parseEncoding s).bind fun src => (parseEncoding d).bind fun dst =>
        (parseReg a).bind fun rd => (parseReg b).map (mk src dst rd) := by
      simp only [parseV]
      cases parseEncoding s <;> cases parseEncoding d <;> cases parseReg a <;> cases parseReg b <;> rfl
    simp [hbind, Option.bind_eq_some_iff, parseEncoding_iff, parseReg_iff, and_assoc]

theorem parseN_iff (j : Instr) (ops : List String) (i : Instr) : parseN j ops = some i ↔ ops = [] ∧ j = i := by
  cases ops <;> simp [parseN]

/-! ## Commands -/

/-- Only a mnemonic is read. -/
theorem mnemonic_of_parseInstr {name : String} {ops : List String} {i : Instr} (h : parseInstr name ops = some i) :
    ∃ op, name = mnemonic op := by
  by_contra hn
  have hne (op : Op) (m : String) (hm : mnemonic op = m) : name ≠ m := fun e => hn ⟨op, e.trans hm.symm⟩
  rw [parseInstr, if_neg (hne .ard "ARD" rfl), if_neg (hne .awr "AWR" rfl), if_neg (hne .urd "URD" rfl),
    if_neg (hne .uwr "UWR" rfl), if_neg (hne .s2u "S2U" rfl), if_neg (hne .u2s "U2S" rfl), if_neg (hne .unpk "UNPK" rfl),
    if_neg (hne .pack "PACK" rfl), if_neg (hne .cvt "CVT" rfl), if_neg (hne .rslv "RSLV" rfl),
    if_neg (hne .batch "BATCH" rfl)] at h
  cases h

/-- What is read after the mnemonic of `op` is a well-formed instruction of `op` that prints as those operands. -/
theorem parseInstr_sound {op : Op} {ops : List String} {i : Instr} (h : parseInstr (mnemonic op) ops = some i) :
    i.wellFormed = true ∧ i.op = op ∧ operandNames i = ops := by
  cases op with
  | ard | awr =>
    obtain ⟨r, ho, rfl⟩ := (parseA_iff _ ops i).1 h
    exact ⟨rfl, rfl, ho⟩
  | urd | uwr =>
    obtain ⟨len, hl, r, ho, rfl⟩ := (parseU_iff _ ops i).1 h
    exact ⟨hl, rfl, ho⟩
  | s2u | u2s =>
    obtain ⟨d, hd, rd, rs, ho, rfl⟩ := (parseS_iff _ ops i).1 h
    exact ⟨hd, rfl, ho⟩
  | unpk | pack =>
    obtain ⟨f, r, ho, rfl⟩ := (parseP_iff _ ops i).1 h
    exact ⟨rfl, rfl, ho⟩
  | cvt =>
    obtain ⟨src, dst, rd, rs, ho, rfl⟩ := (parseV_iff _ ops i).1 h
    exact ⟨rfl, rfl, ho⟩
  | rslv | batch =>
    obtain ⟨rfl, rfl⟩ := (parseN_iff _ ops i).1 h
    exact ⟨rfl, rfl, rfl⟩

/-- What a well-formed instruction prints is read back as that instruction. -/
theorem parseInstr_print (i : Instr) (h : i.wellFormed = true) : parseInstr (mnemonic i.op) (operandNames i) = some i := by
  cases i with
  | ard r | awr r => exact (parseA_iff _ _ _).2 ⟨r, rfl, rfl⟩
  | urd len r | uwr len r => exact (parseU_iff _ _ _).2 ⟨len, h, r, rfl, rfl⟩
  | s2u d rd rs | u2s d rd rs => exact (parseS_iff _ _ _).2 ⟨d, h, rd, rs, rfl, rfl⟩
  | unpk f r | pack f r => exact (parseP_iff _ _ _).2 ⟨f, r, rfl, rfl⟩
  | cvt src dst rd rs => exact (parseV_iff _ _ _).2 ⟨src, dst, rd, rs, rfl, rfl⟩
  | rslv | batch => rfl

/-- Settles O9: soundness and completeness of the parser, the mnemonic choosing the form of the operands. -/
theorem assemblerReadsExactlyWhatItPrints : Obligations.AssemblerReadsExactlyWhatItPrints := by
  unfold Obligations.AssemblerReadsExactlyWhatItPrints
  intro name ops i
  constructor
  · intro h
    obtain ⟨op, rfl⟩ := mnemonic_of_parseInstr h
    obtain ⟨hw, rfl, ho⟩ := parseInstr_sound h
    exact ⟨hw, rfl, ho.symm⟩
  · rintro ⟨hw, rfl, rfl⟩
    exact parseInstr_print i hw

end Sys2Proof.Machine
end

section
/-! PROOFS. The bit cursor: the commands ARD, AWR, URD and UWR in bounds (40_bit_cursor.md rules R120 to R127), the agreement of the
aligned and the unaligned primitives (rule R130), and the zeros that a pass keeps ahead of OBO (rule R128). -/

namespace Sys2Proof.Machine

/-! ## Reads -/

theorem exec_ard_of_ok {s t : State} {r : VReg} {o : Nat} (h : alignedRead s = .ok (o, t)) :
    exec (.ard r) s = .next (t.writeV r (zext64 o)) := by
  simp only [exec, execArd, h, finish_ok]

theorem exec_urd_of_ok {s t : State} {r : VReg} {len v : Nat} (h : unalignedRead len s = .ok (v, t)) :
    exec (.urd len r) s = .next (t.writeV r (zext64 v)) := by
  simp only [exec, execUrd, h, finish_ok]

theorem zext64_toNat (b : Byte) : zext64 b.toNat = b.setWidth 64 := BitVec.ofNat_toNat 64 b

/-- Settles O29: the primitive's octet, extended by `zext64`. -/
theorem ardReadsOctet : Obligations.ArdReadsOctet := by
  unfold Obligations.ArdReadsOctet
  intro s rd ha hb
  rw [exec_ard_of_ok (alignedRead_ok s ha hb), zext64_toNat]
  rfl

/-- `unalignedRead_ok` for every length a command can carry, 0 among them. -/
theorem unalignedRead_field (len : Nat) (s : State) (h8 : len ≤ 8)
    (hs : len ≠ 0 → ¬ spanOutside s.ibo.toNat len s.ibLen.toNat) :
    ∃ v, unalignedRead len s = .ok (v, s.setIbo (s.ibo + BitVec.ofNat 64 len)) ∧ v < 2 ^ len ∧
      ∀ j, j < len → v.testBit j = s.ib.bit (s.ibo.toNat + len - 1 - j) := by
  obtain rfl | h0 := Nat.eq_zero_or_pos len
  · refine ⟨0, ?_, by decide, fun j hj => absurd hj (Nat.not_lt_zero j)⟩
    simp [State.setIbo]
  · have hin := hs h0.ne'
    rw [spanOutside_iff _ _ _ h0, not_le] at hin
    exact unalignedRead_ok len s h0 h8 hin

/-- Settles O31: the bits of the field are those of `unalignedRead_field`, and none stand above it. -/
theorem urdReadsField : Obligations.UrdReadsField := by
  unfold Obligations.UrdReadsField
  intro s len rd h8 hs
  obtain ⟨v, hv, hlt, hbit⟩ := unalignedRead_field len s h8 hs
  refine ⟨zext64 v, exec_urd_of_ok hv, fun j => ?_⟩
  rw [getLsbD_zext64]
  by_cases hj : j < len
  · simp [hj, hbit j hj, show j < 64 by omega]
  · have hz : v.testBit j = false :=
      Nat.testBit_lt_two_pow (lt_of_lt_of_le hlt (Nat.pow_le_pow_right (by decide) (not_lt.mp hj)))
    simp [hj, hz]

/-! ## Writes -/

/-- Settles O30: one byte of OB is written, read back by `Memory.read_write_same` and `Memory.read_write_ne`. -/
theorem awrWritesOctet : Obligations.AwrWritesOctet := by
  unfold Obligations.AwrWritesOctet
  intro s rs hw ha hb
  refine ⟨s.ob.write (s.obo.toNat / 8) ((s.v rs).setWidth 8), ?_, Memory.read_write_same _ _ _,
    fun a hne => Memory.read_write_ne _ _ a _ hne⟩
  rw [exec_awr_of_written hw, alignedWrite_ok _ s ha hb, BitVec.ofNat_toNat]
  rfl

/-- Every bit of OB after `unalignedWrite`, for every length a command can carry, 0 among them. -/
theorem unalignedWrite_bits (len v : Nat) (s : State) (h8 : len ≤ 8)
    (hs : len ≠ 0 → ¬ spanOutside s.obo.toNat len s.obLen.toNat) :
    ∃ m, unalignedWrite len v s = .ok ((s.setOb m).setObo (s.obo + BitVec.ofNat 64 len)) ∧
      ∀ p, m.bit p =
        if len = 0 ∨ p / 8 < s.obo.toNat / 8 ∨ (s.obo.toNat + len - 1) / 8 < p / 8 then s.ob.bit p
        else writtenBit s.ob s.obo.toNat len v p := by
  obtain rfl | h0 := Nat.eq_zero_or_pos len
  · refine ⟨s.ob, ?_, fun p => (if_pos (Or.inl rfl)).symm⟩
    simp [State.setObo, State.setOb]
  · have hin := hs h0.ne'
    rw [spanOutside_iff _ _ _ h0, not_le] at hin
    obtain ⟨m, hm, -, hout, htouched⟩ := unalignedWrite_ok len v s h0 h8 hin
    refine ⟨m, hm, fun p => ?_⟩
    split
    · next h => exact Memory.bit_congr _ _ _ (hout _ (h.resolve_left h0.ne'))
    · next h =>
      obtain ⟨-, hlo, hhi⟩ := not_or.mp h |>.imp_right not_or.mp
      exact htouched p (not_lt.mp hlo) (not_lt.mp hhi)

/-- Settles O32: the bits are those of `unalignedWrite_bits` with the source register as the value. -/
theorem uwrWritesField : Obligations.UwrWritesField := by
  unfold Obligations.UwrWritesField
  intro s len rs hw h8 hs b
  obtain ⟨m, hm, hbit⟩ := unalignedWrite_bits len (s.v rs).toNat s h8 hs
  refine ⟨m, ?_, hbit⟩
  rw [exec_uwr_of_written hw, hm]
  rfl

/-! ## Aligned and unaligned primitives -/

/-- At a byte boundary the octet neither starts inside a byte nor spills, so nothing is ORed in and one byte is assigned. -/
theorem unalignedWrite_eight_of_aligned (v : Nat) (s : State) (h : s.obo.toNat % 8 = 0) :
    unalignedWrite 8 v s = alignedWrite v s := by
  have hbyte : BitVec.ofNat 8 (v % 256) = BitVec.ofNat 8 v := BitVec.eq_of_toNat_eq (by simp)
  simp [unalignedWrite, alignedWrite, h, hbyte]

/-- At a byte boundary the octet is the whole first byte of the window of two. -/
theorem unalignedRead_eight_of_aligned (s : State) (h : s.ibo.toNat % 8 = 0) : unalignedRead 8 s = alignedRead s := by
  have hbyte (x : Byte) : bitField (x.toNat * 256) 15 8 = x.toNat := by
    simp only [bitField]
    omega
  simp [unalignedRead, alignedRead, h, hbyte]

/-- Settles O33: the two equations above at a byte boundary; elsewhere AlignFault against an access that proceeds in bounds. -/
theorem alignedAndUnalignedPrimitivesAgree : Obligations.AlignedAndUnalignedPrimitivesAgree := by
  unfold Obligations.AlignedAndUnalignedPrimitivesAgree
  intro s v
  refine ⟨unalignedWrite_eight_of_aligned v s, unalignedRead_eight_of_aligned s,
    fun h => ⟨alignedWrite_misaligned v s h, fun hin => ?_⟩, fun h => ⟨alignedRead_misaligned s h, fun hin => ?_⟩⟩
  · obtain ⟨m, hm, -⟩ := unalignedWrite_bits 8 v s le_rfl (fun _ => hin)
    exact ⟨_, hm⟩
  · obtain ⟨x, hx, -⟩ := unalignedRead_field 8 s le_rfl (fun _ => hin)
    exact ⟨x, _, hx⟩

/-! ## Zeros ahead of the cursor -/

theorem passClean_of_byte_boundary {s : State} (h : s.obo.toNat % 8 = 0) : s.passClean := fun hne => absurd h hne

/-- A fault moves neither OBO nor OB. -/
theorem passClean_raise {s : State} (f : BlockFault) (h : s.passClean) : (s.raise f).passClean := h

/-- A write that leaves, past its span in the last byte it touches, no more than what an entered byte held keeps the state
clean: the span ends in that byte, and from the old OBO on that byte held zeros. -/
theorem passClean_write {s : State} {m : Memory} {len : Nat} (hs : s.passClean) (h0 : 0 < len)
    (hin : (s.obo.toNat + len - 1) / 8 < s.obLen.toNat)
    (hpast : ∀ p, p / 8 = (s.obo.toNat + len - 1) / 8 → s.obo.toNat + len ≤ p →
      m.bit p = (decide (s.obo.toNat % 8 ≠ 0 ∧ p / 8 = s.obo.toNat / 8) && s.ob.bit p)) :
    ((s.setOb m).setObo (s.obo + BitVec.ofNat 64 len)).passClean := by
  have hadd := cursor_add s.obo len (span_end_le _ _ _ hin)
  simp only [State.passClean, State.setObo_obo, State.setObo_ob, State.setOb_ob, hadd]
  intro hne p hp hbyte
  rw [hpast p (by omega) hp, Bool.and_eq_false_imp, decide_eq_true_iff]
  rintro ⟨hentered, hfirst⟩
  exact hs hentered p (by omega) hfirst

theorem writtenBit_past (m : Memory) (b len v p : Nat) (h : b + len ≤ p) :
    writtenBit m b len v p = (decide (b % 8 ≠ 0 ∧ p / 8 = b / 8) && m.bit p) := by
  simp [writtenBit, not_lt.mpr h]

theorem sampleBit_past (m : Memory) (b : Nat) (f : WireFormat) (v : Word) (p : Nat) (h : b + widthOf f.enc ≤ p) :
    sampleBit m b f v p = (decide (b % 8 ≠ 0 ∧ p / 8 = b / 8) && m.bit p) := by
  simp [sampleBit, not_lt.mpr h]

/-- UnalignedWrite keeps a clean state clean (rule R123). -/
theorem passClean_unalignedWrite {len v : Nat} {s t : State} (h8 : len ≤ 8) (hs : s.passClean)
    (h : unalignedWrite len v s = .ok t) : t.passClean := by
  obtain rfl | h0 := Nat.eq_zero_or_pos len
  · cases h
    exact hs
  obtain hout | hin := le_or_gt s.obLen.toNat ((s.obo.toNat + len - 1) / 8)
  · rw [unalignedWrite_outside len v s h0 h8 hout] at h
    cases h
  · obtain ⟨m, hm, -, -, hbit⟩ := unalignedWrite_ok len v s h0 h8 hin
    rw [hm] at h
    cases h
    refine passClean_write hs h0 hin fun p hp hpast => ?_
    rw [hbit p (by omega) hp.le, writtenBit_past _ _ _ _ _ hpast]

/-- AlignedWrite proceeds at a byte boundary only, where it is an unaligned write (rule R130). -/
theorem passClean_alignedWrite {v : Nat} {s t : State} (hs : s.passClean) (h : alignedWrite v s = .ok t) :
    t.passClean := by
  by_cases ha : s.obo.toNat % 8 = 0
  · rw [← unalignedWrite_eight_of_aligned v s ha] at h
    exact passClean_unalignedWrite le_rfl hs h
  · rw [alignedWrite_misaligned v s ha] at h
    cases h

/-- `Pack` keeps a clean state clean (rules R152 and R153). -/
theorem passClean_packSample {f : WireFormat} {v : Word} {s t : State} (hs : s.passClean)
    (h : packSample f v s = .ok t) : t.passClean := by
  cases ha : misaligned f.enc s.obo with
  | true =>
    rw [packSample_misaligned f v s ha] at h
    cases h
  | false =>
    cases hb : spanLeaves s.obo.toNat (widthOf f.enc) s.obLen.toNat with
    | true =>
      rw [packSample_outside f v s ha hb] at h
      cases h
    | false =>
      obtain ⟨m, hm, -, -, hbit⟩ := packSample_ok f v s ha hb
      rw [hm] at h
      cases h
      refine passClean_write hs (le_trans (by decide) (widthOf_pos f.enc)) (spanLeaves_false.mp hb) fun p hp hpast => ?_
      rw [hbit p (by omega) hp.le, sampleBit_past _ _ _ _ _ hpast]

/-- A command keeps a clean state clean when its data path does, for a fault leaves OBO and OB alone. -/
theorem passClean_finish {s t : State} {r : Except BlockFault State} (hs : s.passClean)
    (hr : ∀ u, r = .ok u → u.passClean) (h : finish s r = .next t) : t.passClean := by
  cases r with
  | ok _ =>
    cases h
    exact hr t rfl
  | error f =>
    cases h
    exact passClean_raise f hs

/-- Settles O34: a fault keeps a clean state, and so do the three primitives behind the commands. -/
theorem passKeepsUnwrittenBitsZero : Obligations.PassKeepsUnwrittenBitsZero := by
  unfold Obligations.PassKeepsUnwrittenBitsZero
  refine ⟨fun s => passClean_of_byte_boundary, fun s t r len f h8 hs i hi h => ?_⟩
  simp only [List.mem_cons, List.not_mem_nil, or_false] at hi
  cases hw : s.vw r with
  | false =>
    have hsrc : sourceOf i = some r := by obtain rfl | rfl | rfl := hi <;> rfl
    rw [exec_unwritten i r s hsrc hw] at h
    cases h
    exact passClean_raise _ hs
  | true =>
    obtain rfl | rfl | rfl := hi
    · rw [exec_awr_of_written hw] at h
      exact passClean_finish hs (fun _ => passClean_alignedWrite hs) h
    · rw [exec_uwr_of_written hw] at h
      exact passClean_finish hs (fun _ => passClean_unalignedWrite h8 hs) h
    · rw [exec_pack_of_written hw] at h
      exact passClean_finish hs (fun _ => passClean_packSample hs) h

end Sys2Proof.Machine
end

section
/-! PROOFS. The sign converter: the offset-binary code, its inverse and its bit-level form, and the commands S2U and U2S
(41_sign_converter.md rules R141 to R145). -/

namespace Sys2Proof.Machine

theorem signDepths_bounds {d : Nat} (h : d ∈ signDepths) : 0 < d ∧ d ≤ 64 := by
  have hall : ∀ k ∈ signDepths, 0 < k ∧ k ≤ 64 := by decide
  exact hall d h

/-! ## Inverting the top bit -/

/-- Inverting a bit above a number sets it. -/
theorem xor_two_pow_of_lt {n v : Nat} (h : v < 2 ^ n) : v ^^^ 2 ^ n = 2 ^ n + v := by
  have hor := Nat.two_pow_add_eq_or_of_lt h 1
  rw [mul_one] at hor
  rw [hor]
  apply Nat.eq_of_testBit_eq
  intro i
  rw [Nat.testBit_xor, Nat.testBit_or, Nat.testBit_two_pow]
  by_cases hi : n = i
  · subst hi
    simp [Nat.testBit_lt_two_pow h]
  · simp [hi]

theorem xor_top_lt {d u : Nat} (hd : 0 < d) (h : u < 2 ^ d) : u ^^^ 2 ^ (d - 1) < 2 ^ d :=
  Nat.xor_lt_two_pow h (Nat.pow_lt_pow_right Nat.one_lt_two (Nat.sub_lt hd Nat.one_pos))

theorem svalNat_of_lt {d v : Nat} (h : v < 2 ^ (d - 1)) : svalNat d v = v := by
  simp [svalNat, Nat.testBit_lt_two_pow h]

theorem svalNat_two_pow_add {d v : Nat} (hd : 0 < d) (h : v < 2 ^ (d - 1)) :
    svalNat d (2 ^ (d - 1) + v) = v - 2 ^ (d - 1) := by
  have htop : (2 ^ (d - 1) + v).testBit (d - 1) = true := by
    rw [Nat.testBit_two_pow_add_eq, Nat.testBit_lt_two_pow h, Bool.not_false]
  rw [svalNat, if_pos htop, two_pow_pred d hd]
  push_cast
  ring

/-- The signed value of a pattern with its top bit inverted is the inverse code (rule R145). -/
theorem svalNat_xor_top {d u : Nat} (hd : 0 < d) (h : u < 2 ^ d) : svalNat d (u ^^^ 2 ^ (d - 1)) = toSigned d u := by
  rw [toSigned_eq]
  by_cases hu : u < 2 ^ (d - 1)
  · rw [xor_two_pow_of_lt hu, svalNat_two_pow_add hd hu]
  · obtain ⟨v, rfl⟩ := Nat.exists_eq_add_of_le (Nat.not_lt.mp hu)
    have hv : v < 2 ^ (d - 1) := by
      have hpow : 2 ^ d = 2 * 2 ^ (d - 1) := by rw [← pow_succ', Nat.sub_add_cancel hd]
      omega
    rw [← xor_two_pow_of_lt hv, Nat.xor_xor_cancel_right, svalNat_of_lt hv, xor_two_pow_of_lt hv]
    push_cast
    ring

/-- The code of a pattern's signed value is the pattern with its top bit inverted (rule R145). -/
theorem toUnsigned_svalNat {d u : Nat} (hd : 0 < d) (h : u < 2 ^ d) :
    toUnsigned d (svalNat d u) = u ^^^ 2 ^ (d - 1) := by
  have hx := xor_top_lt hd h
  rw [← toUnsigned_toSigned d _ hd hx, ← svalNat_xor_top hd hx, Nat.xor_xor_cancel_right]

/-- Settles O35: the code and its inverse are shifts by half the range, and both invert the top bit of a pattern. -/
theorem offsetBinaryCode : Obligations.OffsetBinaryCode := by
  unfold Obligations.OffsetBinaryCode
  intro d hmem
  have hd := (signDepths_bounds hmem).1
  constructor
  · intro s hlo hhi
    have hs : inSigned d s := ⟨hlo, Int.lt_of_le_sub_one hhi⟩
    exact ⟨toUnsigned_eq d s hd hs, Nat.le_sub_one_of_lt (toUnsigned_lt d s hd hs), toSigned_toUnsigned d s hd hs⟩
  · intro u hle
    have hu : u < 2 ^ d := Nat.lt_of_le_sub_one (Nat.two_pow_pos d) hle
    obtain ⟨hlo, hhi⟩ := toSigned_range d u hd hu
    exact ⟨toSigned_eq d u, hlo, Int.le_sub_one_of_lt hhi, toUnsigned_toSigned d u hd hu, toUnsigned_svalNat hd hu⟩

/-! ## Commands -/

section commands
variable {s : State} {d : Nat} {rd rs : VReg}

theorem exec_s2u_of_written (h : s.vw rs = true) :
    exec (.s2u d rd rs) s = .next (s.writeV rd (zext64 (toUnsigned d (sval d (s.v rs))))) := by
  simp only [exec, execS2u, readSource_ok s rs h, finish_ok]

theorem exec_u2s_of_written (h : s.vw rs = true) :
    exec (.u2s d rd rs) s = .next (s.writeV rd (ofSigned (toSigned d (uval d (s.v rs))))) := by
  simp only [exec, execU2s, readSource_ok s rs h, finish_ok]

end commands

/-- The low D bits of a register with bit D-1 inverted. -/
theorem testBit_uval_xor_top {d : Nat} (hd : 0 < d) (x : Word) (k : Nat) :
    (uval d x ^^^ 2 ^ (d - 1)).testBit k = (decide (k < d) && (x.getLsbD k != decide (k = d - 1))) := by
  rw [Nat.testBit_xor, testBit_uval, Nat.testBit_two_pow]
  by_cases hk : k < d
  · simp [hk, eq_comm (a := k)]
  · simp [hk, show d - 1 ≠ k by omega]

/-- S2U's result: zeros above the inverted bit (rule R143). -/
theorem getLsbD_zext64_toUnsigned {d : Nat} (hd : 0 < d) (h64 : d ≤ 64) (x : Word) (k : Nat) :
    (zext64 (toUnsigned d (sval d x))).getLsbD k = (decide (k < d) && (x.getLsbD k != decide (k = d - 1))) := by
  rw [sval, toUnsigned_svalNat hd (uval_lt d x), getLsbD_zext64, testBit_uval_xor_top hd]
  by_cases hk : k < d
  · simp [hk, show k < 64 by omega]
  · simp [hk]

/-- U2S's result: the inverted bit and its copies above (rule R144). -/
theorem getLsbD_ofSigned_toSigned {d : Nat} (hd : 0 < d) (x : Word) {k : Nat} (hk : k < 64) :
    (ofSigned (toSigned d (uval d x))).getLsbD k = if k < d - 1 then x.getLsbD k else !x.getLsbD (d - 1) := by
  have hu := uval_lt d x
  rw [← svalNat_xor_top hd hu, getLsbD_ofSigned_svalNat d _ k hd (xor_top_lt hd hu), testBit_uval_xor_top hd,
    testBit_uval_xor_top hd]
  obtain hlt | rfl | hgt := lt_trichotomy k (d - 1)
  · simp [hk, hlt, hlt.ne, show k < d by omega]
  · simp [hk, hd]
  · simp [hk, hd, show ¬ k < d by omega, show ¬ k < d - 1 by omega]

/-- Settles O36: both commands invert the top bit of rs, and differ in how they extend. -/
theorem signConverterInvertsTopBit : Obligations.SignConverterInvertsTopBit := by
  unfold Obligations.SignConverterInvertsTopBit
  intro s d rd rs hmem hw
  obtain ⟨hd, h64⟩ := signDepths_bounds hmem
  exact ⟨⟨_, exec_s2u_of_written hw, getLsbD_zext64_toUnsigned hd h64 (s.v rs)⟩,
    ⟨_, exec_u2s_of_written hw, fun _ hk => getLsbD_ofSigned_toSigned hd (s.v rs) hk⟩⟩

end Sys2Proof.Machine
end

section
/-! PROOFS. The packer: what UNPK and PACK of a sample in bounds do, bit by bit of the wire, and what follows of the two together
(42_pack_unpack.md rules R150 to R162). -/

namespace Sys2Proof.Machine

/-- Settles O37: the bits of an extended sample by `getLsbD_extend`. -/
theorem extendMasksAndExtends : Obligations.ExtendMasksAndExtends := by
  unfold Obligations.ExtendMasksAndExtends
  intro e x k hk
  rw [getLsbD_extend, decide_eq_true hk, Bool.true_and]

/-! ## Commands in bounds -/

/-- A sample's span always has a bit, so the check passes exactly on the spans inside the buffer (20_memory.md rule R65). -/
theorem spanLeaves_widthOf_false_iff (b bytes : Nat) (e : Encoding) :
    spanLeaves b (widthOf e) bytes = false ↔ ¬ spanOutside b (widthOf e) bytes := by
  rw [← spanLeaves_widthOf_iff, Bool.not_eq_true]

section commands
variable {s t : State} {f : WireFormat} {r : VReg}

theorem exec_unpk_in_bounds (ha : classOf f.enc = .aligned → s.ibo.toNat % 8 = 0)
    (hs : ¬ spanOutside s.ibo.toNat (widthOf f.enc) s.ibLen.toNat) :
    exec (.unpk f r) s =
      .next ((s.setIbo (s.ibo + BitVec.ofNat 64 (widthOf f.enc))).writeV r (sampleIn f s.ib s.ibo.toNat)) := by
  simp only [exec, execUnpk, finish_ok,
    unpackSample_eq f s (misaligned_false.mpr ha) ((spanLeaves_widthOf_false_iff _ _ _).mpr hs)]

theorem exec_pack_in_bounds (hw : s.vw r = true) (ha : classOf f.enc = .aligned → s.obo.toNat % 8 = 0)
    (hs : ¬ spanOutside s.obo.toNat (widthOf f.enc) s.obLen.toNat) :
    ∃ m, exec (.pack f r) s = .next ((s.setOb m).setObo (s.obo + BitVec.ofNat 64 (widthOf f.enc))) ∧
      (∀ a, a < s.obo.toNat / 8 ∨ (s.obo.toNat + widthOf f.enc - 1) / 8 < a → m.read a = s.ob.read a) ∧
      ∀ p, s.obo.toNat / 8 ≤ p / 8 → p / 8 ≤ (s.obo.toNat + widthOf f.enc - 1) / 8 →
        m.bit p = sampleBit s.ob s.obo.toNat f (s.v r) p := by
  obtain ⟨m, hm, -, hout, hbit⟩ :=
    packSample_ok f (s.v r) s (misaligned_false.mpr ha) ((spanLeaves_widthOf_false_iff _ _ _).mpr hs)
  exact ⟨m, by rw [exec_pack_of_written hw, hm, finish_ok], hout, hbit⟩

/-- A PACK that leaves the block running has passed its three checks (rule R159). -/
theorem pack_checks_of_not_halted (h : exec (.pack f r) s = .next t) (ht : t.halted = false) :
    s.vw r = true ∧ (classOf f.enc = .aligned → s.obo.toNat % 8 = 0) ∧
      ¬ spanOutside s.obo.toNat (widthOf f.enc) s.obLen.toNat := by
  have not_raised (g : BlockFault) : exec (.pack f r) s ≠ .next (s.raise g) := by
    intro hg
    rw [hg] at h
    cases h
    cases ht
  have hw : s.vw r = true := by
    rw [← Bool.not_eq_false]
    exact fun hw => not_raised _ (exec_unwritten (.pack f r) r s rfl hw)
  have ha : misaligned f.enc s.obo = false := by
    rw [← Bool.not_eq_true]
    exact fun ha => not_raised _ (by rw [exec_pack_of_written hw, packSample_misaligned f _ s ha, finish_error])
  have hs : spanLeaves s.obo.toNat (widthOf f.enc) s.obLen.toNat = false := by
    rw [← Bool.not_eq_true]
    exact fun hs => not_raised _ (by rw [exec_pack_of_written hw, packSample_outside f _ s ha hs, finish_error])
  exact ⟨hw, misaligned_false.mp ha, (spanLeaves_widthOf_false_iff _ _ _).mp hs⟩

end commands

/-- Settles O38: the two updates of `exec_unpk_in_bounds` are the record of the statement. -/
theorem unpkReadsSample : Obligations.UnpkReadsSample := by
  unfold Obligations.UnpkReadsSample
  intro s f rd ha hs
  rw [exec_unpk_in_bounds ha hs]
  rfl

/-! ## The bits of a packed sample -/

section bits
variable (m : Memory) (b : Nat) (f : WireFormat) (v : Word)

/-- Inside its span a sample has the container's bits in wire order. -/
theorem sampleBit_span {q : Nat} (hq : q < widthOf f.enc) :
    sampleBit m b f v (b + q) =
      ((uval (depthOf f.enc) v).testBit (wireOffset (widthOf f.enc) (resolveEndian f.endian) q) ||
        (decide (b % 8 ≠ 0 ∧ (b + q) / 8 = b / 8) && m.bit (b + q))) := by
  simp [sampleBit, hq]

/-- Container bit k at its wire offset: the value's bit below the depth, zero padding above (rule R152). -/
theorem sampleBit_wireOffset {k : Nat} (hk : k < widthOf f.enc) :
    sampleBit m b f v (b + wireOffset (widthOf f.enc) (resolveEndian f.endian) k) =
      ((decide (k < depthOf f.enc) && v.getLsbD k) ||
        (decide (b % 8 ≠ 0 ∧ (b + wireOffset (widthOf f.enc) (resolveEndian f.endian) k) / 8 = b / 8) &&
          m.bit (b + wireOffset (widthOf f.enc) (resolveEndian f.endian) k))) := by
  rw [sampleBit_span m b f v (wireOffset_lt _ _ _ hk), wireOffset_wireOffset _ _ _ hk, testBit_uval]

theorem sampleBit_before {p : Nat} (hp : p < b) :
    sampleBit m b f v p = (decide (b % 8 ≠ 0 ∧ p / 8 = b / 8) && m.bit p) := by
  simp [sampleBit, not_le.mpr hp]

end bits

/-- Settles O39: `sampleBit` at a wire offset and on either side of the span. -/
theorem packWritesSample : Obligations.PackWritesSample := by
  unfold Obligations.PackWritesSample
  intro s f rs hw ha hs b w e
  obtain ⟨m, hm, hout, hbit⟩ := exec_pack_in_bounds hw ha hs
  refine ⟨m, hm, fun k hk => ?_, fun p hp h1 h2 => ?_, hout⟩
  · have hoff : wireOffset w e k < w := wireOffset_lt w e k hk
    rw [hbit _ (by omega) (by omega), sampleBit_wireOffset _ _ _ _ hk]
  · rw [hbit p h1 h2]
    obtain hbefore | hafter := hp
    · exact sampleBit_before _ _ _ _ hbefore
    · exact sampleBit_past _ _ _ _ _ hafter

/-! ## Round trip -/

/-- Within a pass no old bit shows in the span of the next sample: nothing is ORed into a byte entered at its bit 0, and the rest
of a byte entered inside is 0 (40_bit_cursor.md rule R128). -/
theorem sampleBit_of_passClean {s : State} (hs : s.passClean) (f : WireFormat) (v : Word) {q : Nat}
    (hq : q < widthOf f.enc) :
    sampleBit s.ob s.obo.toNat f v (s.obo.toNat + q) =
      (uval (depthOf f.enc) v).testBit (wireOffset (widthOf f.enc) (resolveEndian f.endian) q) := by
  have hold : (decide (s.obo.toNat % 8 ≠ 0 ∧ (s.obo.toNat + q) / 8 = s.obo.toNat / 8) &&
      s.ob.bit (s.obo.toNat + q)) = false := by
    rw [Bool.and_eq_false_imp, decide_eq_true_iff]
    exact fun ⟨hne, hbyte⟩ => hs hne _ (Nat.le_add_right _ _) hbyte
  rw [sampleBit_span _ _ _ _ hq, hold, Bool.or_false]

/-- PACK in bounds and within a pass: OB holds the container in wire order, and nothing else in the span. -/
theorem exec_pack_in_pass {s : State} {f : WireFormat} {r : VReg} (hw : s.vw r = true) (hclean : s.passClean)
    (ha : classOf f.enc = .aligned → s.obo.toNat % 8 = 0)
    (hs : ¬ spanOutside s.obo.toNat (widthOf f.enc) s.obLen.toNat) :
    ∃ m, exec (.pack f r) s = .next ((s.setOb m).setObo (s.obo + BitVec.ofNat 64 (widthOf f.enc))) ∧
      ∀ q, q < widthOf f.enc → m.bit (s.obo.toNat + q) =
        (uval (depthOf f.enc) (s.v r)).testBit (wireOffset (widthOf f.enc) (resolveEndian f.endian) q) := by
  obtain ⟨m, hm, -, hbit⟩ := exec_pack_in_bounds hw ha hs
  refine ⟨m, hm, fun q hq => ?_⟩
  rw [hbit _ (by omega) (by omega), sampleBit_of_passClean hclean f _ hq]

theorem uval_depth_lt_two_pow_width (e : Encoding) (v : Word) : uval (depthOf e) v < 2 ^ widthOf e :=
  lt_of_lt_of_le (uval_lt _ _) (Nat.pow_le_pow_right (by decide) (depthOf_le_widthOf e))

/-- The low D bits of a canonical value are all of it (10_state.md rule R22). -/
theorem extend_uval_of_canonical {e : Encoding} {v : Word} (h : canonical e v) : extend e (uval (depthOf e) v) = v := by
  refine Eq.trans (extend_congr e _ _ fun j hj => ?_) h
  rw [testBit_uval, decide_eq_true hj, Bool.true_and]
  rfl

/-- Settles O40: OB holds the container's bits and nothing else in the span, so the same bits in IB are the value's sample. -/
theorem packUnpackRoundTrip : Obligations.PackUnpackRoundTrip := by
  unfold Obligations.PackUnpackRoundTrip
  intro s u f rs rd hw hcan hclean ha hs hcur hsu
  have hpos := widthOf_pos f.enc
  have hin := (spanOutside_iff _ _ _ (by omega)).not.mp hs
  have hadd := cursor_add s.obo _ (span_end_le _ _ _ (not_le.mp hin))
  obtain ⟨m, hm, hbit⟩ := exec_pack_in_pass hw hclean ha hs
  refine ⟨_, hm, hadd, fun hcopy => ⟨_, exec_unpk_in_bounds (by rwa [hcur]) hsu, ?_, by rw [hcur]; exact hadd⟩⟩
  rw [State.writeV_v_same, hcur, sampleIn_of_bits f u.ib _ _ (uval_depth_lt_two_pow_width f.enc (s.v rs)), extend_uval_of_canonical hcan]
  intro q hq
  have hsame : u.ib.bit (s.obo.toNat + q) = m.bit (s.obo.toNat + q) :=
    Memory.bit_congr _ _ _ (hcopy _ (by omega) (by omega))
  rw [hsame, hbit q hq]

/-! ## Padding -/

theorem classOf_of_padded {e : Encoding} (h : depthOf e < widthOf e) : classOf e = .aligned := by
  cases hc : classOf e with
  | aligned => rfl
  | packed => exact absurd (widthOf_packed e hc).2 h.ne'

/-- Settles O41: a padded format is of the aligned class, so PACK starts at a byte boundary, where a pass may begin. -/
theorem paddingIsZeroOnTheWire : Obligations.PaddingIsZeroOnTheWire := by
  unfold Obligations.PaddingIsZeroOnTheWire
  intro s t f rs hpad h _ ht k hdk hkw
  obtain ⟨hw, ha, hs⟩ := pack_checks_of_not_halted h ht
  obtain ⟨m, hm, hbit⟩ := exec_pack_in_pass hw (passClean_of_byte_boundary (ha (classOf_of_padded hpad))) ha hs
  rw [hm] at h
  cases h
  simp only [State.setObo_ob, State.setOb_ob]
  rw [hbit _ (wireOffset_lt _ _ _ hkw), wireOffset_wireOffset _ _ _ hkw, testBit_uval, decide_eq_false (not_lt.mpr hdk),
    Bool.false_and]

/-! ## Endian swap -/

theorem Memory.getLsbD_read (m : Memory) (a : Nat) {k : Nat} (hk : k < 8) :
    (m.read a).getLsbD k = m.bit (8 * a + (7 - k)) := by
  rw [Memory.bit, show (8 * a + (7 - k)) / 8 = a by omega, show 7 - (8 * a + (7 - k)) % 8 = k by omega]

theorem resolveEndian_big : resolveEndian .big = .big := rfl

theorem resolveEndian_little : resolveEndian .little = .little := rfl

/-- Big reverses the bits of the whole container. -/
theorem wireOffset_big_octet {w j k : Nat} (h8 : w % 8 = 0) (hj : j < w / 8) (hk : k < 8) :
    wireOffset w .big (8 * j + k) = 8 * (w / 8 - 1 - j) + (7 - k) := by
  simp only [wireOffset]
  omega

/-- Little reverses the bits of each octet in place. -/
theorem wireOffset_little_octet {w j k : Nat} (hj : j < w / 8) (hk : k < 8) :
    wireOffset w .little (8 * j + k) = 8 * j + (7 - k) := by
  rw [wireOffset, if_pos (by omega)]
  omega

/-- Below the depth a sample's bits are those of the wire. -/
theorem getLsbD_sampleIn (f : WireFormat) (m : Memory) (b : Nat) {c : Nat} (hc : c < depthOf f.enc) :
    (sampleIn f m b).getLsbD c = m.bit (b + wireOffset (widthOf f.enc) (resolveEndian f.endian) c) := by
  have hw := depthOf_le_widthOf f.enc
  have h64 := depthOf_le f.enc
  rw [sampleIn, getLsbD_extend, testBit_numberOfBits]
  simp [hc, show c < 64 by omega, show c < widthOf f.enc by omega]

/-- UNPK in one byte order and PACK in another, at byte boundaries: bit q of the output is container bit c, which lies in the input
at its own offset in the input's order; padding is zero. -/
theorem unpk_pack_wire {s : State} {e : Encoding} (r : VReg) (d d' : EndianCode)
    (hib : s.ibo.toNat % 8 = 0) (hob : s.obo.toNat % 8 = 0)
    (hsi : ¬ spanOutside s.ibo.toNat (widthOf e) s.ibLen.toNat)
    (hso : ¬ spanOutside s.obo.toNat (widthOf e) s.obLen.toNat) :
    ∃ t u, exec (.unpk ⟨e, d⟩ r) s = .next t ∧ exec (.pack ⟨e, d'⟩ r) t = .next u ∧
      ∀ q c, q < widthOf e → wireOffset (widthOf e) (resolveEndian d') q = c →
        u.ob.bit (s.obo.toNat + q) =
          (decide (c < depthOf e) && s.ib.bit (s.ibo.toNat + wireOffset (widthOf e) (resolveEndian d) c)) := by
  have hunpk := exec_unpk_in_bounds (f := ⟨e, d⟩) (r := r) (fun _ => hib) hsi
  generalize ht : (s.setIbo _).writeV r _ = t at hunpk
  have hw : t.vw r = true := by simp [← ht]
  have hv : t.v r = sampleIn ⟨e, d⟩ s.ib s.ibo.toNat := by simp [← ht]
  have hobo : t.obo = s.obo := by simp [← ht]
  have hlen : t.obLen = s.obLen := by simp [← ht]
  rw [← hobo] at hob hso ⊢
  rw [← hlen] at hso
  obtain ⟨m, hm, hbit⟩ :=
    exec_pack_in_pass (f := ⟨e, d'⟩) hw (passClean_of_byte_boundary hob) (fun _ => hob) hso
  refine ⟨t, _, hunpk, hm, ?_⟩
  rintro q c hq rfl
  rw [hv] at hbit
  simp only [State.setObo_ob, State.setOb_ob]
  rw [hbit q hq, testBit_uval]
  by_cases hc : wireOffset (widthOf e) (resolveEndian d') q < depthOf e
  · rw [getLsbD_sampleIn _ _ _ hc]
  · simp [hc]

/-- Settles O42: either byte order reverses the bits of an octet, and Big alone reverses the octets, so container bit and input bit
of an output bit follow by `wireOffset_big_octet` and `wireOffset_little_octet`. -/
theorem endianSwapReversesOctets : Obligations.EndianSwapReversesOctets := by
  unfold Obligations.EndianSwapReversesOctets
  intro s e r d d' hcls hends hib hob hsi hso n
  have h8 := widthOf_aligned e hcls
  obtain ⟨t, u, ht, hu, hbits⟩ := unpk_pack_wire r d d' hib hob hsi hso
  refine ⟨t, u, ht, hu, fun j hj k hk => ?_⟩
  have hj' : n - 1 - j < n := by omega
  have hout : 8 * (s.obo.toNat / 8 + j) + (7 - k) = s.obo.toNat + (8 * j + (7 - k)) := by omega
  have hin : 8 * (s.ibo.toNat / 8 + (n - 1 - j)) + (7 - k) = s.ibo.toNat + (8 * (n - 1 - j) + (7 - k)) := by omega
  rw [Memory.getLsbD_read _ _ hk, Memory.getLsbD_read _ _ hk, hout, hin]
  obtain ⟨rfl, rfl⟩ | ⟨rfl, rfl⟩ := hends
  · have hc : wireOffset (widthOf e) .little (8 * j + (7 - k)) = 8 * j + k := by
      rw [wireOffset_little_octet hj (by omega)]
      omega
    rw [hbits _ _ (by omega) hc, resolveEndian_big, wireOffset_big_octet h8 hj hk, if_pos rfl]
  · have hc : wireOffset (widthOf e) .big (8 * j + (7 - k)) = 8 * (n - 1 - j) + k := by
      rw [wireOffset_big_octet h8 hj (by omega)]
      omega
    rw [hbits _ _ (by omega) hc, resolveEndian_little, wireOffset_little_octet hj' hk, if_neg (by decide)]

end Sys2Proof.Machine
end

section
/-! PROOFS. The encoding converter on integers: the command CVT, the rescaler in both domains, and the identity of an encoding with
itself (43_convert.md rules R180 to R186 and R191 to R193). -/

namespace Sys2Proof.Machine

/-! ## Command -/

theorem exec_cvt_of_written {s : State} {a b : Encoding} {rd rs : VReg} (h : s.vw rs = true) :
    exec (.cvt a b rd rs) s = .next (s.writeV rd (convert a b (s.v rs))) := by
  simp only [exec, execCvt, readSource_ok s rs h, finish_ok]

/-- Settles O43: the command is one register write, of a canonical value that reads the source's low bits. -/
theorem cvtWritesConvertedValue : Obligations.CvtWritesConvertedValue := by
  unfold Obligations.CvtWritesConvertedValue
  intro s a b rd rs hw
  exact ⟨exec_cvt_of_written hw, canonical_convert a b _, fun v hv => convert_congr_low a b v _ hv⟩

/-! ## Rescaler -/

/-- The bias and the exact shift of the narrowing round to nearest, ties toward plus infinity (rule R184). -/
theorem floor_half_eq_biased_shift (x : Int) {k : Nat} (hk : 0 < k) :
    ⌊(x : ℚ) / 2 ^ k + 1 / 2⌋ = (x + 2 ^ (k - 1)) / 2 ^ k := by
  have hpow : (2 : ℚ) ^ k = 2 * 2 ^ (k - 1) := by exact_mod_cast two_pow_pred k hk
  have hq : (x : ℚ) / 2 ^ k + 1 / 2 = ((x + 2 ^ (k - 1) : Int) : ℚ) / ((2 ^ k : Nat) : ℚ) := by
    push_cast
    rw [hpow]
    field_simp
  rw [hq, Rat.floor_intCast_div_natCast]
  push_cast
  rfl

theorem rescale_of_le {ds dd : Nat} (x : Int) (h : ds ≤ dd) : rescale ds dd x = x * 2 ^ (dd - ds) := by
  rw [rescale, if_pos h, widen]

theorem rescale_of_lt {ds dd : Nat} (x : Int) (h : dd < ds) : rescale ds dd x = narrow ds dd x := by
  rw [rescale, if_neg (Nat.not_le.mpr h)]

theorem rescale_self (d : Nat) (x : Int) : rescale d d x = x := by
  rw [rescale_of_le x (Nat.le_refl d), Nat.sub_self, pow_zero, mul_one]

/-- Half the range of the greater depth is half that of the smaller one times the scale. -/
theorem two_pow_pred_split {d e : Nat} (hd : 0 < d) (h : d ≤ e) : (2 : Int) ^ (e - 1) = 2 ^ (d - 1) * 2 ^ (e - d) := by
  rw [← pow_add]
  congr 1
  omega

/-- A widened value keeps the scale's distance from the end of the range (rule R183). -/
theorem widen_le {ds dd : Nat} {x : Int} (h0 : 0 < ds) (hle : ds ≤ dd) (h : inSigned ds x) :
    x * 2 ^ (dd - ds) ≤ 2 ^ (dd - 1) - 1 - (2 ^ (dd - ds) - 1) := by
  have hx : x + 1 ≤ 2 ^ (ds - 1) := h.2
  have hmul := mul_le_mul_of_nonneg_right hx (by positivity : (0 : Int) ≤ 2 ^ (dd - ds))
  rw [add_mul, one_mul, ← two_pow_pred_split h0 hle] at hmul
  omega

/-- Settles O44: in the signed domains the conversion is the rescale, whose biased shift is a rounding. -/
theorem integerConversionRescales : Obligations.IntegerConversionRescales := by
  unfold Obligations.IntegerConversionRescales
  intro a b v ha hb x y
  have hpa := depthOf_pos a
  have hpb := depthOf_pos b
  have hx : inSigned (depthOf a) x := signedDomain_range a v
  have hy : y = rescale (depthOf a) (depthOf b) x := signedDomain_convert a b v ha hb
  refine ⟨canonical_convert a b v, fun hle => ?_, fun hlt => ?_⟩
  · rw [hy, rescale_of_le x hle]
    exact ⟨rfl, (widen_range _ _ x (by omega) hle hx).1, widen_le (by omega) hle hx⟩
  · rw [hy, rescale_of_lt x hlt, floor_half_eq_biased_shift x (by omega)]
    exact ⟨rfl, (narrow_range _ _ x (by omega) hlt hx).1.trans (min_le_left _ _)⟩

/-- Widening in the unsigned domain (rule R186). -/
theorem toUnsigned_widen {ds dd : Nat} {x : Int} (h0 : 0 < ds) (hle : ds ≤ dd) (h : inSigned ds x) :
    toUnsigned ds x * 2 ^ (dd - ds) = toUnsigned dd (widen ds dd x) := by
  zify
  rw [toUnsigned_eq ds x h0 h, toUnsigned_eq dd _ (by omega) (widen_range ds dd x h0 hle h), widen,
    two_pow_pred_split h0 hle, add_mul]

/-- Narrowing in the unsigned domain: the offset is a multiple of the scale, so it passes through the shift (rule R186). -/
theorem toUnsigned_narrow {ds dd : Nat} {x : Int} (h0 : 0 < dd) (hlt : dd < ds) (h : inSigned ds x) :
    min ((toUnsigned ds x + 2 ^ (ds - dd - 1)) / 2 ^ (ds - dd)) (2 ^ dd - 1) = toUnsigned dd (narrow ds dd x) := by
  have hshift : (x + 2 ^ (ds - 1) + 2 ^ (ds - dd - 1)) / 2 ^ (ds - dd) =
      (x + 2 ^ (ds - dd - 1)) / 2 ^ (ds - dd) + 2 ^ (dd - 1) := by
    rw [add_right_comm, two_pow_pred_split h0 hlt.le, Int.add_mul_ediv_right _ _ (by positivity)]
  have hlimit : (2 : Int) ^ dd - 1 = 2 ^ (dd - 1) - 1 + 2 ^ (dd - 1) := by
    rw [two_pow_pred dd h0]
    ring
  zify [Nat.one_le_two_pow (n := dd)]
  rw [toUnsigned_eq ds x (by omega) h, toUnsigned_eq dd _ h0 (narrow_range ds dd x h0 hlt h), narrow, maxSigned,
    hshift, hlimit, min_add_add_right]

/-- The narrowing clips from `2^(Ds-1) - 2^(k-1)` on (rule R186). -/
theorem narrow_clips_iff {ds dd : Nat} (x : Int) (h0 : 0 < dd) (hlt : dd < ds) :
    2 ^ (dd - 1) - 1 < (x + 2 ^ (ds - dd - 1)) / 2 ^ (ds - dd) ↔ 2 ^ (ds - 1) - 2 ^ (ds - dd - 1) ≤ x := by
  rw [Int.sub_one_lt_iff, Int.le_ediv_iff_mul_le (by positivity), ← two_pow_pred_split h0 hlt.le, tsub_le_iff_right]

theorem signDepths_gap {d e : Nat} (hd : d ∈ signDepths) (he : e ∈ signDepths) (h : d < e) : 2 ≤ e - d := by
  have hall : ∀ j ∈ signDepths, ∀ k ∈ signDepths, j < k → 2 ≤ k - j := by decide
  exact hall d hd e he h

theorem fromSigned_congr {a b : Encoding} (hk : kindOf a = kindOf b) (hd : depthOf a = depthOf b) (r : Int) :
    fromSigned a r = fromSigned b r := by
  rw [fromSigned, fromSigned, hk, hd]

theorem isInteger_congr {a b : Encoding} (hk : kindOf a = kindOf b) : isInteger a = isInteger b := by
  rw [isInteger, isInteger, hk]

/-- Between integer encodings of one depth and kind, conversion gives the canonical value (rule R186). -/
theorem convert_of_same_layout {a b : Encoding} (v : Word) (ha : isInteger a = true) (hk : kindOf a = kindOf b)
    (hd : depthOf a = depthOf b) : convert a b v = extend a v.toNat := by
  rw [convert_int a b v ha (isInteger_congr hk ▸ ha), intToInt, ← hd, rescale_self, ← fromSigned_congr hk hd,
    fromSigned_signedDomain a v ha]

/-- Settles O45: the offset of half a range commutes with the shift in both directions. -/
theorem rescaleEquivalences : Obligations.RescaleEquivalences := by
  unfold Obligations.RescaleEquivalences
  refine ⟨fun ds hds dd hdd x hlo hhi => ?_, fun a b v ha hk hd => convert_of_same_layout v ha hk hd⟩
  have hs := (signDepths_bounds hds).1
  have hd := (signDepths_bounds hdd).1
  have hx : inSigned ds x := ⟨hlo, Int.lt_of_le_sub_one hhi⟩
  refine ⟨fun hle => ?_, fun hlt => ?_⟩
  · rw [rescale_of_le x hle]
    exact toUnsigned_widen hs hle hx
  · rw [rescale_of_lt x hlt]
    exact ⟨toUnsigned_narrow hd hlt hx, narrow_clips_iff x hd hlt, signDepths_gap hdd hds hlt⟩

/-- Settles O46: in the signed domain narrowing undoes widening, by `narrow_widen`. -/
theorem wideningIsLossless : Obligations.WideningIsLossless := by
  unfold Obligations.WideningIsLossless
  intro a b v ha hb hlt hv
  rw [convert_int b a _ hb ha, intToInt, signedDomain_convert a b v ha hb, rescale_of_le _ hlt.le, rescale_of_lt _ hlt]
  have hback := narrow_widen (depthOf a) (depthOf b) _ hlt (signedDomain_range a v)
  rw [widen] at hback
  rw [hback, fromSigned_signedDomain a v ha]
  exact hv

/-! ## Same encoding -/

theorem uval_64 (v : Word) : uval 64 v = v.toNat := Nat.mod_eq_of_lt v.isLt

theorem convert_float_self (e : Encoding) (v : Word) (h : isInteger e = false) :
    convert e e v = zext64 (uval (depthOf e) v) := by
  simp [convert, h]

/-- Settles O50: a float keeps its pattern, and an integer encoding has its own depth and kind. -/
theorem sameEncodingIsIdentity : Obligations.SameEncodingIsIdentity := by
  unfold Obligations.SameEncodingIsIdentity
  refine ⟨fun v => ⟨?_, ?_⟩, fun e v he => ?_⟩
  · rw [convert_float_self .f64 v rfl, depthOf, uval_64, zext64, BitVec.ofNat_toNat, BitVec.setWidth_eq]
  · rw [convert_float_self .f32 v rfl]
    apply BitVec.eq_of_toNat_eq
    simp [zext64, uval, depthOf]
  · have h := convert_of_same_layout v he rfl rfl
    exact ⟨h, fun hv => h.trans hv⟩

end Sys2Proof.Machine
end

section
/-! PROOFS. The encoding converter on floats: to and from integers, and changes of width (43_convert.md rules R187 to R190). -/

namespace Sys2Proof.Machine

/-! ## Float to integer -/

theorem truncRat_signFactor_mul (neg : Bool) {q : ℚ} (hq : 0 ≤ q) :
    truncRat (signFactor neg * q) = if neg then -⌊q⌋ else ⌊q⌋ := by
  cases neg
  · simp [truncRat, signFactor, hq]
  · rcases hq.eq_or_lt with rfl | hpos
    · simp [truncRat]
    · simp [truncRat, signFactor, not_le.mpr hpos, Int.ceil_neg]

theorem toRat_scaled (neg : Bool) (m : Nat) (e : Int) (k : Nat) :
    (FloatVal.finite neg m e).toRat * 2 ^ k = signFactor neg * ((m : ℚ) * (2 : ℚ) ^ (e + k)) := by
  rw [toRat_signed, zpow_add₀ (by norm_num), zpow_natCast, mul_assoc, mul_assoc]

/-- A finite float is scaled, clipped to the range and truncated toward zero (rule R187). -/
theorem floatToSigned_finite (D : Nat) {x : FloatVal} (h : x.isFinite = true) :
    ((2 : ℚ) ^ (D - 1) ≤ x.toRat * 2 ^ (D - 1) → floatToSigned D x = 2 ^ (D - 1) - 1) ∧
      (x.toRat * 2 ^ (D - 1) ≤ -2 ^ (D - 1) → floatToSigned D x = -2 ^ (D - 1)) ∧
      (-2 ^ (D - 1) < x.toRat * 2 ^ (D - 1) → x.toRat * 2 ^ (D - 1) < 2 ^ (D - 1) →
        floatToSigned D x = truncRat (x.toRat * 2 ^ (D - 1))) := by
  cases x with
  | nan => cases h
  | inf neg => cases h
  | finite neg m e =>
    have hclip : 2 ^ (D - 1) ≤ floorScale m (e + (D - 1 : Nat)) ↔
        (2 : ℚ) ^ (D - 1) ≤ (m : ℚ) * (2 : ℚ) ^ (e + (D - 1 : Nat)) := by
      zify
      rw [floorScale_eq_floor, Int.le_floor]
      push_cast
      rfl
    have hq : 0 ≤ (m : ℚ) * (2 : ℚ) ^ (e + (D - 1 : Nat)) := by positivity
    have hp : (0 : ℚ) < 2 ^ (D - 1) := by positivity
    simp only [toRat_scaled, truncRat_signFactor_mul neg hq, floatToSigned, hclip, floorScale_eq_floor]
    generalize (m : ℚ) * (2 : ℚ) ^ (e + (D - 1 : Nat)) = q at hq ⊢
    cases neg
    · simp only [signFactor, Bool.false_eq_true, if_false, one_mul]
      exact ⟨fun hle => if_pos hle, fun hle => absurd hle (by linarith), fun _ hlt => if_neg (not_le.mpr hlt)⟩
    · simp only [signFactor, if_true, neg_one_mul, neg_le_neg_iff, neg_lt_neg_iff]
      exact ⟨fun hle => absurd hle (by linarith), fun hle => if_pos hle, fun hlt _ => if_neg (not_le.mpr hlt)⟩

theorem convert_float_int {a b : Encoding} (v : Word) (ha : isInteger a = false) (hb : isInteger b = true) :
    convert a b v = fromSigned b (floatToSigned (depthOf b) (floatOf a v)) := by
  simp [convert, ha, hb, floatToInt]

theorem floatOf_eq {a : Encoding} (v : Word) (ha : isInteger a = false) :
    floatOf a v = if a = .f32 then binary32.value (v.toNat % 2 ^ 32) else binary64.value v.toNat := by
  obtain ⟨rfl | rfl, -⟩ := kind_of_not_integer a ha
  · rfl
  · rw [if_neg (by decide), ← uval_64 v]
    rfl

/-- Settles O47: the signed domain reads back `floatToSigned`, whose finite case is `floatToSigned_finite`. -/
theorem floatToIntegerClipsAndTruncates : Obligations.FloatToIntegerClipsAndTruncates := by
  unfold Obligations.FloatToIntegerClipsAndTruncates
  intro a b v ha hb x p d r
  have hr : r = floatToSigned (depthOf b) x := by
    simp only [r, x]
    rw [convert_float_int v ha hb, signedDomain_fromSigned b _ hb (floatToSigned_range _ _), floatOf_eq v ha]
  have hp : (p : ℚ) = 2 ^ (depthOf b - 1) := by simp [p]
  rw [hr]
  simp only [d, hp]
  refine ⟨canonical_convert a b v, fun hx => ?_, fun hx => ?_, fun hx => ?_, floatToSigned_finite _⟩
  · rw [hx, floatToSigned]
  · rw [hx]
    rfl
  · rw [hx]
    rfl

/-! ## Integer to float -/

theorem convert_int_f64 {a : Encoding} (v : Word) (ha : isInteger a = true) :
    convert a .f64 v = zext64 (toBinary64 ((intRound64 (signedDomain a v)).scale (-(depthOf a - 1 : Nat)))) := by
  simp [convert, ha, show isInteger .f64 = false from rfl, intToFloat, kindOf]

theorem convert_int_f32 {a : Encoding} (v : Word) (ha : isInteger a = true) :
    convert a .f32 v = zext64 (toBinary32 ((intRound64 (signedDomain a v)).scale (-(depthOf a - 1 : Nat)))) := by
  simp [convert, ha, show isInteger .f32 = false from rfl, intToFloat, kindOf]

/-- An integer as a sign and a magnitude. -/
theorem signFactor_mul_natAbs (x : Int) : signFactor (decide (x < 0)) * (x.natAbs : ℚ) = x := by
  rw [Nat.cast_natAbs]
  by_cases hx : x < 0
  · simp [signFactor, hx, abs_of_neg hx]
  · simp [signFactor, hx, abs_of_nonneg (not_lt.mp hx)]

/-- An integer of at most 53 bits is a binary64 number (rule R189). -/
theorem intRound64_exact {x : Int} (h : |x| < 2 ^ 53) : (intRound64 x).toRat = x := by
  have hn : x.natAbs < 2 ^ (binary64.fracBits + 1) := by
    zify
    exact h
  have hexact := (value_round_exact binary64 (decide (x < 0)) x.natAbs 0 x.natAbs 0 (by decide) hn (by decide) (by decide)
    rfl).2
  rw [zpow_zero, mul_one, signFactor_mul_natAbs] at hexact
  exact hexact

/-- Rounding does not pass a number of the format that has its negative in the format too. -/
theorem abs_le_of_rounds {f : FloatFormat} {x B : ℚ} {y : Nat} (h : f.Rounds x y) (hov : |x| < f.overflow)
    (hB : ∀ neg, ∃ c, (f.value c).isFinite = true ∧ (f.value c).toRat = signFactor neg * B) (hx : |x| ≤ B) :
    |(f.value y).toRat| ≤ B := by
  obtain ⟨hlo, hhi⟩ := abs_le.mp hx
  obtain ⟨c, hc, hcB⟩ := hB false
  obtain ⟨c', hc', hcB'⟩ := hB true
  have hpos := h.nearest hov c hc
  have hneg := h.nearest hov c' hc'
  rw [hcB, signFactor, if_neg (by decide), one_mul, abs_of_nonneg (by linarith : 0 ≤ B - x)] at hpos
  rw [hcB', signFactor, if_pos rfl, neg_one_mul, abs_of_nonpos (by linarith : -B - x ≤ 0)] at hneg
  have h1 := le_abs_self ((f.value y).toRat - x)
  have h2 := neg_abs_le ((f.value y).toRat - x)
  exact abs_le.mpr ⟨by linarith, by linarith⟩

/-- A power of two below 2^64 and its negative are binary64 numbers. -/
theorem two_pow_is_binary64 {k : Nat} (hk : k < 64) (neg : Bool) :
    ∃ c, (binary64.value c).isFinite = true ∧ (binary64.value c).toRat = signFactor neg * (2 : ℚ) ^ k := by
  have hmin : binary64.minExp ≤ k := le_trans (by decide : binary64.minExp ≤ 0) (Int.natCast_nonneg k)
  have hmax : (k : Int) + binary64.fracBits ≤ 2 ^ (binary64.expBits - 1) - 1 :=
    le_trans (by omega : (k : Int) + binary64.fracBits ≤ 64 + binary64.fracBits) (by decide)
  obtain ⟨hfin, hval⟩ := value_round_exact binary64 neg 1 k 1 k (by decide) (by decide) hmin hmax rfl
  rw [Nat.cast_one, one_mul, zpow_natCast] at hval
  exact ⟨_, hfin, hval⟩

theorem two_pow_63_lt_overflow : (2 : ℚ) ^ 63 < binary64.overflow := by
  have hexp : (2 : ℚ) ^ (20 : Int) ≤ (2 : ℚ) ^ (binary64.minExp + (2 ^ binary64.expBits - 3)) :=
    zpow_le_zpow_right₀ (by norm_num) (by decide)
  rw [FloatFormat.overflow, show binary64.fracBits = 52 from rfl]
  norm_num at hexp ⊢
  linarith

/-- Rounding to binary64 stays within a power of two that bounds the integer. -/
theorem abs_intRound64_le {x : Int} {k : Nat} (hk : k < 64) (hx : |x| ≤ 2 ^ k) : |(intRound64 x).toRat| ≤ 2 ^ k := by
  have hx63 : |x| ≤ 2 ^ 63 := hx.trans (pow_le_pow_right₀ (by norm_num) (by omega))
  refine abs_le_of_rounds (intRound64_spec x hx63).1 (lt_of_le_of_lt ?_ two_pow_63_lt_overflow) (two_pow_is_binary64 hk) ?_
  · exact_mod_cast hx63
  · exact_mod_cast hx

theorem abs_signedDomain_le (e : Encoding) (v : Word) : |signedDomain e v| ≤ 2 ^ (depthOf e - 1) :=
  abs_le.mpr ⟨(signedDomain_range e v).1, (signedDomain_range e v).2.le⟩

/-- Settles O48: one rounding to binary64, a scaling that is exact there, and the rounding to binary32 of what it gives. -/
theorem integerToFloatRoundsTwice : Obligations.IntegerToFloatRoundsTwice := by
  unfold Obligations.IntegerToFloatRoundsTwice
  intro a v ha
  have hk : depthOf a - 1 < 64 := by
    have := depthOf_le a
    omega
  have hx := abs_signedDomain_le a v
  have hx63 : |signedDomain a v| ≤ 2 ^ 63 := hx.trans (pow_le_pow_right₀ (by norm_num) (by omega))
  rw [convert_int_f64 v ha, convert_int_f32 v ha]
  generalize signedDomain a v = x at hx hx63 ⊢
  obtain ⟨hy, neg, m, e, hval, hscale⟩ := intRound64_spec x hx63
  obtain ⟨hfin, hquot⟩ := hscale _ hk
  have hnarrow : (intRound64 x).toRat / 2 ^ (depthOf a - 1) =
      signFactor neg * ((m : ℚ) * (2 : ℚ) ^ (e - (depthOf a - 1 : Nat))) := by
    rw [hval, toRat_signed, zpow_sub₀ (by norm_num), zpow_natCast]
    ring
  refine ⟨_, binary64.round neg m (e - (depthOf a - 1 : Nat)), binary32.round neg m (e - (depthOf a - 1 : Nat)), hy,
    fun hd => ?_, ?_, round_lt _ _ _ _, hfin, hquot, ?_, ?_, round_lt _ _ _ _, ?_⟩
  · exact intRound64_exact (lt_of_le_of_lt hx (pow_lt_pow_right₀ (by norm_num) (by omega)))
  · rw [hval]
    rfl
  · rw [hquot, abs_div, abs_of_pos (by positivity : (0 : ℚ) < 2 ^ (depthOf a - 1)), div_le_one (by positivity)]
    exact abs_intRound64_le hk hx
  · rw [hval]
    rfl
  · change binary32.Rounds ((intRound64 x).toRat / _) _
    rw [hnarrow]
    exact round_rounds binary32 neg m _ (by decide) (by decide)

/-! ## Change of float width -/

/-- A rounded number that is finite keeps its sign. -/
theorem value_round_sign {f : FloatFormat} {neg : Bool} {m : Nat} {e : Int}
    (h : (f.value (f.round neg m e)).isFinite = true) : ∃ m' e', f.value (f.round neg m e) = .finite neg m' e' := by
  rw [FloatFormat.round, value_withSign f neg _ (lt_of_le_of_lt (roundMag_le f m e) (infMag_lt f))] at h ⊢
  split_ifs at h ⊢
  · cases h
  · cases h
  · exact ⟨_, _, rfl⟩
  · exact ⟨_, _, rfl⟩

/-- Every finite binary32 number is a binary64 number (rule R190). -/
theorem round_binary64_of_binary32 {b : Nat} {neg : Bool} {m : Nat} {e : Int}
    (h : binary32.value b = .finite neg m e) :
    (binary64.value (binary64.round neg m e)).isFinite = true ∧
      (binary64.value (binary64.round neg m e)).toRat = (FloatVal.finite neg m e).toRat := by
  obtain ⟨hm, hlo⟩ := value_finite_form binary32 b neg m e h
  have hhi := value_exp_le binary32 b neg m e (by decide) h
  have hmin : binary64.minExp ≤ binary32.minExp := by decide
  have hmax : (2 : Int) ^ (binary32.expBits - 1) - 1 + (binary64.fracBits - binary32.fracBits) ≤
    2 ^ (binary64.expBits - 1) - 1 := by decide
  exact value_round_exact binary64 neg m e m e (by decide) (hm.trans (by decide)) (hmin.trans hlo) (by omega) rfl

theorem convert_f32_f64_of_nan {v : Word} (h : binary32.value (uval 32 v) = .nan) :
    convert .f32 .f64 v = zext64 (nanWiden (v.setWidth 32)) := by
  simp [convert, isInteger, kindOf, floatToFloat, h]

theorem convert_f32_f64_of_not_nan {v : Word} (h : binary32.value (uval 32 v) ≠ .nan) :
    convert .f32 .f64 v = zext64 (toBinary64 (binary32.value (uval 32 v))) := by
  cases hx : binary32.value (uval 32 v)
  · exact absurd hx h
  all_goals simp [convert, isInteger, kindOf, floatToFloat, hx]

theorem convert_f64_f32_of_nan {v : Word} (h : binary64.value v.toNat = .nan) :
    convert .f64 .f32 v = zext64 (nanNarrow v) := by
  simp [convert, isInteger, kindOf, floatToFloat, uval_64, h]

theorem convert_f64_f32_of_not_nan {v : Word} (h : binary64.value v.toNat ≠ .nan) :
    convert .f64 .f32 v = zext64 (toBinary32 (binary64.value v.toNat)) := by
  cases hx : binary64.value v.toNat
  · exact absurd hx h
  all_goals simp [convert, isInteger, kindOf, floatToFloat, uval_64, hx]

theorem value_nanWiden (b : BitVec 32) : binary64.value (nanWiden b) = .nan :=
  value_nanBits binary64 _ _ (Nat.add_lt_of_lt_sub (Config.nanF32ToF64 b).2.isLt)

theorem value_nanNarrow (b : Word) : binary32.value (nanNarrow b) = .nan :=
  value_nanBits binary32 _ _ (Nat.add_lt_of_lt_sub (Config.nanF64ToF32 b).2.isLt)

/-- Settles O49: a NaN gives the open parameter; any other float is rounded to the new width, exactly so when it widens. -/
theorem floatWidthChange : Obligations.FloatWidthChange := by
  unfold Obligations.FloatWidthChange
  constructor
  · intro v x y
    have hnan (hx : x = .nan) : convert .f32 .f64 v = zext64 (nanWiden (v.setWidth 32)) := convert_f32_f64_of_nan hx
    have hnum (hx : x ≠ .nan) : y = binary64.value (toBinary64 x) := by
      simp only [y, convert_f32_f64_of_not_nan hx, toNat_zext64 _ (toBinary64_lt _)]
      rfl
    refine ⟨fun hx => ⟨?_, hnan hx⟩, fun neg hx => ?_, fun neg m e hx => ?_⟩
    · simp only [y, hnan hx, toNat_zext64 _ (nanWiden_lt _), value_nanWiden]
    · rw [hnum (by simp [hx]), hx]
      exact value_inf binary64 neg
    · obtain ⟨hfin, hval⟩ := round_binary64_of_binary32 hx
      obtain ⟨m', e', hform⟩ := value_round_sign hfin
      rw [hnum (by simp [hx]), hx]
      exact ⟨m', e', hform, hval⟩
  · intro v x c y
    have hnan (hx : x = .nan) : c = nanNarrow v := by
      simp only [c, convert_f64_f32_of_nan hx, toNat_zext64 _ ((nanNarrow_lt v).trans (by norm_num))]
    have hnum (hx : x ≠ .nan) : c = toBinary32 x := by
      simp only [c, convert_f64_f32_of_not_nan hx, toNat_zext64 _ ((toBinary32_lt _).trans (by norm_num))]
      rfl
    refine ⟨?_, fun hx => ⟨?_, convert_f64_f32_of_nan hx⟩, fun neg hx => ?_, fun neg m e hx => ?_⟩
    · by_cases hx : x = .nan
      · exact hnan hx ▸ nanNarrow_lt v
      · exact hnum hx ▸ toBinary32_lt x
    · simp only [y, hnan hx, value_nanNarrow]
    · simp only [y, hnum (by simp [hx] : x ≠ .nan), hx]
      exact value_inf binary32 neg
    · simp only [y, hnum (by simp [hx] : x ≠ .nan), hx, toBinary32, toRat_signed]
      refine ⟨round_rounds binary32 neg m e (by decide) (by decide), ?_⟩
      rintro rfl
      exact ⟨_, value_round_zero binary32 neg e (by decide)⟩

end Sys2Proof.Machine
end

section
/-! PROOFS. RSLV, and BATCH with an Invalid format or with no sample (44_dispatch.md rules R220, R221, R223 and R234). -/

namespace Sys2Proof.Machine

theorem legalFormatCode_isSome {c : BitVec 7} (h : legalFormatCode c = true) :
    (WireFormat.ofCode? c).isSome = decide (c ≠ 0) := by
  rw [legalFormatCode, Bool.or_eq_true, decide_eq_true_iff] at h
  by_cases hc : c = 0
  · subst hc
    decide
  · rw [h.resolve_left hc, decide_eq_true hc]

theorem exec_batch_invalid {s : State} (h : resolveOk s = false) : exec .batch s = .next (resolve s) := by
  obtain ⟨e, -⟩ | ⟨t, -, hok, -⟩ := batch_cases s
  · exact e
  · exact absurd h (by simp [hok])

/-- Settles O51: on legal codes the check of Resolve is the test against 0. -/
theorem rslvRecordsValidity : Obligations.RslvRecordsValidity := by
  unfold Obligations.RslvRecordsValidity
  intro s hi ho ok
  have hok : resolveOk s = ok := by rw [resolveOk, legalFormatCode_isSome hi, legalFormatCode_isSome ho]
  rw [← hok]
  rfl

/-- Settles O52: code 0 names no format, so Resolve fails and BATCH ends there. -/
theorem batchWithInvalidFormat : Obligations.BatchWithInvalidFormat := by
  unfold Obligations.BatchWithInvalidFormat
  intro s h
  have hzero : WireFormat.ofCode? 0 = none := by decide
  have hok : resolveOk s = false := by
    obtain h | h := h <;> rw [resolveOk, h, hzero, Option.isSome_none]
    · exact Bool.false_and _
    · exact Bool.and_false _
  rw [exec_batch_invalid hok, resolve, hok]
  rfl

/-- Settles O59: the loop over no sample leaves the start of the command. -/
theorem batchOfNoSamples : Obligations.BatchOfNoSamples := by
  unfold Obligations.BatchOfNoSamples
  intro s fi fo hi ho hn
  have hzero : s.n.toNat = 0 := congrArg BitVec.toNat hn
  rw [exec_batch_valid s fi fo hi ho, resolve_valid s fi fo hi ho, hzero]
  rfl

end Sys2Proof.Machine
end

section
/-! PROOFS. BATCH with valid formats: where it stops, what it has written by then, and what that depends on (44_dispatch.md rules
R222 to R233). -/

namespace Sys2Proof.Machine

/-! ## Where a BATCH ends -/

section valid
variable {s t : State} {fi fo : WireFormat} (hi : s.inFmt = fi.code) (ho : s.outFmt = fo.code)
include hi ho

/-- The state after `k` samples of a valid BATCH, field by field. -/
theorem batchState_resolve (k : Nat) (m : Memory) :
    batchState fi fo (resolve s) k m = { s with
      ibo := BitVec.ofNat 64 (k * widthOf fi.enc)
      obo := BitVec.ofNat 64 (k * widthOf fo.enc)
      cnt := BitVec.ofNat 32 k
      status := { s.status with resolved := true, cfgErr := false }
      ob := m } := by
  rw [resolve_valid s fi fo hi ho]
  rfl

/-- A BATCH with a sample that does not fit halts the block at the first such sample. -/
theorem batch_halts_of_misfit (h : ¬ ∀ i, i < s.n.toNat → s.sampleFits fi fo i) :
    ∃ t, exec .batch s = .next t ∧ t.halted = true := by
  classical
  have hex : ∃ k, k < s.n.toNat ∧ ¬ s.sampleFits fi fo k := by simpa using h
  obtain ⟨hk, hmis⟩ := Nat.find_spec hex
  have hfit : ∀ i, i < Nat.find hex → s.sampleFits fi fo i := fun i hlt =>
    not_not.1 fun hnot => Nat.find_min hex hlt ⟨hlt.trans hk, hnot⟩
  obtain ⟨m, f, -, e, -⟩ := batch_stops_at s fi fo _ hi ho hk hfit hmis
  exact ⟨_, e, rfl⟩

/-- A BATCH that does not halt the block has converted all N samples. -/
theorem batch_completed (e : exec .batch s = .next t) (ht : t.halted = false) :
    (∀ i, i < s.n.toNat → s.sampleFits fi fo i) ∧
      ∃ m, BatchOut fi fo s.ib s.ob s.n.toNat m ∧ t = batchState fi fo (resolve s) s.n.toNat m := by
  have hfit : ∀ i, i < s.n.toNat → s.sampleFits fi fo i := by
    by_contra hmis
    obtain ⟨u, eu, hu⟩ := batch_halts_of_misfit hi ho hmis
    rw [e] at eu
    cases eu
    exact absurd hu (by simp [ht])
  obtain ⟨m, hm, em⟩ := batch_all_fit s fi fo hi ho hfit
  rw [e] at em
  cases em
  exact ⟨hfit, m, hm, rfl⟩

end valid

/-- Settles O53: the state after N fitting samples, whose OB holds their conversions by `BatchOut.sample_eq`. -/
theorem batchConvertsEverySample : Obligations.BatchConvertsEverySample := by
  unfold Obligations.BatchConvertsEverySample
  intro s fi fo hi ho hfit
  obtain ⟨m, hm, e⟩ := batch_all_fit s fi fo hi ho hfit
  refine ⟨m, ?_, hm.sample_eq⟩
  rw [e, batchState_resolve hi ho, BitVec.ofNat_toNat, BitVec.setWidth_eq]

/-- Settles O54: BATCH halts the block exactly when some sample does not fit, and `all_fit_iff` turns that into the sizes. -/
theorem batchFaultsExactlyWhenUndersized : Obligations.BatchFaultsExactlyWhenUndersized := by
  unfold Obligations.BatchFaultsExactlyWhenUndersized
  intro s fi fo hs hi ho
  rw [← all_fit_iff s fi fo s.n.toNat]
  by_cases hfit : ∀ i, i < s.n.toNat → s.sampleFits fi fo i
  · obtain ⟨m, -, e⟩ := batch_all_fit s fi fo hi ho hfit
    exact ⟨_, e, iff_of_true hs hfit⟩
  · obtain ⟨t, e, ht⟩ := batch_halts_of_misfit hi ho hfit
    exact ⟨t, e, iff_of_false (by simp [ht]) hfit⟩

/-- Settles O56: the state at the first misfit is that after `k` samples, with the fault of the span checked first. -/
theorem batchFaultIsPrecise : Obligations.BatchFaultIsPrecise := by
  unfold Obligations.BatchFaultIsPrecise
  intro s fi fo k hi ho hk hfit hmis
  obtain ⟨m, f, hm, e, hib, hob⟩ := batch_stops_at s fi fo k hi ho hk hfit hmis
  refine ⟨m, f.code, f.info, ?_, fun hout => ?_, fun hin => ?_, hm.sample_eq, hm.after⟩
  · rw [e, batchState_resolve hi ho]
    rfl
  · rw [hib hout]
    exact ⟨rfl, rfl⟩
  · rw [hob hin]
    exact ⟨rfl, rfl⟩

/-! ## What the output depends on -/

/-- Settles O55: `BatchOut` holds the footprint, and an IB that agrees in it gives an output with the same samples. -/
theorem batchFootprint : Obligations.BatchFootprint := by
  unfold Obligations.BatchFootprint
  intro s t fi fo _ hi ho e ht
  obtain ⟨hfit, m, hm, rfl⟩ := batch_completed hi ho e ht
  refine ⟨hm.after, hm.trailing, fun ib' hib => ?_⟩
  obtain ⟨m', hm', e'⟩ := batch_all_fit { s with ib := ib' } fi fo hi ho hfit
  refine ⟨_, e', fun a => ?_⟩
  by_cases ha : a < batchBytes s.n.toNat (widthOf fo.enc)
  · exact hm'.read_eq (hm.ib_congr hib) a ha
  · exact (hm'.after a (not_lt.1 ha)).trans (hm.after a (not_lt.1 ha)).symm

/-- Settles O57: both runs end after the same N samples, and equal input footprints give equal output footprints. -/
theorem batchIsStateless : Obligations.BatchIsStateless := by
  unfold Obligations.BatchIsStateless
  intro s s' t t' fi fo hi ho hi' ho' hn _ _ hib e e' ht ht'
  obtain ⟨-, m, hm, rfl⟩ := batch_completed hi ho e ht
  obtain ⟨-, m', hm', rfl⟩ := batch_completed (hi'.trans hi) (ho'.trans ho) e' ht'
  rw [hn] at hm' ⊢
  exact ⟨rfl, rfl, rfl, hm'.read_eq (hm.ib_congr hib)⟩

/-! ## The sample registers -/

/-- BATCH with other sample registers ends in the same state with those. -/
theorem exec_batch_regs {s t : State} (g : SampleRegs) (h : exec .batch s = .next t) :
    exec .batch (s.withRegs g) = .next (t.withRegs g) := by
  cases hok : resolveOk s with
  | false =>
    rw [exec_batch_invalid hok] at h
    cases h
    exact exec_batch_invalid (s := s.withRegs g) hok
  | true =>
    rw [resolveOk, Bool.and_eq_true, Option.isSome_iff_exists, Option.isSome_iff_exists] at hok
    obtain ⟨⟨fi, hfi⟩, fo, hfo⟩ := hok
    have hi : s.inFmt = fi.code := (formatCode_of hfi).symm
    have ho : s.outFmt = fo.code := (formatCode_of hfo).symm
    rw [exec_batch_valid s fi fo hi ho] at h
    cases h
    rw [exec_batch_valid (s.withRegs g) fi fo hi ho]
    exact congrArg Host.Outcome.next (batchLoop_regs fi fo s.n.toNat (batchStart (resolve s)) g)

/-- Settles O58: with its own registers put back, a state runs to the same end, so BATCH keeps them. -/
theorem batchIgnoresSampleRegisters : Obligations.BatchIgnoresSampleRegisters := by
  unfold Obligations.BatchIgnoresSampleRegisters
  intro s t g h
  have hself : t = t.withRegs s.regs := Host.Outcome.next.inj (h.symm.trans (exec_batch_regs s.regs h))
  have hregs := congrArg State.regs hself
  exact ⟨hregs, exec_batch_regs g h⟩

end Sys2Proof.Machine
end

section
/-! PROOFS. The faults: every step answers, a faulting command records its fault and nothing else, and what is recorded, like a
written flag, is cleared by reset only (60_exceptions.md rules R250 to R253, R255 and R259, 10_state.md rule R21). -/

namespace Sys2Proof.Machine

/-! ## Every step answers -/

theorem writeCmd_next (v : Word) (s : State) : ∃ t, writeCmd v s = .next t := by
  obtain ⟨-, e⟩ | ⟨-, -, e⟩ | ⟨-, i, -, e⟩ := writeCmd_cases v s
  · exact ⟨_, e⟩
  · exact ⟨_, e⟩
  · rw [e]
    exact exec_next i s

theorem hostWriteAt_next (o : BitVec 8) (v : Word) (s : State) : ∃ t, hostWriteAt o v s = .next t := by
  obtain ⟨-, e⟩ | ⟨-, e⟩ := hostWriteAt_cases o v s
  · rw [e]
    exact writeCmd_next v s
  · exact ⟨_, e⟩

theorem perform_next (a : HostAction) (s : State) : ∃ t, perform a s = .next t := by
  cases a with
  | writeReg o v => exact hostWriteAt_next o v s
  | readReg _ | writeIB _ _ | writeOB _ _ | reset => exact ⟨_, rfl⟩

/-- Settles O16: a step is idle or performs one host action, and every host action answers. -/
theorem everyStepAnswersNext : Obligations.EveryStepAnswersNext := by
  unfold Obligations.EveryStepAnswersNext
  refine ⟨fun s => ?_, step_idle⟩
  cases hp : s.pending with
  | nil => exact ⟨s, step_idle s hp⟩
  | cons a rest =>
    rw [step_pending s a rest hp]
    exact perform_next a _

/-! ## A faulting command -/

/-- Settles O24: a data-path command that halts an unhalted block took the raising branch, and RSLV never raises. -/
theorem faultingCommandChangesOnlyFaultFields : Obligations.FaultingCommandChangesOnlyFaultFields := by
  unfold Obligations.FaultingCommandChangesOnlyFaultFields
  intro i s t hb hs h ht
  by_cases hr : i = .rslv
  · subst hr
    cases h
    exact absurd (hs.symm.trans ht) Bool.false_ne_true
  · obtain ⟨f, e, hf⟩ | ⟨u, e, hu⟩ := data_command_cases i s hr hb
    all_goals
      rw [e] at h
      cases h
    · exact ⟨rfl, hf⟩
    · rw [hu.eq] at ht
      exact absurd (hs.symm.trans ht) Bool.false_ne_true

/-! ## The recorded fault -/

/-- What the block has recorded of its first fault: FAULT, FCODE and FINFO (60_exceptions.md rule R252). -/
def State.faultRecord (s : State) : Bool × BitVec 4 × Word := (s.status.fault, s.status.fcode, s.finfo)

theorem halted_of_faultRecord {s t : State} (h : t.faultRecord = s.faultRecord) : t.halted = s.halted :=
  congrArg Prod.fst h

/-- No host register write touches the recorded fault, a format write clearing RESOLVED only. -/
theorem hostWrite_faultRecord (s : State) (v : Word) (r : HostReg) : (hostWrite s v r).faultRecord = s.faultRecord := by
  cases r <;> rfl

/-- The CMD port of a halted block is closed (60_exceptions.md rule R253). -/
theorem writeCmd_halted (v : Word) {s : State} (h : s.halted = true) : writeCmd v s = .next s := by
  rw [writeCmd, if_pos h]

theorem perform_halted_faultRecord {a : HostAction} {s t : State} (hs : s.halted = true) (ha : a ≠ .reset)
    (h : perform a s = .next t) : t.faultRecord = s.faultRecord := by
  cases a with
  | writeReg o v =>
    rw [perform] at h
    obtain ⟨-, e⟩ | ⟨-, e⟩ := hostWriteAt_cases o v s
    · rw [e, writeCmd_halted v hs] at h
      cases h
      rfl
    · rw [e] at h
      cases h
      exact hostWrite_faultRecord s v _
  | readReg _ | writeIB _ _ | writeOB _ _ =>
    cases h
    rfl
  | reset => exact absurd rfl ha

/-- Settles O12: the CMD port is closed, the other accesses do not look at the halt, and all but reset keep the fault record. -/
theorem haltedBlockIgnoresCommands : Obligations.HaltedBlockIgnoresCommands := by
  unfold Obligations.HaltedBlockIgnoresCommands
  intro s hs
  refine ⟨fun v => writeCmd_halted v hs, fun o v ho => ?_, fun _ => rfl, fun a t h => ?_⟩
  · obtain ⟨h0, -⟩ | ⟨-, e⟩ := hostWriteAt_cases o v s
    · exact absurd h0 ho
    · exact e
  · constructor
    · intro ht
      by_contra ha
      have hkept : t.halted = s.halted := halted_of_faultRecord (perform_halted_faultRecord hs ha h)
      rw [ht, hs] at hkept
      cases hkept
    · rintro rfl
      cases h
      rfl

/-! ## Written flags -/

theorem batch_vw {s t : State} (h : exec .batch s = .next t) (r : VReg) : t.vw r = s.vw r := by
  rw [State.vw, (batchIgnoresSampleRegisters s t s.regs h).1, State.vw]

theorem exec_vw_mono {i : Instr} {s t : State} (h : exec i s = .next t) {r : VReg} (hw : s.vw r = true) : t.vw r = true := by
  by_cases hb : i = .batch
  · subst hb
    rw [batch_vw h, hw]
  · by_cases hr : i = .rslv
    · subst hr
      cases h
      exact hw
    · obtain ⟨f, e, -⟩ | ⟨u, e, hu⟩ := data_command_cases i s hr hb
      all_goals
        rw [e] at h
        cases h
      · exact hw
      · exact hu.written r hw

theorem writeCmd_vw_mono {v : Word} {s t : State} (h : writeCmd v s = .next t) {r : VReg} (hw : s.vw r = true) :
    t.vw r = true := by
  obtain ⟨-, e⟩ | ⟨-, -, e⟩ | ⟨-, i, -, e⟩ := writeCmd_cases v s
  all_goals rw [e] at h
  · cases h
    exact hw
  · cases h
    exact hw
  · exact exec_vw_mono h hw

theorem hostWrite_vw_mono (s : State) (v : Word) (q : HostReg) {r : VReg} (hw : s.vw r = true) :
    (hostWrite s v q).vw r = true := by
  cases q with
  | v q => exact State.writeV_vw_mono s q r v hw
  | _ => exact hw

theorem perform_vw_mono {a : HostAction} {s t : State} (ha : a ≠ .reset) (h : perform a s = .next t) {r : VReg}
    (hw : s.vw r = true) : t.vw r = true := by
  cases a with
  | writeReg o v =>
    rw [perform] at h
    obtain ⟨-, e⟩ | ⟨-, e⟩ := hostWriteAt_cases o v s
    all_goals rw [e] at h
    · exact writeCmd_vw_mono h hw
    · cases h
      exact hostWrite_vw_mono s v _ hw
  | readReg _ | writeIB _ _ | writeOB _ _ =>
    cases h
    exact hw
  | reset => exact absurd rfl ha

/-- Settles O22: a block with a recorded fault is halted and keeps the record, and no action but reset clears a written flag. -/
theorem onlyResetClearsFaultAndWrittenFlags : Obligations.OnlyResetClearsFaultAndWrittenFlags := by
  unfold Obligations.OnlyResetClearsFaultAndWrittenFlags
  intro s t a h ha
  refine ⟨fun hs => ?_, fun r hw => perform_vw_mono ha h hw⟩
  have hrec := perform_halted_faultRecord hs ha h
  simp only [State.faultRecord, Prod.mk.injEq] at hrec
  obtain ⟨hfault, hcode, hinfo⟩ := hrec
  exact ⟨hfault.trans hs, hcode, hinfo⟩

end Sys2Proof.Machine
end

section
/-! PROOFS. The reset: its values, at power-up and in a block in operation, and the invariant's base case
(70_reset_and_hazards.md rules R280 to R282). -/

namespace Sys2Proof.Machine

/-- The format code that reset leaves in both format registers is Invalid, so both traits registers read 0 (rule R38). -/
theorem traitsWord_zero : traitsWord 0 = 0 := traitsWordAt_invalid _ 0 (by decide)

@[simp] theorem State.reset_vw (r : VReg) : State.reset.vw r = false := State.afterReset_written 0 r

@[simp] theorem State.platformReset_vw (s : State) (r : VReg) : s.platformReset.vw r = false :=
  State.afterReset_written (s.resets + 1) r

theorem perform_reset (s : State) : perform .reset s = .next s.platformReset := rfl

/-- Settles O19: both reset states hold the reset column field by field; the draw for V0 to V3 fixes only the written flags. -/
theorem resetValues : Obligations.ResetValues := by
  unfold Obligations.ResetValues
  intro cleared
  have hpower : cleared State.reset :=
    ⟨rfl, rfl, rfl, rfl, rfl, rfl, rfl, rfl, rfl, rfl, State.reset_vw, rfl, traitsWord_zero, traitsWord_zero⟩
  have hevent (s : State) : cleared s.platformReset :=
    ⟨rfl, rfl, rfl, rfl, rfl, rfl, rfl, rfl, rfl, rfl, s.platformReset_vw, rfl, traitsWord_zero, traitsWord_zero⟩
  exact ⟨hpower, fun s => ⟨s.platformReset, perform_reset s, hevent s, s.platformReset_ib, s.platformReset_ob⟩⟩

/-- Settles O20: the buffers are empty, code 0 is legal in a format register, and neither FAULT nor RESOLVED is set. -/
theorem resetMeetsInvariant : Obligations.ResetMeetsInvariant where
  ibWf := Memory.wf_nil
  obWf := Memory.wf_nil
  inFmtLegal := rfl
  outFmtLegal := rfl
  fcodeClear := fun _ => rfl
  finfoClear := fun _ => rfl
  fcodeNamed := fun hfault => by cases hfault
  resolvedValid := fun hresolved => by cases hresolved
  resolvedOrErr := fun hresolved => by cases hresolved

end Sys2Proof.Machine
end
